-- ==== Sys2Proof/Word.lean ====
section
/-! DEFINITION. The byte and the byte string of the spec (00_scope.md R10). -/

namespace Sys2Proof

/-- A byte is 8 bits; bit 7 is its most significant bit (R10). -/
abbrev Byte := BitVec 8

/-- A byte string, indexed from 0 (R10). -/
abbrev Bytes := List Byte

/-- `zeros(n)`: n bytes of 0x00 (R10). -/
def zeros (n : Nat) : Bytes := List.replicate n 0

end Sys2Proof
end

