-- ==== Sys2Proof/Config.lean ====
section
/-! DEFINITION. The configuration record `Cfg` of 00_scope.md R8, the draws of R13, and the opaque constants that
stand for every value the spec leaves OPEN. A value here has no body: nothing in Lean can evaluate it, so whatever is
proved holds for each of its values. The defaults that R8 does give stand in Machine/Params.lean. -/

namespace Sys2Proof

/-- `frameRole` of the crypto engine (41_crypto.md R144, R145): which half of the superframe a codeword is in. -/
inductive Role where
  | ldu1
  | ldu2
deriving DecidableEq, Repr, Inhabited

/-- A Link Control value (30_encoding.md R105). -/
structure LC where
  flco  : BitVec 8
  srcId : BitVec 32
  dstId : BitVec 32
deriving DecidableEq, Repr, Inhabited

/-- Which full Link Control burst: the voice header or the terminator (00_scope.md R8, `DmrLcBurst`). -/
inductive LcKind where
  | vhdr
  | term
deriving DecidableEq, Repr, Inhabited

/-- The four 32-bit fragments of an embedded Link Control (00_scope.md R7 `EMB_FRAGS`, 43_dmr_framer.md R193). -/
structure Frags where
  f0 : BitVec 32
  f1 : BitVec 32
  f2 : BitVec 32
  f3 : BitVec 32
deriving DecidableEq, Repr, Inhabited

/-- The classes of an inbound P25 frame (30_encoding.md R90). -/
inductive P25Class where
  | ldu1
  | ldu2
  | term
  | other
deriving DecidableEq, Repr, Inhabited

/-- The classes of an inbound DMR frame (30_encoding.md R90). -/
inductive DmrClass where
  | voice
  | vhdr
  | pihdr
  | term
  | other
deriving DecidableEq, Repr, Inhabited

/-- A `functionId` value handed to the transport peer: an opaque token (00_scope.md R8, decision D13). DESIGN CHOICE: it
is carried as a number, of which nothing is known (log 12). -/
abbrev FuncId := Nat

/-- The OPEN fields of `Cfg` (00_scope.md R8), the draws (R13) and the scheduling choice (20_memory.md R74 (5)).
Where R8 or R13 bounds a value, the bound is in the type, so that every value of the type is a value the spec allows
and every value the spec allows is one of the type (log 5, log 6). -/
structure Unstated where
  /-- `NCH - 1`; `NCH` is in 1..65536 (decision D3). -/
  nchLess1 : Fin 65536
  /-- `SEQ_MOD - 2`; `SEQ_MOD` is in 2..65536 (decision D11). -/
  seqModLess2 : Fin 65535
  /-- Byte i of `Keystream(algId, key, mi)` (decision D9). -/
  ksByte : Byte → Bytes → Bytes → Nat → Byte
  /-- How many bytes `Keystream(algId, key, mi)` has beyond the last window of `KsOffset` (41_crypto.md R144). -/
  ksExtra : Byte → Bytes → Bytes → Nat
  /-- `KsOffset(algId, role, pos)` (decision D9). -/
  ksOffset : Byte → Role → Nat → Nat
  /-- Byte i of `MiCycle(mi)` (decision D10). -/
  miCycleByte : Bytes → Nat → Byte
  /-- `FUNC_P25`, an opaque token (decision D13). -/
  funcP25 : FuncId
  /-- `FUNC_DMR`, an opaque token (decision D13). -/
  funcDmr : FuncId
  /-- `DMR_VOICE_SYNC` (decision D15). -/
  dmrVoiceSync : BitVec 48
  /-- `EmbEncode(cc, pi, lcss)` (decision D15). -/
  embEncode : BitVec 4 → BitVec 1 → BitVec 2 → BitVec 16
  /-- `EmbLcFragments(lc)` (decision D15). -/
  embLcFragments : LC → Frags
  /-- Byte i of the 33-byte body `DmrLcBurst(kind, lc)` (decision D16). -/
  dmrLcByte : LcKind → LC → Nat → Byte
  /-- `DmrLcParse(kind, body)` (decision D16). -/
  dmrLcParse : LcKind → Bytes → Option LC
  /-- `DmrPiParse(body)` (decision D16); the privacy Link Control is opaque to the spec (30_encoding.md R105). -/
  dmrPiParse : Bytes → Option Bytes
  /-- `DuidClass(raw)`: read by whoever builds an RXP25 command, not by the block (30_encoding.md R90). DESIGN CHOICE:
  the spec gives a raw DUID no type and no width; the model takes it as one byte (log 14). -/
  duidClass : Byte → P25Class
  /-- `DmrTypeClass(raw)`: read by whoever builds an RXDMR command, not by the block (30_encoding.md R90). DESIGN CHOICE:
  the spec gives a raw DMR data type no type and no width; the model takes it as one byte (log 14). -/
  dmrTypeClass : Byte → DmrClass
  /-- `DrawStreamId() - 1` at a draw: a stream id is 32 bits and not zero (R13). -/
  drawStreamId : Nat → Fin 4294967295
  /-- `DrawMi() - 1` at a draw, as a number of nine bytes: an MI drawn is not all zero (R13). -/
  drawMi : Nat → Fin 4722366482869645213695
  /-- Byte i of `DrawBytes(n)` at a draw (R13). -/
  drawByte : Nat → Nat → Byte
  /-- `VocErrs(c, cw)` at a draw: any natural number (R13, 40_config_and_ports.md R130). -/
  vocErrs : Nat → Nat → Bytes → Nat
  /-- Which of the steps that may come next does come next (20_memory.md R74 (5)). -/
  sched : Nat → Nat

/-- The configuration record `Cfg` (00_scope.md R8): the open values, and the values R8 gives a default. -/
structure Cfg extends Unstated where
  /-- `IMBE_LEN`; its bound 16 is in the type (`Cfg.imbeLen` reads it). -/
  imbe : Fin 17
  /-- `AMBE_LEN`. -/
  ambeLen : Nat
  /-- `REC_BUF_OFF[0..8]`. -/
  recBufOff : List Nat
  /-- `REC_LEN[0..8]`. -/
  recLen : List Nat
  /-- `REC_NET_OFF[0..8]`. -/
  recNetOff : List Nat
  /-- `P25_PAYLOAD_OFF`. -/
  p25PayloadOff : Nat
  /-- `P25_FT_OFF`. -/
  p25FtOff : Nat
  /-- `FT_HDU_VALID`. -/
  ftHduValid : Byte
  /-- `P25_HDU_ALG_OFF`. -/
  p25HduAlgOff : Nat
  /-- `P25_HDU_KID_OFF`. -/
  p25HduKidOff : Nat
  /-- `P25_HDU_MI_OFF`. -/
  p25HduMiOff : Nat
  /-- `ESS_MI_REC[0..2]`. -/
  essMiRec : List Nat
  /-- `ESS_ALG_REC`. -/
  essAlgRec : Nat
  /-- `ESS_FIELD_OFF`. -/
  essFieldOff : Nat
  /-- `ALG_UNENCRYPTED`. -/
  algUnencrypted : Byte
  /-- `SUPPORTED_ALGS`. -/
  supportedAlgs : List Byte
  /-- `LCO_GROUP`. -/
  lcoGroup : BitVec 8
  /-- `DMR_BODY_OFF`. -/
  dmrBodyOff : Nat
  /-- `DMR_COLOR_CODE`. -/
  dmrColorCode : BitVec 4

/-- `NCH - 1`, OPEN (D3). -/
opaque Config.nchLess1 : Fin 65536
/-- `SEQ_MOD - 2`, OPEN (D11). -/
opaque Config.seqModLess2 : Fin 65535
/-- The bytes of `Keystream`, OPEN (D9). -/
opaque Config.ksByte : Byte → Bytes → Bytes → Nat → Byte
/-- The excess length of `Keystream`, OPEN (D9). -/
opaque Config.ksExtra : Byte → Bytes → Bytes → Nat
/-- `KsOffset`, OPEN (D9). -/
opaque Config.ksOffset : Byte → Role → Nat → Nat
/-- The bytes of `MiCycle`, OPEN (D10). -/
opaque Config.miCycleByte : Bytes → Nat → Byte
/-- `FUNC_P25`, OPEN (D13). -/
opaque Config.funcP25 : FuncId
/-- `FUNC_DMR`, OPEN (D13). -/
opaque Config.funcDmr : FuncId
/-- `DMR_VOICE_SYNC`, OPEN (D15). -/
opaque Config.dmrVoiceSync : BitVec 48
/-- `EmbEncode`, OPEN (D15). -/
opaque Config.embEncode : BitVec 4 → BitVec 1 → BitVec 2 → BitVec 16
/-- `EmbLcFragments`, OPEN (D15). -/
opaque Config.embLcFragments : LC → Frags
/-- The bytes of `DmrLcBurst`, OPEN (D16). -/
opaque Config.dmrLcByte : LcKind → LC → Nat → Byte
/-- `DmrLcParse`, OPEN (D16). -/
opaque Config.dmrLcParse : LcKind → Bytes → Option LC
/-- `DmrPiParse`, OPEN (D16). -/
opaque Config.dmrPiParse : Bytes → Option Bytes
/-- `DuidClass` (D17). DESIGN CHOICE: a raw DUID is taken as one byte; the spec gives it no width (log 14). -/
opaque Config.duidClass : Byte → P25Class
/-- `DmrTypeClass` (D17). DESIGN CHOICE: a raw DMR data type is taken as one byte; the spec gives it no width
(log 14). -/
opaque Config.dmrTypeClass : Byte → DmrClass
/-- `DrawStreamId`, a draw (R13). -/
opaque Config.drawStreamId : Nat → Fin 4294967295
/-- `DrawMi`, a draw (R13). -/
opaque Config.drawMi : Nat → Fin 4722366482869645213695
/-- `DrawBytes`, a draw (R13). -/
opaque Config.drawByte : Nat → Nat → Byte
/-- `VocErrs`, a draw (R13). -/
opaque Config.vocErrs : Nat → Nat → Bytes → Nat
/-- The order of unordered steps, free (20_memory.md R74 (5)). -/
opaque Config.sched : Nat → Nat

/-- The open values of this machine: each an opaque constant. -/
def Config.unstated : Unstated where
  nchLess1 := Config.nchLess1
  seqModLess2 := Config.seqModLess2
  ksByte := Config.ksByte
  ksExtra := Config.ksExtra
  ksOffset := Config.ksOffset
  miCycleByte := Config.miCycleByte
  funcP25 := Config.funcP25
  funcDmr := Config.funcDmr
  dmrVoiceSync := Config.dmrVoiceSync
  embEncode := Config.embEncode
  embLcFragments := Config.embLcFragments
  dmrLcByte := Config.dmrLcByte
  dmrLcParse := Config.dmrLcParse
  dmrPiParse := Config.dmrPiParse
  duidClass := Config.duidClass
  dmrTypeClass := Config.dmrTypeClass
  drawStreamId := Config.drawStreamId
  drawMi := Config.drawMi
  drawByte := Config.drawByte
  vocErrs := Config.vocErrs
  sched := Config.sched

end Sys2Proof
end

