-- ==== Sys2Proof/Syntax.lean ====
section
/-! DEFINITION. The operations of the block as values: one constructor per row of the operation map
(30_encoding.md R91). An operand is held at the width its format gives it (R81 to R89); the operand values that a
format refuses (`slot`, `cause`, `role`, `klen`) are held as the byte the command carries, so that the operation itself
reports R_BADARG as its rule says. -/

namespace Sys2Proof

/-- The seven refusal codes (60_exceptions.md R262). -/
inductive RefuseCode where
  /-- R_BADOP, 0x10: the operation code is not assigned. -/
  | badOp
  /-- R_BADLEN, 0x11: the command's length is not what its format gives. -/
  | badLen
  /-- R_BADARG, 0x12: an operand is outside its legal values. -/
  | badArg
  /-- R_BADCH, 0x13: no such channel, or the slot is not valid. -/
  | badCh
  /-- R_NOCFG, 0x14: the channel is valid and not configured. -/
  | noCfg
  /-- R_NOCALL, 0x15: a transmit operation without a call. -/
  | noCall
  /-- R_BUSY, 0x16: a start or a configuration during a call. -/
  | busy
deriving DecidableEq, Repr

/-- What formats FRXP and FRXD carry of an inbound event (30_encoding.md R89), `kind` and `slot` apart. -/
structure RxEvent where
  sys      : BitVec 16
  now      : BitVec 64
  peerId   : BitVec 32
  srcId    : BitVec 32
  dstId    : BitVec 32
  streamId : BitVec 32
  data     : Bytes
deriving DecidableEq, Repr

/-- The twenty-three operations (30_encoding.md R91). -/
inductive Instr where
  /-- RESET, F0, 0x00. -/
  | reset
  /-- CHINIT, FC, 0x01. -/
  | chinit (ch : BitVec 16)
  /-- CHCFG, FCFG, 0x02. -/
  | chcfg (ch : BitVec 16) (sys : BitVec 16) (srcId : BitVec 32) (dstId : BitVec 32) (slot : BitVec 8)
      (algoId : BitVec 8) (keyId : BitVec 16)
  /-- CHFREE, FC, 0x03. -/
  | chfree (ch : BitVec 16)
  /-- KEYLOAD, FKEY, 0x04; `klen` is the length of `key`. -/
  | keyload (algId : BitVec 8) (keyId : BitVec 16) (key : Bytes)
  /-- CPREP, FPREP, 0x10. -/
  | cprep (ch : BitVec 16) (algId : BitVec 8) (keyId : BitVec 16) (mi : Bytes)
  /-- CPROC, FPROC, 0x11. -/
  | cproc (ch : BitVec 16) (role : BitVec 8) (cw : Bytes)
  /-- CCYCLE, FC, 0x12. -/
  | ccycle (ch : BitVec 16)
  /-- TXSTART, FC, 0x20. -/
  | txstart (ch : BitVec 16)
  /-- TXP25, FCW, 0x21. -/
  | txp25 (ch : BitVec 16) (cw : Bytes)
  /-- TXDMR, FCW, 0x22. -/
  | txdmr (ch : BitVec 16) (cw : Bytes)
  /-- TXENDP, FCC, 0x23. -/
  | txendp (ch : BitVec 16) (cause : BitVec 8)
  /-- TXENDD, FCC, 0x24. -/
  | txendd (ch : BitVec 16) (cause : BitVec 8)
  /-- RXP25.LDU1, FRXP, 0x30, `kind` 0. -/
  | rxp25Ldu1 (ev : RxEvent)
  /-- RXP25.LDU2, FRXP, 0x30, `kind` 1. -/
  | rxp25Ldu2 (ev : RxEvent)
  /-- RXP25.TERM, FRXP, 0x30, `kind` 2. -/
  | rxp25Term (ev : RxEvent)
  /-- RXP25.OTHER, FRXP, 0x30, `kind` 3..255. -/
  | rxp25Other (kind : BitVec 8) (ev : RxEvent)
  /-- RXDMR.VOICE, FRXD, 0x31, `kind` 0. -/
  | rxdmrVoice (slot : BitVec 8) (ev : RxEvent)
  /-- RXDMR.VHDR, FRXD, 0x31, `kind` 1. -/
  | rxdmrVhdr (slot : BitVec 8) (ev : RxEvent)
  /-- RXDMR.PIHDR, FRXD, 0x31, `kind` 2. -/
  | rxdmrPihdr (slot : BitVec 8) (ev : RxEvent)
  /-- RXDMR.TERM, FRXD, 0x31, `kind` 3. -/
  | rxdmrTerm (slot : BitVec 8) (ev : RxEvent)
  /-- RXDMR.OTHER, FRXD, 0x31, `kind` 4..255. -/
  | rxdmrOther (kind : BitVec 8) (slot : BitVec 8) (ev : RxEvent)
  /-- TICK, FT, 0x40. -/
  | tick (now : BitVec 64)
deriving DecidableEq, Repr

end Sys2Proof
end

