-- ==== Sys2Proof/Machine/Params.lean ====
section
/-! DEFINITION. The values the spec fixes (00_scope.md R7), the defaults it gives (R8), and what is derived from them.
The defaults R8 marks as general knowledge are not facts about the hardware (log 4); every operation takes the record
as an argument. -/

namespace Sys2Proof.Machine

/-! ## Values DVC fixes (R7) -/

/-- `P25_SF_LEN`. -/
def p25SfLen : Nat := 18
/-- `LDU_CW`. -/
def lduCw : Nat := 9
/-- `LDU_LEN`. -/
def lduLen : Nat := 225
/-- `CW_POS[0..8]`. -/
def cwPosTable : List Nat := [10, 26, 55, 80, 105, 130, 155, 180, 204]
/-- `CW_POS[k]`. -/
def cwPos (k : Nat) : Nat := cwPosTable.getD k 0
/-- `MARK_LDU1[0..8]`. -/
def markLdu1 : Bytes := [0x62, 0x63, 0x64, 0x65, 0x66, 0x67, 0x68, 0x69, 0x6A]
/-- `MARK_LDU2[0..8]`. -/
def markLdu2 : Bytes := [0x6B, 0x6C, 0x6D, 0x6E, 0x6F, 0x70, 0x71, 0x72, 0x73]
/-- `MI_LEN`. -/
def miLen : Nat := 9
/-- `AMBE_BUF_LEN`. -/
def ambeBufLen : Nat := 27
/-- `AMBE_PER_FRAME`. -/
def ambePerFrame : Nat := 3
/-- `DMR_GROUP`. -/
def dmrGroup : Nat := 6
/-- `DMR_BODY_LEN`. -/
def dmrBodyLen : Nat := 33
/-- `EMB_FRAGS`: a `Frags` has one field for each. -/
def embFrags : Nat := 4
/-- `RX_TIMEOUT_MS`. -/
def rxTimeoutMs : Nat := 2000
/-- `SUPERVISOR_PERIOD_MS`: a duty of whoever presents TICK; no step reads it (70_reset_and_hazards.md R293). -/
def supervisorPeriodMs : Nat := 1000
/-- `PACE_MS`: a duty of the host; no step reads it (70_reset_and_hazards.md R292). -/
def paceMs : Nat := 100
/-- `PCM_SAMPLES`: of the vocoder, outside the block; no step reads it (40_config_and_ports.md R130). -/
def pcmSamples : Nat := 160

/-! ## Operand ranges -/

/-- The timeslot operand is 1 or 2 (30_encoding.md R84, R89). -/
def slotLegal (slot : BitVec 8) : Bool := slot == 1 || slot == 2

/-- The event data fits the 16-bit `dlen` of formats FRXP and FRXD (30_encoding.md R89). -/
def dataFits (ev : RxEvent) : Bool := decide (ev.data.length < 65536)

/-! ## The default configuration (R8) -/

/-- The configuration record with the default of every field R8 gives one, and the given open values. -/
def cfgOf (u : Unstated) : Cfg where
  toUnstated := u
  imbe := 11
  ambeLen := 9
  recBufOff := [0, 25, 50, 75, 100, 125, 150, 175, 200]
  recLen := [22, 14, 17, 17, 17, 17, 17, 17, 16]
  recNetOff := [0, 22, 36, 53, 70, 87, 104, 121, 138]
  p25PayloadOff := 24
  p25FtOff := 180
  ftHduValid := 0x01
  p25HduAlgOff := 181
  p25HduKidOff := 182
  p25HduMiOff := 184
  essMiRec := [2, 3, 4]
  essAlgRec := 5
  essFieldOff := 1
  algUnencrypted := 0x80
  supportedAlgs := [0x81, 0x84, 0xAA]
  lcoGroup := 0x00
  dmrBodyOff := 20
  dmrColorCode := 0

/-- The configuration of this machine: R8's defaults over the opaque open values. -/
def params : Cfg := cfgOf Config.unstated

end Sys2Proof.Machine

namespace Sys2Proof.Cfg
open Sys2Proof.Machine

/-- `NCH`, 1..65536 (R8). -/
def nch (K : Cfg) : Nat := K.nchLess1.val + 1

/-- `SEQ_MOD`, 2..65536, the first value not stamped (44_sequencer.md R216). -/
def seqMod (K : Cfg) : Nat := K.seqModLess2.val + 2

/-- `IMBE_LEN`, at most 16 (R8). -/
def imbeLen (K : Cfg) : Nat := K.imbe.val

/-- `P25_PAYLOAD_LEN`, the sum of `REC_LEN` (R8). -/
def p25PayloadLen (K : Cfg) : Nat := K.recLen.sum

/-- The end of the farthest window of `KsOffset` for an algorithm: a keystream has at least this many bytes
(41_crypto.md R144). -/
def ksNeed (K : Cfg) (alg : Byte) : Nat :=
  (((List.range lduCw).map fun p => max (K.ksOffset alg .ldu1 p) (K.ksOffset alg .ldu2 p)).foldr max 0) + K.imbeLen

/-- `Keystream(algId, key, mi)` (41_crypto.md R144): a function of its three arguments and of nothing else, long enough
for every window of `KsOffset`. -/
def keystream (K : Cfg) (alg : Byte) (key mi : Bytes) : Bytes :=
  (List.range (K.ksNeed alg + K.ksExtra alg key mi)).map (K.ksByte alg key mi)

/-- `MiCycle(mi)`: a total function to 9 bytes (41_crypto.md R147). -/
def miCycle (K : Cfg) (mi : Bytes) : Bytes := (List.range miLen).map (K.miCycleByte mi)

/-- `DmrLcBurst(kind, lc)`: a total function to a 33-byte body (R8). -/
def dmrLcBurst (K : Cfg) (kind : LcKind) (lc : LC) : Bytes := (List.range dmrBodyLen).map (K.dmrLcByte kind lc)

/-- `DrawStreamId()` at draw d: any non-zero 32-bit value (R13). -/
def streamIdAt (K : Cfg) (d : Nat) : BitVec 32 := BitVec.ofNat 32 ((K.drawStreamId d).val + 1)

/-- `DrawMi()` at draw d: any nine bytes that are not all zero (R13). -/
def miAt (K : Cfg) (d : Nat) : Bytes :=
  (List.range miLen).map fun i => BitVec.ofNat 8 (((K.drawMi d).val + 1) / 256 ^ (miLen - 1 - i))

/-- `DrawBytes(n)` at draw d: any n bytes (R13). -/
def bytesAt (K : Cfg) (d n : Nat) : Bytes := (List.range n).map (K.drawByte d)

end Sys2Proof.Cfg
end

