-- ==== Sys2Proof/WellFormed.lean ====
section
/-! DEFINITION. Which terms of `Instr` are commands of the block: `encodable` says a byte form exists (the lengths and
class numbers of 30_encoding.md R85 to R90), `legal` that the operand values are those the formats allow (R83 to R89). -/

namespace Sys2Proof

open Machine

/-- The term has a byte form: codewords, MI, key and data have the lengths their formats give them, and a `kind` of
class OTHER is none of the named ones (R85 to R90). -/
def Instr.encodable (K : Cfg) : Instr → Bool
  | .reset => true
  | .chinit _ => true
  | .chcfg _ _ _ _ _ _ _ => true
  | .chfree _ => true
  | .keyload _ _ key => decide (key.length < 256)
  | .cprep _ _ _ mi => decide (mi.length = 9)
  | .cproc _ _ cw => decide (cw.length = K.imbeLen)
  | .ccycle _ => true
  | .txstart _ => true
  | .txp25 _ cw => decide (cw.length = K.imbeLen)
  | .txdmr _ cw => decide (cw.length = K.ambeLen)
  | .txendp _ _ => true
  | .txendd _ _ => true
  | .rxp25Ldu1 ev => dataFits ev
  | .rxp25Ldu2 ev => dataFits ev
  | .rxp25Term ev => dataFits ev
  | .rxp25Other kind ev => decide (3 ≤ kind.toNat) && dataFits ev
  | .rxdmrVoice _ ev => dataFits ev
  | .rxdmrVhdr _ ev => dataFits ev
  | .rxdmrPihdr _ ev => dataFits ev
  | .rxdmrTerm _ ev => dataFits ev
  | .rxdmrOther kind _ ev => decide (4 ≤ kind.toNat) && dataFits ev
  | .tick _ => true

/-- The operand values are legal: `slot` is 1 or 2, `cause` and `role` are 0 or 1, a key has a byte (R83 to R89). -/
def Instr.legal : Instr → Bool
  | .reset => true
  | .chinit _ => true
  | .chcfg _ _ _ _ slot _ _ => slotLegal slot
  | .chfree _ => true
  | .keyload _ _ key => decide (key ≠ [])
  | .cprep _ _ _ _ => true
  | .cproc _ role _ => decide (role.toNat ≤ 1)
  | .ccycle _ => true
  | .txstart _ => true
  | .txp25 _ _ => true
  | .txdmr _ _ => true
  | .txendp _ cause => decide (cause.toNat ≤ 1)
  | .txendd _ cause => decide (cause.toNat ≤ 1)
  | .rxp25Ldu1 _ => true
  | .rxp25Ldu2 _ => true
  | .rxp25Term _ => true
  | .rxp25Other _ _ => true
  | .rxdmrVoice slot _ => slotLegal slot
  | .rxdmrVhdr slot _ => slotLegal slot
  | .rxdmrPihdr slot _ => slotLegal slot
  | .rxdmrTerm slot _ => slotLegal slot
  | .rxdmrOther _ slot _ => slotLegal slot
  | .tick _ => true

/-- A well-formed command: it has a byte form and its operand values are legal. -/
def Instr.wellFormed (K : Cfg) (i : Instr) : Bool := i.encodable K && i.legal

end Sys2Proof
end

