-- ==== Sys2Proof/Decode.lean ====
section
/-! DEFINITION. Byte strings read and written most significant byte first (20_memory.md R60), the decoder of the
command formats (30_encoding.md R80 to R91, R110, R111) and the encoder written from the same tables. -/

namespace Sys2Proof

/-! ## Byte-string reads -/

/-- `b[i]` (00_scope.md R10). No rule reads past the end (46_common_laws.md R248); there the answer is 0 (log 10). -/
def byteAt (b : Bytes) (i : Nat) : Byte := b.getD i 0

/-- `MemRead(B + off, n)`: the n bytes at offset `off` (00_scope.md R11). -/
def readAt (b : Bytes) (off : Nat) : Nat → Bytes
  | 0 => []
  | n + 1 => byteAt b off :: readAt b (off + 1) n

/-- `BE16`, `BE32`, `BE64` of a byte string, by its length (R10). -/
def beNat (b : Bytes) : Nat := b.foldl (fun a x => 256 * a + x.toNat) 0

/-- `be16`, `be32`, `be64`: the value as n bytes, most significant first (R10). -/
def beBytes : Nat → Nat → Bytes
  | 0, _ => []
  | n + 1, v => beBytes n (v / 256) ++ [BitVec.ofNat 8 v]

/-- A field of w bits in n bytes at offset `off`, most significant byte first (R60, R80). -/
def field (w : Nat) (b : Bytes) (off n : Nat) : BitVec w := BitVec.ofNat w (beNat (readAt b off n))

/-! ## The decoder -/

/-- The inbound event of format FRXP or FRXD; its data is the bytes from `at` on (R89). -/
def eventOf (b : Bytes) (dataOff dlen : Nat) : RxEvent where
  sys := field 16 b 1 2
  now := field 64 b 3 8
  peerId := field 32 b 11 4
  srcId := field 32 b 15 4
  dstId := field 32 b 19 4
  streamId := field 32 b 23 4
  data := readAt b dataOff dlen

/-- The RXP25 row that `kind` selects (R90, R91). -/
def rxp25Of (kind : Byte) (ev : RxEvent) : Instr :=
  match kind.toNat with
  | 0 => .rxp25Ldu1 ev
  | 1 => .rxp25Ldu2 ev
  | 2 => .rxp25Term ev
  | _ => .rxp25Other kind ev

/-- The RXDMR row that `kind` selects (R90, R91). -/
def rxdmrOf (kind slot : Byte) (ev : RxEvent) : Instr :=
  match kind.toNat with
  | 0 => .rxdmrVoice slot ev
  | 1 => .rxdmrVhdr slot ev
  | 2 => .rxdmrPihdr slot ev
  | 3 => .rxdmrTerm slot ev
  | _ => .rxdmrOther kind slot ev

/-- The command's length as its format gives it (R81 to R89, R111), and the instruction its bytes then are, by `op`
(R91); `none` where `op` is reserved (R110). -/
def layoutOf (K : Cfg) (b : Bytes) : Option (Nat × Instr) :=
  match (byteAt b 0).toNat with
  | 0x00 => some (1, .reset)
  | 0x01 => some (3, .chinit (field 16 b 1 2))
  | 0x02 => some (17, .chcfg (field 16 b 1 2) (field 16 b 3 2) (field 32 b 5 4) (field 32 b 9 4) (byteAt b 13)
      (byteAt b 14) (field 16 b 15 2))
  | 0x03 => some (3, .chfree (field 16 b 1 2))
  | 0x04 => some (5 + (byteAt b 4).toNat, .keyload (byteAt b 1) (field 16 b 2 2) (readAt b 5 (byteAt b 4).toNat))
  | 0x10 => some (15, .cprep (field 16 b 1 2) (byteAt b 3) (field 16 b 4 2) (readAt b 6 9))
  | 0x11 => some (4 + K.imbeLen, .cproc (field 16 b 1 2) (byteAt b 3) (readAt b 4 K.imbeLen))
  | 0x12 => some (3, .ccycle (field 16 b 1 2))
  | 0x20 => some (3, .txstart (field 16 b 1 2))
  | 0x21 => some (3 + K.imbeLen, .txp25 (field 16 b 1 2) (readAt b 3 K.imbeLen))
  | 0x22 => some (3 + K.ambeLen, .txdmr (field 16 b 1 2) (readAt b 3 K.ambeLen))
  | 0x23 => some (4, .txendp (field 16 b 1 2) (byteAt b 3))
  | 0x24 => some (4, .txendd (field 16 b 1 2) (byteAt b 3))
  | 0x30 =>
    let dlen := beNat (readAt b 28 2)
    some (30 + dlen, rxp25Of (byteAt b 27) (eventOf b 30 dlen))
  | 0x31 =>
    let dlen := beNat (readAt b 29 2)
    some (31 + dlen, rxdmrOf (byteAt b 27) (byteAt b 28) (eventOf b 31 dlen))
  | 0x40 => some (9, .tick (field 64 b 1 8))
  | _ => none

/-- The decoder: `op` first, then the length (60_exceptions.md R266 (1), (2)). The operand values of R266 (3) are
checked by the operation, first of all its checks (log 8). -/
def decode (K : Cfg) (b : Bytes) : Except RefuseCode Instr :=
  match layoutOf K b with
  | none => .error .badOp
  | some (n, i) => if b.length = n then .ok i else .error .badLen

/-! ## The encoder -/

/-- A register-width value as n bytes, most significant first. -/
def be {w : Nat} (n : Nat) (v : BitVec w) : Bytes := beBytes n v.toNat

/-- Bytes 1 to 26 of formats FRXP and FRXD (R89). -/
def encodeEvent (ev : RxEvent) : Bytes :=
  be 2 ev.sys ++ (be 8 ev.now ++ (be 4 ev.peerId ++ (be 4 ev.srcId ++ (be 4 ev.dstId ++ be 4 ev.streamId))))

/-- Format FRXP with the given `kind` (R89). -/
def encodeRxp (kind : Byte) (ev : RxEvent) : Bytes :=
  (0x30 : Byte) :: (encodeEvent ev ++ (kind :: (beBytes 2 ev.data.length ++ ev.data)))

/-- Format FRXD with the given `kind` and `slot` (R89). -/
def encodeRxd (kind slot : Byte) (ev : RxEvent) : Bytes :=
  (0x31 : Byte) :: (encodeEvent ev ++ (kind :: slot :: (beBytes 2 ev.data.length ++ ev.data)))

/-- The command's bytes (R80 to R91). -/
def encode : Instr → Bytes
  | .reset => [0x00]
  | .chinit ch => 0x01 :: be 2 ch
  | .chcfg ch sys srcId dstId slot algoId keyId =>
    0x02 :: (be 2 ch ++ (be 2 sys ++ (be 4 srcId ++ (be 4 dstId ++ (slot :: algoId :: be 2 keyId)))))
  | .chfree ch => 0x03 :: be 2 ch
  | .keyload algId keyId key => 0x04 :: algId :: (be 2 keyId ++ (BitVec.ofNat 8 key.length :: key))
  | .cprep ch algId keyId mi => 0x10 :: (be 2 ch ++ (algId :: (be 2 keyId ++ mi)))
  | .cproc ch role cw => 0x11 :: (be 2 ch ++ (role :: cw))
  | .ccycle ch => 0x12 :: be 2 ch
  | .txstart ch => 0x20 :: be 2 ch
  | .txp25 ch cw => 0x21 :: (be 2 ch ++ cw)
  | .txdmr ch cw => 0x22 :: (be 2 ch ++ cw)
  | .txendp ch cause => 0x23 :: (be 2 ch ++ [cause])
  | .txendd ch cause => 0x24 :: (be 2 ch ++ [cause])
  | .rxp25Ldu1 ev => encodeRxp 0 ev
  | .rxp25Ldu2 ev => encodeRxp 1 ev
  | .rxp25Term ev => encodeRxp 2 ev
  | .rxp25Other kind ev => encodeRxp kind ev
  | .rxdmrVoice slot ev => encodeRxd 0 slot ev
  | .rxdmrVhdr slot ev => encodeRxd 1 slot ev
  | .rxdmrPihdr slot ev => encodeRxd 2 slot ev
  | .rxdmrTerm slot ev => encodeRxd 3 slot ev
  | .rxdmrOther kind slot ev => encodeRxd kind slot ev
  | .tick now => 0x40 :: be 8 now

/-! ## The host's table words -/

/-- The n low bytes of w, the least significant first. -/
def lowBytes : Nat → Nat → Bytes
  | 0, _ => []
  | n + 1, w => BitVec.ofNat 8 w :: lowBytes n (w / 256)

/-- The bytes of a word of the opcode table: byte 0 is bits 7..0, byte 1 bits 15..8. The rows of RXP25 and RXDMR that
fix a `kind` are written in the table over 28 bytes "byte 0 leftmost"; such a word is one whose top byte is the
operation code 0x30 or 0x31, and it is laid out from the top (log 13). -/
def tableBytes (nbits w : Nat) : Bytes :=
  let n := nbits / 8
  let b := lowBytes n (w % 2 ^ (8 * n))
  let top := byteAt b (n - 1)
  if n > 1 && (top == 0x30 || top == 0x31) then b.reverse else b

/-- The command that a table word stands for: its bytes, and zeros up to the length its format gives. -/
def tableCommand (K : Cfg) (nbits w : Nat) : Bytes :=
  let b := tableBytes nbits w
  match layoutOf K b with
  | none => b
  | some (n, _) => b ++ zeros (n - b.length)

/-- The instruction the decoder reads from a word of the opcode table; `none` where it refuses. -/
def decodeTableWord (nbits w : Nat) : Option Instr :=
  match decode Machine.params (tableCommand Machine.params nbits w) with
  | .ok i => some i
  | .error _ => none

end Sys2Proof
end

