-- ==== Sys2Proof/Machine/State.lean ====
section
/-! DEFINITION. The state of the block as plain data (10_state.md), the records of its output ports
(30_encoding.md R106 to R109), the reasons a step can stop, and the state after reset (10_state.md R50). -/

namespace Sys2Proof.Machine

/-! ## Registers of a channel -/

/-- Which protocol a receive call uses, `rxProto` (10_state.md R22). -/
inductive Proto where
  | p25
  | dmr
deriving DecidableEq, Repr

/-- `SlotStatus.frameType`: a class of 30_encoding.md R90 with the protocol it belongs to, or NONE (10_state.md R27). -/
inductive FrameType where
  | none
  | p25 (cls : P25Class)
  | dmr (cls : DmrClass)
deriving DecidableEq, Repr

/-- `embeddedData`, the DMR embedded-signalling shift state (10_state.md R22, 43_dmr_framer.md R193). -/
structure Embedded where
  frag  : Frags
  valid : Bool
deriving DecidableEq, Repr

/-- ChannelState, every register of 10_state.md R22 at its width; byte buffers are byte strings. -/
structure ChannelState where
  p25FrameIndex  : BitVec 5
  p25SeqNo       : BitVec 32
  dmrSeqNo       : BitVec 32
  dmrFrameIndex  : BitVec 3
  /-- 225 bytes. -/
  netLdu1        : Bytes
  /-- 225 bytes. -/
  netLdu2        : Bytes
  /-- 27 bytes. -/
  ambeBuffer     : Bytes
  ambeCount      : BitVec 2
  /-- 9 bytes. -/
  mi             : Bytes
  algId          : BitVec 8
  keyId          : BitVec 16
  embeddedData   : Embedded
  /-- 0 means none. -/
  txStreamId     : BitVec 32
  pktSeq         : BitVec 16
  /-- 0 means none. -/
  rxStreamId     : BitVec 32
  /-- 0 means none. -/
  peerId         : BitVec 32
  isReceiving    : Bool
  /-- Milliseconds. -/
  lastPacketTime : BitVec 64
  p25Errs        : BitVec 32
  noKey          : Bool
  rxProto        : Proto
deriving DecidableEq, Repr

/-- The configuration registers `cfg(c)` (10_state.md R25). -/
structure ChanCfg where
  set    : Bool
  sys    : BitVec 16
  srcId  : BitVec 32
  dstId  : BitVec 32
  slot   : BitVec 2
  algoId : BitVec 8
  keyId  : BitVec 16
deriving DecidableEq, Repr

/-- `eng.ks`: a byte string, or the value UNDEF (10_state.md R26). -/
inductive Keystream where
  | undef
  | bytes (b : Bytes)
deriving DecidableEq, Repr

/-- The crypto engine `eng(c)` (10_state.md R26). -/
structure Engine where
  algoId : BitVec 8
  keyId  : BitVec 16
  /-- 9 bytes. -/
  mi     : Bytes
  ks     : Keystream
  ksPos  : BitVec 4
deriving DecidableEq, Repr

/-- A SlotStatus record (10_state.md R27). -/
structure SlotStatus where
  created   : Bool
  srcId     : BitVec 32
  dstId     : BitVec 32
  frameType : FrameType
  streamId  : BitVec 32
  startTime : BitVec 64
  lc        : Option LC
  pi        : Option Bytes
deriving DecidableEq, Repr

/-- A channel slot `ch(c)` (10_state.md R20). -/
structure Chan where
  valid    : Bool
  cfg      : ChanCfg
  cs       : ChannelState
  eng      : Engine
  slotP25  : SlotStatus
  slotDmr1 : SlotStatus
  slotDmr2 : SlotStatus
deriving DecidableEq, Repr

/-! ## Records of the output ports -/

/-- `kind` of a NETOUT record (30_encoding.md R106). -/
inductive NetKind where
  | p25Ldu1
  | p25Ldu2
  | p25Tdu
  | dmrVhdr
  | dmrVoice
  | dmrTerm
deriving DecidableEq, Repr

/-- RemoteCallData (10_state.md R29). -/
structure CallData where
  srcId : BitVec 32
  dstId : BitVec 32
  lco   : BitVec 8
deriving DecidableEq, Repr

/-- CryptoParams, a value snapshot (10_state.md R29, 42_p25_framer.md R164). -/
structure CryptoParams where
  algoId : BitVec 8
  keyId  : BitVec 16
  mi     : Bytes
deriving DecidableEq, Repr

/-- A NETOUT record (30_encoding.md R106). A field of the other protocol's kinds is `none`; `hduValid` and `syncFrame`
are false for the kinds that have no such field. -/
structure NetRec where
  ch         : BitVec 16
  functionId : FuncId
  kind       : NetKind
  sequence   : BitVec 16
  streamId   : BitVec 32
  call       : CallData
  crypto     : Option CryptoParams
  hduValid   : Bool
  slot       : Option (BitVec 2)
  dmrSeq     : Option (BitVec 32)
  dmrN       : Option (BitVec 3)
  syncFrame  : Bool
  body       : Bytes
deriving DecidableEq, Repr

/-- A VOCOUT record (30_encoding.md R107). -/
structure VocRec where
  ch          : BitVec 16
  talkgroupId : BitVec 32
  proto       : Proto
  cw          : Bytes
deriving DecidableEq, Repr

/-- Why a receive call ended (45_call_tracker.md R236). -/
inductive EndCause where
  | terminated
  | timedOut
deriving DecidableEq, Repr

/-- Why the filter dropped a frame (45_call_tracker.md R232). -/
inductive DropReason where
  | dupCross
  | dupStale
  | loopback
deriving DecidableEq, Repr

/-- What an EVT record reports, with its `info` (30_encoding.md R108). -/
inductive EvtInfo where
  /-- CALL_START, 0x01. -/
  | callStart (srcId dstId streamId peerId : BitVec 32) (now : BitVec 64) (proto : Proto)
  /-- CALL_END, 0x02 or 0x03. -/
  | callEnd (cause : EndCause) (durationMs now : BitVec 64)
  /-- DROP, 0x04 to 0x06. -/
  | drop (reason : DropReason) (streamId : BitVec 32)
  /-- NOKEY, 0x07. -/
  | noKey (algId : BitVec 8) (keyId : BitVec 16)
  /-- PREP_FAIL, 0x08. -/
  | prepFail (algId : BitVec 8)
  /-- REFUSED, 0x10 to 0x16. -/
  | refused (reason : RefuseCode) (op : BitVec 8)
deriving DecidableEq, Repr

/-- An EVT record (30_encoding.md R108); its code is a function of `info` (`EvtRec.code`, Flags.lean). -/
structure EvtRec where
  ch   : BitVec 16
  info : EvtInfo
deriving DecidableEq, Repr

/-- An RSP record (30_encoding.md R109). -/
structure RspRec where
  ch    : BitVec 16
  op    : BitVec 8
  bytes : Bytes
deriving DecidableEq, Repr

/-! ## The whole state -/

/-- A command presented on CMD and not yet carried out. `next` is the channel on which an RXP25, RXDMR or TICK
command has its next step to take (20_memory.md R70, R71); 0 for a command not begun. -/
structure PortEntry where
  bytes : Bytes
  next  : Nat
deriving DecidableEq, Repr

/-- The state of the block. -/
structure State where
  /-- The channel array (10_state.md R20), as (index, slot) pairs with rising indices. A slot that is not listed holds
  its values after RESET, and no listed slot does (log 3). -/
  chans  : List (Nat × Chan)
  /-- The key store (10_state.md R28), as (pair, key) entries with rising pairs; the pair `(algId, keyId)` is the
  number `65536 * algId + keyId`. -/
  keys   : List (Nat × Bytes)
  /-- NETOUT, oldest first (10_state.md R32). -/
  netout : List NetRec
  /-- VOCOUT, oldest first. -/
  vocout : List VocRec
  /-- EVT, oldest first. -/
  evt    : List EvtRec
  /-- RSP, oldest first. -/
  rsp    : List RspRec
  /-- MODEL: the commands presented on CMD and not yet carried out, oldest first (log 1). -/
  port   : List PortEntry
  /-- MODEL: while an RXP25, RXDMR or TICK command is carried out, the channel its step is on, and after the step the channel
  its next one is on; 0 between steps (log 2). -/
  turn   : Nat
  /-- MODEL: draws taken so far (log 6). -/
  draws  : Nat
  /-- MODEL: scheduling choices taken so far (log 6). -/
  picks  : Nat
deriving DecidableEq, Repr

/-- The machine right after RESET (10_state.md R50, 70_reset_and_hazards.md R281): no slot is valid, the key store and
the four traces are empty, and nothing has been presented. -/
def State.reset : State where
  chans := []
  keys := []
  netout := []
  vocout := []
  evt := []
  rsp := []
  port := []
  turn := 0
  draws := 0
  picks := 0

/-- No reason: the block has no trap, no fatal error and no condition that stops it (00_scope.md R12,
60_exceptions.md R255, R270). -/
inductive Fault where
deriving DecidableEq, Repr

/-- The reasons an instruction has no meaning in the model. -/
inductive Refusal where
  /-- The instruction has no meaning yet: raised by its arm of `exec` alone, and by none now. Safe: the model stops. -/
  | notModelled (mnemonic : String)
deriving DecidableEq, Repr

end Sys2Proof.Machine
end

