-- ==== Sys2Proof/Machine/Operands.lean ====
section
/-! DEFINITION. The operand and buffer forms: byte-string writes (00_scope.md R11), the LDU image and its packed form
(30_encoding.md R100, R101), the fields of an inbound P25 message (R102), the DMR frame body (R103) and the inbound DMR
message (R104). One addressing form only: a named buffer and a constant or tabled offset (46_common_laws.md R248). -/

namespace Sys2Proof.Machine

/-! ## Byte strings -/

/-- `MemWrite(B + off, len(v), v)` (00_scope.md R11). The buffer keeps its length. -/
def writeAt : Bytes → Nat → Bytes → Bytes
  | b, _, [] => b
  | [], _, _ => []
  | _ :: b, 0, v :: vs => v :: writeAt b 0 vs
  | x :: b, off + 1, v :: vs => x :: writeAt b off (v :: vs)

/-- `a XOR b`, bytewise (R10, 46_common_laws.md R245). -/
def xorBytes (a b : Bytes) : Bytes := List.zipWith (· ^^^ ·) a b

/-! ## The LDU buffer and image (30_encoding.md R100, R101) -/

/-- `REC_BUF_OFF[k]`: record k of an LDU buffer begins there, and its marker is there (00_scope.md R8, R100). -/
def recOff (K : Cfg) (k : Nat) : Nat := K.recBufOff.getD k 0

/-- The marker bytes of a kind of LDU (00_scope.md R7). -/
def marks : Role → Bytes
  | .ldu1 => markLdu1
  | .ldu2 => markLdu2

/-- The nine marker bytes put into a buffer (R100). -/
def putMarks (K : Cfg) (role : Role) (buf : Bytes) : Bytes :=
  (List.range lduCw).foldl (fun b k => writeAt b (recOff K k) [byteAt (marks role) k]) buf

/-- Where a record's 3-byte encryption-sync field lies: `REC_BUF_OFF[r] + ESS_FIELD_OFF` (R100). -/
def essOff (K : Cfg) (r : Nat) : Nat := recOff K r + K.essFieldOff

/-- The record that carries MI fragment j, `ESS_MI_REC[j]`. -/
def essMiRecAt (K : Cfg) (j : Nat) : Nat := K.essMiRec.getD j 0

/-- The encryption-sync fields put into an LDU2 image (R100). -/
def putEss (K : Cfg) (crypto : CryptoParams) (buf : Bytes) : Bytes :=
  let withMi := (List.range 3).foldl (fun b j => writeAt b (essOff K (essMiRecAt K j)) (readAt crypto.mi (3 * j) 3)) buf
  writeAt withMi (essOff K K.essAlgRec) (crypto.algoId :: be 2 crypto.keyId)

/-- `P25Image(kind, buf, crypto)` (R100). -/
def p25Image (K : Cfg) (role : Role) (buf : Bytes) (crypto : CryptoParams) : Bytes :=
  match role with
  | .ldu1 => putMarks K .ldu1 buf
  | .ldu2 => putEss K crypto (putMarks K .ldu2 buf)

/-- `REC_LEN[k]`. -/
def recLenAt (K : Cfg) (k : Nat) : Nat := K.recLen.getD k 0

/-- `REC_NET_OFF[k]`. -/
def recNetOffAt (K : Cfg) (k : Nat) : Nat := K.recNetOff.getD k 0

/-- `P25Pack(I)` (R101). -/
def p25Pack (K : Cfg) (image : Bytes) : Bytes :=
  (List.range lduCw).flatMap fun k => readAt image (recOff K k) (recLenAt K k)

/-- `P25Unpack(p)` (R101). -/
def p25Unpack (K : Cfg) (p : Bytes) : Bytes :=
  (List.range lduCw).foldl (fun b k => writeAt b (recOff K k) (readAt p (recNetOffAt K k) (recLenAt K k))) (zeros lduLen)

/-- Codeword k of an LDU buffer (R100, 42_p25_framer.md R172). -/
def codewordAt (K : Cfg) (buf : Bytes) (k : Nat) : Bytes := readAt buf (cwPos k) K.imbeLen

/-! ## The inbound P25 message (30_encoding.md R102) -/

/-- The packed payload of an inbound message. -/
def p25Payload (K : Cfg) (data : Bytes) : Bytes := readAt data K.p25PayloadOff K.p25PayloadLen

/-- `algId` of a header-data-unit payload. -/
def hduAlg (K : Cfg) (data : Bytes) : BitVec 8 := byteAt data K.p25HduAlgOff

/-- `keyId` of a header-data-unit payload. -/
def hduKid (K : Cfg) (data : Bytes) : BitVec 16 := field 16 data K.p25HduKidOff 2

/-- The MI of a header-data-unit payload. -/
def hduMi (K : Cfg) (data : Bytes) : Bytes := readAt data K.p25HduMiOff miLen

/-- `algId` of the encryption-sync fields of an unpacked LDU2 (42_p25_framer.md R175). -/
def essAlg (K : Cfg) (image : Bytes) : BitVec 8 := byteAt image (essOff K K.essAlgRec)

/-- `keyId` of the encryption-sync fields (R175). -/
def essKid (K : Cfg) (image : Bytes) : BitVec 16 := field 16 image (essOff K K.essAlgRec + 1) 2

/-- `newMi`, the MI of the encryption-sync fields (R175). -/
def essMi (K : Cfg) (image : Bytes) : Bytes :=
  readAt image (essOff K (essMiRecAt K 0)) 3 ++
    (readAt image (essOff K (essMiRecAt K 1)) 3 ++ readAt image (essOff K (essMiRecAt K 2)) 3)

/-! ## The DMR frame body (30_encoding.md R103, R104) -/

/-- `DmrVoicePlace(A)` (R103). -/
def dmrVoicePlace (a : Bytes) : Bytes :=
  writeAt (writeAt (writeAt (writeAt (zeros dmrBodyLen) 0 (readAt a 0 13)) 13 [byteAt a 13 &&& 0xF0]) 19
    [byteAt a 13 &&& 0x0F]) 20 (readAt a 14 13)

/-- `DmrVoiceExtract(B)` (R103). -/
def dmrVoiceExtract (b : Bytes) : Bytes :=
  readAt b 0 13 ++ (((byteAt b 13 &&& 0xF0) ||| (byteAt b 19 &&& 0x0F)) :: readAt b 20 13)

/-- `DmrMidInsert(B, v)` (R103). -/
def dmrMidInsert (b : Bytes) (v : BitVec 48) : Bytes :=
  let b := writeAt b 13 [(byteAt b 13 &&& 0xF0) ||| (v.extractLsb' 44 4).setWidth 8]
  let b := writeAt b 14 ((List.range 5).map fun i => v.extractLsb' (36 - 8 * i) 8)
  writeAt b 19 [(byteAt b 19 &&& 0x0F) ||| ((v.extractLsb' 0 4).setWidth 8 <<< 4)]

/-- The 48 bits of an embedded-signalling frame: `emb[15:8] ++ frag[31:0] ++ emb[7:0]` (R103). -/
def embMiddle (emb : BitVec 16) (frag : BitVec 32) : BitVec 48 :=
  emb.extractLsb' 8 8 ++ frag ++ emb.extractLsb' 0 8

/-- `EmbSchedule(c, n)`: the fragment and the LCSS value of voice frame n (43_dmr_framer.md R194). -/
def embSchedule (e : Embedded) (n : Nat) : BitVec 32 × BitVec 2 :=
  match n with
  | 1 => (e.frag.f0, 1)
  | 2 => (e.frag.f1, 3)
  | 3 => (e.frag.f2, 3)
  | 4 => (e.frag.f3, 2)
  | _ => (0, 0)

/-- The frame body of an inbound DMR message (R104). -/
def dmrBody (K : Cfg) (data : Bytes) : Bytes := readAt data K.dmrBodyOff dmrBodyLen

/-! ## Link Control and call data -/

/-- The Link Control of an outbound DMR call (43_dmr_framer.md R192, 44_sequencer.md R219). -/
def callLc (K : Cfg) (cfg : ChanCfg) : LC := { flco := K.lcoGroup, srcId := cfg.srcId, dstId := cfg.dstId }

/-- RemoteCallData of an outbound message (42_p25_framer.md R162). -/
def callData (K : Cfg) (cfg : ChanCfg) : CallData := { srcId := cfg.srcId, dstId := cfg.dstId, lco := K.lcoGroup }

/-- CryptoParams of an outbound P25 message: the configured algorithm and key, and the live MI at this moment
(42_p25_framer.md R162, R164). -/
def cryptoSnapshot (cfg : ChanCfg) (mi : Bytes) : CryptoParams := { algoId := cfg.algoId, keyId := cfg.keyId, mi := mi }

/-- The number under which the key store holds a pair (10_state.md R28). -/
def keyIx (algId : BitVec 8) (keyId : BitVec 16) : Nat := 65536 * algId.toNat + keyId.toNat

/-! ## The SlotStatus an event maps to -/

/-- Which SlotStatus record of a channel: `slotP25`, `slotDmr(1)` or `slotDmr(2)` (10_state.md R27). -/
inductive SlotRef where
  | p25
  | dmr1
  | dmr2
deriving DecidableEq, Repr

/-- The protocol a SlotStatus record serves (R27). -/
def SlotRef.proto : SlotRef → Proto
  | .p25 => .p25
  | .dmr1 => .dmr
  | .dmr2 => .dmr

/-- `slotDmr(c, s)` for a timeslot number. -/
def dmrRef (slot : Nat) : SlotRef := if slot = 2 then .dmr2 else .dmr1

/-- Reads a SlotStatus record of a channel. -/
def Chan.status (x : Chan) : SlotRef → SlotStatus
  | .p25 => x.slotP25
  | .dmr1 => x.slotDmr1
  | .dmr2 => x.slotDmr2

/-- Writes a SlotStatus record of a channel. -/
def Chan.setStatus (x : Chan) (r : SlotRef) (v : SlotStatus) : Chan :=
  match r with
  | .p25 => { x with slotP25 := v }
  | .dmr1 => { x with slotDmr1 := v }
  | .dmr2 => { x with slotDmr2 := v }

/-- The SlotStatus of the receive call in progress (45_call_tracker.md R236): by `rxProto`, and for DMR by
`cfg.slot`. -/
def Chan.callRef (x : Chan) : SlotRef :=
  match x.cs.rxProto with
  | .p25 => .p25
  | .dmr => dmrRef x.cfg.slot.toNat

end Sys2Proof.Machine
end

