-- ==== Sys2Proof/Machine/Flags.lean ====
section
/-! DEFINITION. Every condition the block tests: the clear condition, the monitored condition, the structural checks,
the duplicate and loopback filter, the time differences, and the codes of EVT and RSP records. The block has no
condition codes (10_state.md R30). -/

namespace Sys2Proof.Machine

/-! ## Crypto conditions -/

/-- `IsClear(algoId, keyId)` (41_crypto.md R141). -/
def isClear (K : Cfg) (algId : BitVec 8) (keyId : BitVec 16) : Bool := algId == K.algUnencrypted || keyId == 0

/-- `TxEnc(c)` (42_p25_framer.md R161). -/
def txEnc (K : Cfg) (cfg : ChanCfg) : Bool := !isClear K cfg.algoId cfg.keyId

/-- `algoId` is in SUPPORTED_ALGS (41_crypto.md R142). -/
def supported (K : Cfg) (algId : BitVec 8) : Bool := K.supportedAlgs.contains algId

/-! ## Channel conditions -/

/-- A channel slot is monitored when it is valid and configured (10_state.md R21). -/
def Chan.monitored (x : Chan) : Bool := x.valid && x.cfg.set

/-- A call is in progress in either direction (40_config_and_ports.md R123). -/
def Chan.inCall (x : Chan) : Bool := x.cs.txStreamId != 0 || x.cs.isReceiving

/-- A P25 event reaches the channel (42_p25_framer.md R170, part 1). -/
def Chan.matchesP25 (x : Chan) (ev : RxEvent) : Bool :=
  x.monitored && (x.cfg.sys == ev.sys && x.cfg.dstId == ev.dstId)

/-- A DMR event of a timeslot reaches the channel (43_dmr_framer.md R200, part 1). -/
def Chan.matchesDmr (x : Chan) (slot : BitVec 8) (ev : RxEvent) : Bool :=
  x.matchesP25 ev && x.cfg.slot.toNat == slot.toNat

/-! ## Structural checks -/

/-- `HasHdu(data)` (42_p25_framer.md R171). -/
def hasHdu (K : Cfg) (data : Bytes) : Bool :=
  decide (K.p25FtOff < data.length) && byteAt data K.p25FtOff == K.ftHduValid

/-- The nine markers are those of the kind of LDU (R171). -/
def marksMatch (K : Cfg) (role : Role) (data : Bytes) : Bool :=
  (List.range lduCw).all fun k => byteAt data (K.p25PayloadOff + recNetOffAt K k) == byteAt (marks role) k

/-- `P25Valid(kind, data)` (R171). -/
def p25Valid (K : Cfg) (role : Role) (data : Bytes) : Bool :=
  decide (K.p25PayloadOff + K.p25PayloadLen ≤ data.length) && marksMatch K role data &&
    !(role == .ldu1 && hasHdu K data && decide (data.length < K.p25HduMiOff + miLen))

/-- The structural test of an RXP25 step by class (42_p25_framer.md R170, part 2): only LDU1 and LDU2 have one. -/
def p25Accepts (K : Cfg) (cls : P25Class) (data : Bytes) : Bool :=
  match cls with
  | .ldu1 => p25Valid K .ldu1 data
  | .ldu2 => p25Valid K .ldu2 data
  | .term => true
  | .other => true

/-- `DmrValid(kind, data)` (43_dmr_framer.md R201). -/
def dmrValid (K : Cfg) (cls : DmrClass) (data : Bytes) : Bool :=
  match cls with
  | .voice => decide (K.dmrBodyOff + dmrBodyLen ≤ data.length)
  | .vhdr => decide (K.dmrBodyOff + dmrBodyLen ≤ data.length)
  | .pihdr => decide (K.dmrBodyOff + dmrBodyLen ≤ data.length)
  | .term => true
  | .other => true

/-- The frame class is a terminator (45_call_tracker.md R233, R237). -/
def FrameType.isTerm : FrameType → Bool
  | .p25 .term => true
  | .dmr .term => true
  | _ => false

/-! ## The duplicate and loopback filter (45_call_tracker.md R232) -/

/-- (a): the stream id is another monitored channel's receive stream id. -/
def dupCross (chans : List (Nat × Chan)) (ev : RxEvent) (c : Nat) : Bool :=
  chans.any fun p => p.1 != c && (p.2.monitored && p.2.cs.rxStreamId == ev.streamId)

/-- (b): the channel's own stream from another peer. -/
def dupStale (x : Chan) (ev : RxEvent) : Bool := x.cs.rxStreamId == ev.streamId && ev.peerId != x.cs.peerId

/-- (c): the stream id is any monitored channel's transmit stream id. -/
def loopback (chans : List (Nat × Chan)) (ev : RxEvent) : Bool :=
  chans.any fun p => p.2.monitored && p.2.cs.txStreamId == ev.streamId

/-- `DupCheck(ev, c)`: the first reason that holds; stream id zero matches nothing (R232). -/
def dupCheck (chans : List (Nat × Chan)) (ev : RxEvent) (c : Nat) (x : Chan) : Option DropReason :=
  if ev.streamId = 0 then none
  else if dupCross chans ev c then some .dupCross
  else if dupStale x ev then some .dupStale
  else if loopback chans ev then some .loopback
  else none

/-! ## Time (46_common_laws.md R245) -/

/-- `a >= b ? a - b : 0` on 64-bit milliseconds. -/
def elapsed (a b : BitVec 64) : BitVec 64 := if b ≤ a then a - b else 0

/-- `idle > RX_TIMEOUT_MS`, strict (45_call_tracker.md R240). -/
def timedOut (now lastPacketTime : BitVec 64) : Bool := decide (rxTimeoutMs < (elapsed now lastPacketTime).toNat)

/-! ## Codes of the output records -/

/-- The EVT code of a refusal (60_exceptions.md R262). -/
def refusalCode : RefuseCode → BitVec 8
  | .badOp => 0x10
  | .badLen => 0x11
  | .badArg => 0x12
  | .badCh => 0x13
  | .noCfg => 0x14
  | .noCall => 0x15
  | .busy => 0x16

/-- The EVT code of a record (30_encoding.md R108). -/
def EvtInfo.code : EvtInfo → BitVec 8
  | .callStart _ _ _ _ _ _ => 0x01
  | .callEnd .terminated _ _ => 0x02
  | .callEnd .timedOut _ _ => 0x03
  | .drop .dupCross _ => 0x04
  | .drop .dupStale _ => 0x05
  | .drop .loopback _ => 0x06
  | .noKey _ _ => 0x07
  | .prepFail _ => 0x08
  | .refused r _ => refusalCode r

/-- `code` of an EVT record (R108). -/
def EvtRec.code (r : EvtRec) : BitVec 8 := r.info.code

/-- What a prepare answers (41_crypto.md R142). -/
inductive PrepResult where
  | clear
  | fail
  | noKey
  | seeded
deriving DecidableEq, Repr

/-- The status byte of CPREP (30_encoding.md R109, 41_crypto.md R150). -/
def PrepResult.status : PrepResult → BitVec 8
  | .seeded => 0
  | .clear => 1
  | .noKey => 2
  | .fail => 3

/-- The role operand of CPROC: 0 is LDU1, 1 is LDU2 (30_encoding.md R87, 41_crypto.md R151). -/
def roleOf (role : BitVec 8) : Role := if role = 0 then .ldu1 else .ldu2

/-- The role of superframe position n: LDU1 for 0..8, LDU2 from 9 (42_p25_framer.md R162). -/
def roleAt (n : Nat) : Role := if n < lduCw then .ldu1 else .ldu2

end Sys2Proof.Machine
end

