-- ==== Sys2Proof/Machine/Ops.lean ====
section
/-! DEFINITION. The shared operations: the channel array and the key store, the work of one atomic step (20_memory.md
R70), the output ports, refusals (60_exceptions.md R262, R266), the crypto engine's procedures (41_crypto.md), the
sequencer's (44_sequencer.md) and the call tracker's (45_call_tracker.md), and the iteration over channels (R71).

The block takes no exception and returns from none (60_exceptions.md R270, R271). What stands in their place is the
refusal, `guarded`: exactly one REFUSED record and nothing else written. -/

namespace Sys2Proof.Machine

/-! ## Maps with rising keys -/

/-- Reads a map. -/
def mapGet {α : Type} : List (Nat × α) → Nat → Option α
  | [], _ => none
  | (k, v) :: m, n => if k = n then some v else mapGet m n

/-- Writes an entry of a map, keeping the keys rising. -/
def mapPut {α : Type} : List (Nat × α) → Nat → α → List (Nat × α)
  | [], n, x => [(n, x)]
  | (k, v) :: m, n, x =>
    if n < k then (n, x) :: (k, v) :: m else if n = k then (n, x) :: m else (k, v) :: mapPut m n x

/-- Takes an entry out of a map. -/
def mapDel {α : Type} (m : List (Nat × α)) (n : Nat) : List (Nat × α) := m.filter fun p => p.1 != n

/-! ## The channel array (10_state.md R20, R50) -/

/-- A SlotStatus after reset (R50). -/
def SlotStatus.reset : SlotStatus where
  created := false
  srcId := 0
  dstId := 0
  frameType := .none
  streamId := 0
  startTime := 0
  lc := none
  pi := none

/-- The crypto engine's clear state, with which it is created (R50). -/
def Engine.reset (K : Cfg) : Engine where
  algoId := K.algUnencrypted
  keyId := 0
  mi := zeros miLen
  ks := .bytes []
  ksPos := 0

/-- ChannelState after reset (R50). -/
def ChannelState.reset : ChannelState where
  p25FrameIndex := 0
  p25SeqNo := 0
  dmrSeqNo := 0
  dmrFrameIndex := 0
  netLdu1 := zeros lduLen
  netLdu2 := zeros lduLen
  ambeBuffer := zeros ambeBufLen
  ambeCount := 0
  mi := zeros miLen
  algId := 0
  keyId := 0
  embeddedData := { frag := { f0 := 0, f1 := 0, f2 := 0, f3 := 0 }, valid := false }
  txStreamId := 0
  pktSeq := 0
  rxStreamId := 0
  peerId := 0
  isReceiving := false
  lastPacketTime := 0
  p25Errs := 0
  noKey := false
  rxProto := .p25

/-- A channel slot after RESET or CHFREE (R50). -/
def Chan.reset (K : Cfg) : Chan where
  valid := false
  cfg := { set := false, sys := 0, srcId := 0, dstId := 0, slot := 0, algoId := 0, keyId := 0 }
  cs := ChannelState.reset
  eng := Engine.reset K
  slotP25 := SlotStatus.reset
  slotDmr1 := SlotStatus.reset
  slotDmr2 := SlotStatus.reset

/-- A channel slot after CHINIT: the values after RESET, and valid (R50). -/
def Chan.init (K : Cfg) : Chan := { Chan.reset K with valid := true }

/-- `ch(c)`; a slot that is not listed holds its values after RESET (log 3). -/
def State.chan (K : Cfg) (s : State) (c : Nat) : Chan := (mapGet s.chans c).getD (Chan.reset K)

/-- Writes `ch(c)`, keeping the array's canonical form. -/
def State.setChan (K : Cfg) (s : State) (c : Nat) (x : Chan) : State :=
  { s with chans := if x = Chan.reset K then mapDel s.chans c else mapPut s.chans c x }

/-- The key of a pair, if one is loaded (10_state.md R28). -/
def keyOf (keys : List (Nat × Bytes)) (algId : BitVec 8) (keyId : BitVec 16) : Option Bytes :=
  mapGet keys (keyIx algId keyId)

/-- A channel index as a record carries it. -/
def chId (c : Nat) : BitVec 16 := BitVec.ofNat 16 c

/-! ## The work of one step (20_memory.md R70) -/

/-- What a step on one channel has read and written so far: the channel's slot, the draws taken, and the records it
has put out. Its writes become visible together when it is committed. -/
structure Work where
  ch    : Chan
  draws : Nat
  net   : List NetRec
  voc   : List VocRec
  evt   : List EvtRec
  rsp   : List RspRec
deriving DecidableEq, Repr

/-- The step on channel c begins. -/
def State.work (K : Cfg) (s : State) (c : Nat) : Work :=
  { ch := s.chan K c, draws := s.draws, net := [], voc := [], evt := [], rsp := [] }

/-- The step on channel c ends: all its writes become visible. -/
def State.commit (K : Cfg) (s : State) (c : Nat) (w : Work) : State :=
  { s.setChan K c w.ch with
    draws := w.draws
    netout := s.netout ++ w.net
    vocout := s.vocout ++ w.voc
    evt := s.evt ++ w.evt
    rsp := s.rsp ++ w.rsp }

/-- Writes ChannelState. -/
def Work.setCs (w : Work) (v : ChannelState) : Work := { w with ch := { w.ch with cs := v } }

/-- Writes the crypto engine. -/
def Work.setEng (w : Work) (v : Engine) : Work := { w with ch := { w.ch with eng := v } }

/-- Writes a SlotStatus record. -/
def Work.setStatus (w : Work) (r : SlotRef) (v : SlotStatus) : Work := { w with ch := w.ch.setStatus r v }

/-- One draw is taken. -/
def Work.draw (w : Work) : Work := { w with draws := w.draws + 1 }

/-- `emit EVT(record)`. -/
def Work.emitEvt (w : Work) (c : Nat) (i : EvtInfo) : Work := { w with evt := w.evt ++ [{ ch := chId c, info := i }] }

/-- `emit VOCOUT(record)`: one codeword to the decoder of the channel's talkgroup (30_encoding.md R107). -/
def Work.emitVoc (w : Work) (c : Nat) (p : Proto) (cw : Bytes) : Work :=
  { w with voc := w.voc ++ [{ ch := chId c, talkgroupId := w.ch.cfg.dstId, proto := p, cw := cw }] }

/-- `emit RSP(record)`. -/
def Work.emitRsp (w : Work) (c : Nat) (op : BitVec 8) (b : Bytes) : Work :=
  { w with rsp := w.rsp ++ [{ ch := chId c, op := op, bytes := b }] }

/-! ## Refusals (60_exceptions.md R262, R266) -/

/-- A refusal: one REFUSED record, and no state written (00_scope.md R12). -/
def State.refuse (s : State) (r : RefuseCode) (ch : BitVec 16) (op : BitVec 8) : State :=
  { s with evt := s.evt ++ [{ ch := ch, info := .refused r op }] }

/-- The `ch` of a refused command that has no channel operand or was not decoded that far (R262). -/
def noCh : BitVec 16 := 0xFFFF

/-- The code of the first check that fails. -/
def firstFail : List (Bool × RefuseCode) → Option RefuseCode
  | [] => none
  | (ok, r) :: checks => if ok then firstFail checks else some r

/-- A command behind its checks, in the order they are tested: the first that fails is the one refusal reported
(R266); if none does, the command has its effect. -/
def guarded (s : State) (ch : BitVec 16) (op : BitVec 8) (checks : List (Bool × RefuseCode)) (effect : State) : State :=
  match firstFail checks with
  | some r => s.refuse r ch op
  | none => effect

/-- `CheckCh(c)`: the slot is valid and the index is below NCH (40_config_and_ports.md R125). -/
def chOk (K : Cfg) (s : State) (ch : BitVec 16) : Bool := (s.chan K ch.toNat).valid && decide (ch.toNat < K.nch)

/-- The second part of `CheckCfg(c)` (R125). -/
def cfgOk (K : Cfg) (s : State) (ch : BitVec 16) : Bool := (s.chan K ch.toNat).cfg.set

/-- A transmit call is open on the channel (R262, R_NOCALL). -/
def callOpen (K : Cfg) (s : State) (ch : BitVec 16) : Bool := (s.chan K ch.toNat).cs.txStreamId != 0

/-! ## The crypto engine's procedures (41_crypto.md) -/

/-- The engine after a re-seed: the position returns to 0 (R142, decision D22). -/
def seedWith (algId : BitVec 8) (keyId : BitVec 16) (mi : Bytes) (ks : Keystream) : Engine :=
  { algoId := algId, keyId := keyId, mi := mi, ks := ks, ksPos := 0 }

/-- `Prepare(c, algoId, keyId, mi)` (R142, R143). -/
def prepare (K : Cfg) (keys : List (Nat × Bytes)) (c : Nat) (algId : BitVec 8) (keyId : BitVec 16) (mi : Bytes)
    (w : Work) : PrepResult × Work :=
  if isClear K algId keyId then
    (.clear, (w.setEng (seedWith algId keyId mi (.bytes []))).setCs { w.ch.cs with noKey := false })
  else if supported K algId then
    match keyOf keys algId keyId with
    | none =>
      (.noKey, ((w.setEng (seedWith algId keyId mi .undef)).setCs { w.ch.cs with noKey := true }).emitEvt c
        (.noKey algId keyId))
    | some key =>
      (.seeded, (w.setEng (seedWith algId keyId mi (.bytes (K.keystream algId key mi)))).setCs
        { w.ch.cs with noKey := false })
  else (.fail, w.emitEvt c (.prepFail algId))

/-- `Prepare` where its answer is not used. -/
def prep (K : Cfg) (keys : List (Nat × Bytes)) (c : Nat) (algId : BitVec 8) (keyId : BitVec 16) (mi : Bytes)
    (w : Work) : Work := (prepare K keys c algId keyId mi w).2

/-- `(pos + 1) mod 9` (46_common_laws.md R245). -/
def nextKsPos (p : BitVec 4) : BitVec 4 := BitVec.ofNat 4 ((p.toNat + 1) % lduCw)

/-- `Process(c, cw, role)` (R145, R146). -/
def process (K : Cfg) (cw : Bytes) (role : Role) (w : Work) : Bytes × Work :=
  let e := w.ch.eng
  if isClear K e.algoId e.keyId then (cw, w)
  else
    let moved := w.setEng { e with ksPos := nextKsPos e.ksPos }
    match e.ks with
    | .undef => (xorBytes cw (K.bytesAt w.draws K.imbeLen), moved.draw)
    | .bytes ks => (xorBytes cw (readAt ks (K.ksOffset e.algoId role e.ksPos.toNat) K.imbeLen), moved)

/-! ## The sequencer's procedures (44_sequencer.md) -/

/-- `(s + 1) mod SEQ_MOD` (R216). -/
def nextSeq (K : Cfg) (v : BitVec 16) : BitVec 16 := BitVec.ofNat 16 ((v.toNat + 1) % K.seqMod)

/-- `Emit(c, m)` with its `Stamp` (R216): the stamped value is the one before the increment. -/
def emit (K : Cfg) (c : Nat) (m : NetRec) (w : Work) : Work :=
  { w with
    net := w.net ++ [{ m with ch := chId c, sequence := w.ch.cs.pktSeq, streamId := w.ch.cs.txStreamId }]
    ch := { w.ch with cs := { w.ch.cs with pktSeq := nextSeq K w.ch.cs.pktSeq } } }

/-- A P25 message before `Emit` fills in its channel, sequence and stream id (30_encoding.md R106). -/
def p25Msg (K : Cfg) (kind : NetKind) (call : CallData) (crypto : CryptoParams) (hduValid : Bool) (body : Bytes) :
    NetRec where
  ch := 0
  functionId := K.funcP25
  kind := kind
  sequence := 0
  streamId := 0
  call := call
  crypto := some crypto
  hduValid := hduValid
  slot := none
  dmrSeq := none
  dmrN := none
  syncFrame := false
  body := body

/-- A DMR message before `Emit` fills in its channel, sequence and stream id (30_encoding.md R106). -/
def dmrMsg (K : Cfg) (kind : NetKind) (call : CallData) (slot : BitVec 2) (dmrSeq : BitVec 32)
    (dmrN : Option (BitVec 3)) (syncFrame : Bool) (body : Bytes) : NetRec where
  ch := 0
  functionId := K.funcDmr
  kind := kind
  sequence := 0
  streamId := 0
  call := call
  crypto := none
  hduValid := false
  slot := some slot
  dmrSeq := some dmrSeq
  dmrN := dmrN
  syncFrame := syncFrame
  body := body

/-- `TxReset(c)` (R220). -/
def txReset (w : Work) : Work :=
  w.setCs { w.ch.cs with
    txStreamId := 0, pktSeq := 0, p25SeqNo := 0, p25FrameIndex := 0, dmrSeqNo := 0, dmrFrameIndex := 0,
    ambeCount := 0, ambeBuffer := zeros ambeBufLen }

/-! ## The call tracker's procedures (45_call_tracker.md) -/

/-- "default unencrypted parameters if none set": what a call start leaves in `algId` and `keyId` (R234). -/
def defaultParams (K : Cfg) (cs : ChannelState) : BitVec 8 × BitVec 16 :=
  if cs.algId = 0 then (K.algUnencrypted, 0) else (cs.algId, cs.keyId)

/-- `CallStart(c, ev, proto)` (R234). The records of the prepare come before CALL_START (log 11). -/
def callStart (K : Cfg) (keys : List (Nat × Bytes)) (c : Nat) (ev : RxEvent) (r : SlotRef) (w : Work) : Work :=
  let w := w.setStatus r { w.ch.status r with
    srcId := 0, dstId := 0, frameType := .none, lc := none, pi := none, startTime := ev.now }
  let w := w.setCs { w.ch.cs with
    isReceiving := true, peerId := ev.peerId, rxStreamId := ev.streamId, rxProto := r.proto, mi := zeros miLen,
    algId := (defaultParams K w.ch.cs).1, keyId := (defaultParams K w.ch.cs).2 }
  let w := prep K keys c w.ch.cs.algId w.ch.cs.keyId w.ch.cs.mi w
  w.emitEvt c (.callStart ev.srcId ev.dstId ev.streamId ev.peerId ev.now r.proto)

/-- `CallEnd(c, now, cause)` (R236). -/
def callEnd (c : Nat) (now : BitVec 64) (cause : EndCause) (w : Work) : Work :=
  let d := elapsed now (w.ch.status w.ch.callRef).startTime
  (w.setCs { w.ch.cs with isReceiving := false, peerId := 0, rxStreamId := 0 }).emitEvt c (.callEnd cause d now)

/-- Part 4 of an inbound step (42_p25_framer.md R170, 43_dmr_framer.md R200): the SlotStatus is referenced, the start
trigger (R233), the terminator trigger (R237), the time of the frame. -/
def track (K : Cfg) (keys : List (Nat × Bytes)) (c : Nat) (ev : RxEvent) (r : SlotRef) (kind : FrameType)
    (w : Work) : Work :=
  let w := w.setStatus r { w.ch.status r with created := true }
  let w := if ev.streamId != (w.ch.status r).streamId && !kind.isTerm then callStart K keys c ev r w else w
  let w := if kind.isTerm && w.ch.cs.isReceiving && !(w.ch.status r).frameType.isTerm
    then callEnd c ev.now .terminated w else w
  w.setCs { w.ch.cs with lastPacketTime := ev.now }

/-- Part 6 of an inbound step: the last-observed attributes. -/
def observe (ev : RxEvent) (r : SlotRef) (kind : FrameType) (w : Work) : Work :=
  w.setStatus r { w.ch.status r with
    srcId := ev.srcId, dstId := ev.dstId, frameType := kind, streamId := ev.streamId }

/-- A frame the filter drops: one DROP record, and no state written (60_exceptions.md R259, R270). -/
def State.dropFrame (s : State) (c : Nat) (r : DropReason) (streamId : BitVec 32) : State :=
  { s with evt := s.evt ++ [{ ch := chId c, info := .drop r streamId }] }

/-! ## The iteration over channels (20_memory.md R70, R71) -/

/-- The step that an RXP25, RXDMR or TICK command takes on channel `turn`. Such a command has a step for every channel,
0 to NCH - 1 in ascending index, a slot that is not valid included (there the step does nothing: 10_state.md R21);
`turn` then names the channel of the next one. -/
def overChans (f : Nat → State → State) (s : State) : State := { f s.turn s with turn := s.turn + 1 }

end Sys2Proof.Machine
end

