-- ==== Sys2Proof/Machine/Crypto.lean ====
section
/-! DEFINITION. The crypto operations CPREP, CPROC and CCYCLE (41_crypto.md R150 to R152). -/

namespace Sys2Proof.Machine

/-- The work of CPREP (R150): the live parameters are replaced, even when the prepare fails. -/
def cprepWork (K : Cfg) (keys : List (Nat × Bytes)) (c : Nat) (algId : BitVec 8) (keyId : BitVec 16) (mi : Bytes)
    (w : Work) : Work :=
  let w := w.setCs { w.ch.cs with algId := algId, keyId := keyId, mi := mi }
  let (r, w) := prepare K keys c algId keyId mi w
  w.emitRsp c 0x10 [r.status]

/-- CPREP ch, algId, keyId, mi (R150). -/
def cprep (K : Cfg) (ch : BitVec 16) (algId : BitVec 8) (keyId : BitVec 16) (mi : Bytes) (s : State) : State :=
  guarded s ch 0x10 [(decide (mi.length = miLen), .badLen), (chOk K s ch, .badCh)]
    (s.commit K ch.toNat (cprepWork K s.keys ch.toNat algId keyId mi (s.work K ch.toNat)))

/-- The work of CPROC (R151). -/
def cprocWork (K : Cfg) (c : Nat) (role : BitVec 8) (cw : Bytes) (w : Work) : Work :=
  let (out, w) := process K cw (roleOf role) w
  w.emitRsp c 0x11 out

/-- CPROC ch, role, cw (R151). -/
def cproc (K : Cfg) (ch : BitVec 16) (role : BitVec 8) (cw : Bytes) (s : State) : State :=
  guarded s ch 0x11
    [(decide (cw.length = K.imbeLen), .badLen), (decide (role.toNat ≤ 1), .badArg), (chOk K s ch, .badCh)]
    (s.commit K ch.toNat (cprocWork K ch.toNat role cw (s.work K ch.toNat)))

/-- The work of CCYCLE (R152): the re-seed uses the engine's own algorithm and key. -/
def ccycleWork (K : Cfg) (keys : List (Nat × Bytes)) (c : Nat) (w : Work) : Work :=
  let m := K.miCycle w.ch.cs.mi
  let w := w.setCs { w.ch.cs with mi := m }
  let w := prep K keys c w.ch.eng.algoId w.ch.eng.keyId m w
  w.emitRsp c 0x12 m

/-- CCYCLE ch (R152). -/
def ccycle (K : Cfg) (ch : BitVec 16) (s : State) : State :=
  guarded s ch 0x12 [(chOk K s ch, .badCh)]
    (s.commit K ch.toNat (ccycleWork K s.keys ch.toNat (s.work K ch.toNat)))

/-! ## The meanings -/

/-- CPREP. -/
def execCprep (ch : BitVec 16) (algId : BitVec 8) (keyId : BitVec 16) (mi : Bytes) (s : State) :
    Host.Outcome State Fault Refusal := .next (cprep params ch algId keyId mi s)

/-- CPROC. -/
def execCproc (ch : BitVec 16) (role : BitVec 8) (cw : Bytes) (s : State) : Host.Outcome State Fault Refusal :=
  .next (cproc params ch role cw s)

/-- CCYCLE. -/
def execCcycle (ch : BitVec 16) (s : State) : Host.Outcome State Fault Refusal := .next (ccycle params ch s)

end Sys2Proof.Machine
end

