-- ==== Sys2Proof/Machine/Dmr.lean ====
section
/-! DEFINITION. The DMR voice framer: TXDMR and the RXDMR operations (43_dmr_framer.md R190 to R208). -/

namespace Sys2Proof.Machine

/-! ## Outbound (R192) -/

/-- The codeword goes to its third of `ambeBuffer` (R192). -/
def dmrStore (K : Cfg) (cw : Bytes) (w : Work) : Work :=
  w.setCs { w.ch.cs with ambeBuffer := writeAt w.ch.cs.ambeBuffer (K.ambeLen * w.ch.cs.ambeCount.toNat) cw }

/-- Before the call's first frame: the fragments are loaded and the voice header is emitted (R192, R193). -/
def dmrHeader (K : Cfg) (c : Nat) (w : Work) : Work :=
  if w.ch.cs.dmrSeqNo = 0 then
    let w := w.setCs { w.ch.cs with
      embeddedData := { frag := K.embLcFragments (callLc K w.ch.cfg), valid := true } }
    let w := emit K c (dmrMsg K .dmrVhdr (callData K w.ch.cfg) w.ch.cfg.slot 0 none false
      (K.dmrLcBurst .vhdr (callLc K w.ch.cfg))) w
    w.setCs { w.ch.cs with dmrSeqNo := 1 }
  else w

/-- The middle 48 bits of voice frame n: the sync pattern in frame 0, embedded signalling in the others (R192, R194). -/
def dmrMiddle (K : Cfg) (e : Embedded) (n : Nat) : BitVec 48 :=
  if n = 0 then K.dmrVoiceSync
  else embMiddle (K.embEncode K.dmrColorCode 0 (embSchedule e n).2) (embSchedule e n).1

/-- The voice message of a channel (R192). -/
def voiceMsg (K : Cfg) (x : Chan) : NetRec :=
  let n := x.cs.dmrFrameIndex
  dmrMsg K .dmrVoice (callData K x.cfg) x.cfg.slot x.cs.dmrSeqNo (some n) (n == 0)
    (dmrMidInsert (dmrVoicePlace x.cs.ambeBuffer) (dmrMiddle K x.cs.embeddedData n.toNat))

/-- The voice frame is emitted, the counters advance, the accumulator is emptied (R192). -/
def dmrVoice (K : Cfg) (c : Nat) (w : Work) : Work :=
  let w := emit K c (voiceMsg K w.ch) w
  w.setCs { w.ch.cs with
    dmrSeqNo := w.ch.cs.dmrSeqNo + 1
    dmrFrameIndex := BitVec.ofNat 3 ((w.ch.cs.dmrFrameIndex.toNat + 1) % dmrGroup)
    ambeBuffer := zeros ambeBufLen
    ambeCount := 0 }

/-- The work of TXDMR (R192). -/
def txdmrWork (K : Cfg) (c : Nat) (cw : Bytes) (w : Work) : Work :=
  let w := dmrStore K cw w
  if w.ch.cs.ambeCount.toNat < ambePerFrame - 1 then w.setCs { w.ch.cs with ambeCount := w.ch.cs.ambeCount + 1 }
  else dmrVoice K c (dmrHeader K c w)

/-- TXDMR ch, cw (R192). -/
def txdmr (K : Cfg) (ch : BitVec 16) (cw : Bytes) (s : State) : State :=
  guarded s ch 0x22
    [(decide (cw.length = K.ambeLen), .badLen), (chOk K s ch, .badCh), (cfgOk K s ch, .noCfg),
     (callOpen K s ch, .noCall)]
    (s.commit K ch.toNat (txdmrWork K ch.toNat cw (s.work K ch.toNat)))

/-! ## Inbound (R200) -/

/-- `RxDmrVoice(c, body)` (R203). -/
def rxDmrVoice (K : Cfg) (c : Nat) (body : Bytes) (w : Work) : Work :=
  let a := dmrVoiceExtract body
  (List.range ambePerFrame).foldl (fun w j => w.emitVoc c .dmr (readAt a (K.ambeLen * j) K.ambeLen)) w

/-- `RxDmrVhdr(S, body)` (R204): a header that does not parse changes nothing. -/
def rxDmrVhdr (K : Cfg) (r : SlotRef) (body : Bytes) (w : Work) : Work :=
  match K.dmrLcParse .vhdr body with
  | some lc => w.setStatus r { w.ch.status r with lc := some lc }
  | none => w

/-- `RxDmrPihdr(S, body)` (R205). -/
def rxDmrPihdr (K : Cfg) (r : SlotRef) (body : Bytes) (w : Work) : Work :=
  match K.dmrPiParse body with
  | some p => w.setStatus r { w.ch.status r with pi := some p }
  | none => w

/-- Part 5 of the DMR step (R200): voice only while receiving, the headers always. -/
def dmrPayloadPart (K : Cfg) (c : Nat) (r : SlotRef) (cls : DmrClass) (ev : RxEvent) (w : Work) : Work :=
  match cls with
  | .voice => if w.ch.cs.isReceiving then rxDmrVoice K c (dmrBody K ev.data) w else w
  | .vhdr => rxDmrVhdr K r (dmrBody K ev.data) w
  | .pihdr => rxDmrPihdr K r (dmrBody K ev.data) w
  | .term => w
  | .other => w

/-- Parts 4 to 6 of the DMR step, for a frame that the filter has let through (R200). -/
def dmrAccepted (K : Cfg) (keys : List (Nat × Bytes)) (cls : DmrClass) (slot : BitVec 8) (ev : RxEvent) (c : Nat)
    (w : Work) : Work :=
  let r := dmrRef slot.toNat
  observe ev r (.dmr cls) (dmrPayloadPart K c r cls ev (track K keys c ev r (.dmr cls) w))

/-- `RxDmrStep(ev, c)` (R200). -/
def rxDmrStep (K : Cfg) (cls : DmrClass) (slot : BitVec 8) (ev : RxEvent) (c : Nat) (s : State) : State :=
  if (s.chan K c).matchesDmr slot ev && dmrValid K cls ev.data then
    match dupCheck s.chans ev c (s.chan K c) with
    | some r => s.dropFrame c r ev.streamId
    | none => s.commit K c (dmrAccepted K s.keys cls slot ev c (s.work K c))
  else s

/-- An RXDMR command's next step, behind the checks of its operands (60_exceptions.md R266; log 8, log 9). -/
def rxDmr (K : Cfg) (cls : DmrClass) (slot : BitVec 8) (ev : RxEvent) (s : State) : State :=
  guarded { s with turn := 0 } noCh 0x31 [(dataFits ev, .badLen), (slotLegal slot, .badArg)]
    (overChans (rxDmrStep K cls slot ev) s)

/-! ## The meanings -/

/-- TXDMR. -/
def execTxdmr (ch : BitVec 16) (cw : Bytes) (s : State) : Host.Outcome State Fault Refusal := .next (txdmr params ch cw s)

/-- RXDMR.VOICE (R203). -/
def execRxdmrVoice (slot : BitVec 8) (ev : RxEvent) (s : State) : Host.Outcome State Fault Refusal :=
  .next (rxDmr params .voice slot ev s)

/-- RXDMR.VHDR (R204). -/
def execRxdmrVhdr (slot : BitVec 8) (ev : RxEvent) (s : State) : Host.Outcome State Fault Refusal :=
  .next (rxDmr params .vhdr slot ev s)

/-- RXDMR.PIHDR (R205). -/
def execRxdmrPihdr (slot : BitVec 8) (ev : RxEvent) (s : State) : Host.Outcome State Fault Refusal :=
  .next (rxDmr params .pihdr slot ev s)

/-- RXDMR.TERM (R206). -/
def execRxdmrTerm (slot : BitVec 8) (ev : RxEvent) (s : State) : Host.Outcome State Fault Refusal :=
  .next (rxDmr params .term slot ev s)

/-- RXDMR.OTHER (R207): every class number from 4 on acts alike. -/
def execRxdmrOther (slot : BitVec 8) (ev : RxEvent) (s : State) : Host.Outcome State Fault Refusal :=
  .next (rxDmr params .other slot ev s)

end Sys2Proof.Machine
end

