-- ==== Sys2Proof/Machine/Management.lean ====
section
/-! DEFINITION. The management operations RESET, CHINIT, CHFREE, CHCFG and KEYLOAD (40_config_and_ports.md R120 to
R124). -/

namespace Sys2Proof.Machine

/-- RESET (R120): every piece of the block's state takes its value after reset (10_state.md R50). The commands still
presented on CMD and the counts of draws and choices are not the block's, and stay (log 15). -/
def resetOp (s : State) : State :=
  { State.reset with port := s.port, turn := s.turn, draws := s.draws, picks := s.picks }

/-- CHINIT ch (R121). -/
def chinit (K : Cfg) (ch : BitVec 16) (s : State) : State :=
  guarded s ch 0x01 [(decide (ch.toNat < K.nch), .badCh)] (s.setChan K ch.toNat (Chan.init K))

/-- CHFREE ch (R122). -/
def chfree (K : Cfg) (ch : BitVec 16) (s : State) : State :=
  guarded s ch 0x03 [(chOk K s ch, .badCh)] (s.setChan K ch.toNat (Chan.reset K))

/-- CHCFG ch, sys, srcId, dstId, slot, algoId, keyId (R123). -/
def chcfg (K : Cfg) (ch sys : BitVec 16) (srcId dstId : BitVec 32) (slot algoId : BitVec 8) (keyId : BitVec 16)
    (s : State) : State :=
  guarded s ch 0x02
    [(slotLegal slot, .badArg), (chOk K s ch, .badCh), (!(s.chan K ch.toNat).inCall, .busy)]
    (s.setChan K ch.toNat { s.chan K ch.toNat with
      cfg := { set := true, sys := sys, srcId := srcId, dstId := dstId, slot := slot.setWidth 2,
               algoId := algoId, keyId := keyId } })

/-- KEYLOAD algId, keyId, klen, key (R124). A term whose key does not fit `klen` is no command (log 9). -/
def keyload (algId : BitVec 8) (keyId : BitVec 16) (key : Bytes) (s : State) : State :=
  guarded s noCh 0x04 [(decide (key.length < 256), .badLen), (decide (key ≠ []), .badArg)]
    { s with keys := mapPut s.keys (keyIx algId keyId) key }

/-! ## The meanings -/

/-- RESET. -/
def execReset (s : State) : Host.Outcome State Fault Refusal := .next (resetOp s)

/-- CHINIT. -/
def execChinit (ch : BitVec 16) (s : State) : Host.Outcome State Fault Refusal := .next (chinit params ch s)

/-- CHFREE. -/
def execChfree (ch : BitVec 16) (s : State) : Host.Outcome State Fault Refusal := .next (chfree params ch s)

/-- CHCFG. -/
def execChcfg (ch sys : BitVec 16) (srcId dstId : BitVec 32) (slot algoId : BitVec 8) (keyId : BitVec 16) (s : State) :
    Host.Outcome State Fault Refusal := .next (chcfg params ch sys srcId dstId slot algoId keyId s)

/-- KEYLOAD. -/
def execKeyload (algId : BitVec 8) (keyId : BitVec 16) (key : Bytes) (s : State) : Host.Outcome State Fault Refusal :=
  .next (keyload algId keyId key s)

end Sys2Proof.Machine
end

