-- ==== Sys2Proof/Machine/P25.lean ====
section
/-! DEFINITION. The P25 voice framer: TXP25 and the RXP25 operations (42_p25_framer.md R160 to R180). -/

namespace Sys2Proof.Machine

/-! ## Outbound (R162) -/

/-- The position n of the next codeword, 0..17. -/
def Work.p25Pos (w : Work) : Nat := w.ch.cs.p25FrameIndex.toNat

/-- The buffer of a half superframe is cleared at its first position (R162). -/
def p25Clear (w : Work) : Work :=
  if w.p25Pos = 0 then w.setCs { w.ch.cs with netLdu1 := zeros lduLen }
  else if w.p25Pos = lduCw then w.setCs { w.ch.cs with netLdu2 := zeros lduLen }
  else w

/-- An encrypted superframe begins: a first MI is drawn where the channel holds none (R165), and the engine is seeded
(R162). -/
def p25Seed (K : Cfg) (keys : List (Nat × Bytes)) (c : Nat) (w : Work) : Work :=
  let w := if w.ch.cs.mi = zeros miLen then (w.setCs { w.ch.cs with mi := K.miAt w.draws }).draw else w
  prep K keys c w.ch.cfg.algoId w.ch.cfg.keyId w.ch.cs.mi w

/-- The MI is cycled after the last codeword of LDU2 and the engine is seeded with it (R162, 41_crypto.md R147). -/
def p25Resync (K : Cfg) (keys : List (Nat × Bytes)) (c : Nat) (w : Work) : Work :=
  let w := w.setCs { w.ch.cs with mi := K.miCycle w.ch.cs.mi }
  prep K keys c w.ch.cfg.algoId w.ch.cfg.keyId w.ch.cs.mi w

/-- The codeword as it is sent, and the engine moved: nothing at all on a clear channel (R161, R162). -/
def p25Encrypt (K : Cfg) (keys : List (Nat × Bytes)) (c : Nat) (cw : Bytes) (w : Work) : Bytes × Work :=
  if txEnc K w.ch.cfg then
    let n := w.p25Pos
    let w := if n = 0 then p25Seed K keys c w else w
    let (out, w) := process K cw (roleAt n) w
    (out, if n = p25SfLen - 1 then p25Resync K keys c w else w)
  else (cw, w)

/-- The codeword goes to its place in the buffer of its half (R162, 46_common_laws.md R248). -/
def p25Place (cw : Bytes) (w : Work) : Work :=
  match roleAt w.p25Pos with
  | .ldu1 => w.setCs { w.ch.cs with netLdu1 := writeAt w.ch.cs.netLdu1 (cwPos (w.p25Pos % lduCw)) cw }
  | .ldu2 => w.setCs { w.ch.cs with netLdu2 := writeAt w.ch.cs.netLdu2 (cwPos (w.p25Pos % lduCw)) cw }

/-- The LDU1 message of a channel (R162, R163). -/
def ldu1Msg (K : Cfg) (x : Chan) : NetRec :=
  let crypto := cryptoSnapshot x.cfg x.cs.mi
  p25Msg K .p25Ldu1 (callData K x.cfg) crypto (x.cs.p25SeqNo == 8) (p25Pack K (p25Image K .ldu1 x.cs.netLdu1 crypto))

/-- The LDU2 message of a channel (R162, R164). -/
def ldu2Msg (K : Cfg) (x : Chan) : NetRec :=
  let crypto := cryptoSnapshot x.cfg x.cs.mi
  p25Msg K .p25Ldu2 (callData K x.cfg) crypto false (p25Pack K (p25Image K .ldu2 x.cs.netLdu2 crypto))

/-- A message is emitted when its half is complete, at positions 8 and 17 (R162). -/
def p25Send (K : Cfg) (c : Nat) (w : Work) : Work :=
  if w.p25Pos = lduCw - 1 then emit K c (ldu1Msg K w.ch) w
  else if w.p25Pos = p25SfLen - 1 then emit K c (ldu2Msg K w.ch) w
  else w

/-- The two counters advance (R162, 46_common_laws.md R245). -/
def p25Advance (w : Work) : Work :=
  w.setCs { w.ch.cs with
    p25SeqNo := w.ch.cs.p25SeqNo + 1
    p25FrameIndex := BitVec.ofNat 5 ((w.p25Pos + 1) % p25SfLen) }

/-- The work of TXP25, in the order of R162. -/
def txp25Work (K : Cfg) (keys : List (Nat × Bytes)) (c : Nat) (cw : Bytes) (w : Work) : Work :=
  let w := p25Clear w
  let (out, w) := p25Encrypt K keys c cw w
  p25Advance (p25Send K c (p25Place out w))

/-- TXP25 ch, cw (R162). -/
def txp25 (K : Cfg) (ch : BitVec 16) (cw : Bytes) (s : State) : State :=
  guarded s ch 0x21
    [(decide (cw.length = K.imbeLen), .badLen), (chOk K s ch, .badCh), (cfgOk K s ch, .noCfg),
     (callOpen K s ch, .noCall)]
    (s.commit K ch.toNat (txp25Work K s.keys ch.toNat cw (s.work K ch.toNat)))

/-! ## Inbound (R170) -/

/-- One codeword of a decode pass: decrypted if the gate says so, handed to the vocoder, its error count added to the
total so far (R172). -/
def decodeOne (K : Cfg) (c : Nat) (role : Role) (enc : Bool) (buf : Bytes) (acc : Nat × Work) (k : Nat) : Nat × Work :=
  let cw := codewordAt K buf k
  let (out, w) := if enc then process K cw role acc.2 else (cw, acc.2)
  (acc.1 + K.vocErrs w.draws c out, (w.emitVoc c .p25 out).draw)

/-- `min(total, 2^32 - 1)` (46_common_laws.md R245). -/
def saturate32 (total : Nat) : BitVec 32 := BitVec.ofNat 32 (min total (2 ^ 32 - 1))

/-- `DecodePass(c, buf, role)` (R172). -/
def decodePass (K : Cfg) (c : Nat) (buf : Bytes) (role : Role) (w : Work) : Work :=
  let enc := !isClear K w.ch.cs.algId w.ch.cs.keyId
  let (total, w) := (List.range lduCw).foldl (decodeOne K c role enc buf) (0, w)
  w.setCs { w.ch.cs with p25Errs := saturate32 total }

/-- A header-data-unit payload: algorithm, key id and the full MI are taken, and the engine is seeded (R173). -/
def takeHdu (K : Cfg) (keys : List (Nat × Bytes)) (c : Nat) (data : Bytes) (w : Work) : Work :=
  let w := w.setCs { w.ch.cs with algId := hduAlg K data, keyId := hduKid K data, mi := hduMi K data }
  prep K keys c w.ch.cs.algId w.ch.cs.keyId w.ch.cs.mi w

/-- `RxLdu1(c, ev)` (R173). -/
def rxLdu1 (K : Cfg) (keys : List (Nat × Bytes)) (c : Nat) (ev : RxEvent) (w : Work) : Work :=
  let w := w.setCs { w.ch.cs with netLdu1 := p25Unpack K (p25Payload K ev.data) }
  let w := if hasHdu K ev.data then takeHdu K keys c ev.data w else w
  decodePass K c w.ch.cs.netLdu1 .ldu1 w

/-- The MI choice at an LDU2: the locally cycled one when the last decode pass had errors (R176). -/
def chooseMi (K : Cfg) (cs : ChannelState) (newMi : Bytes) : Bytes :=
  if cs.p25Errs != 0 then K.miCycle cs.mi else newMi

/-- `RxLdu2(c, ev)` (R175): the choice of the MI before the pass, the re-seed after it (R176, R177). -/
def rxLdu2 (K : Cfg) (keys : List (Nat × Bytes)) (c : Nat) (ev : RxEvent) (w : Work) : Work :=
  let image := p25Unpack K (p25Payload K ev.data)
  let w := w.setCs { w.ch.cs with
    netLdu2 := image, algId := essAlg K image, keyId := essKid K image, mi := chooseMi K w.ch.cs (essMi K image) }
  let w := decodePass K c w.ch.cs.netLdu2 .ldu2 w
  prep K keys c w.ch.cs.algId w.ch.cs.keyId w.ch.cs.mi w

/-- Part 5 of the P25 step: only a receiving channel, only LDU1 and LDU2 (R170). -/
def p25PayloadPart (K : Cfg) (keys : List (Nat × Bytes)) (c : Nat) (cls : P25Class) (ev : RxEvent) (w : Work) : Work :=
  if w.ch.cs.isReceiving then
    match cls with
    | .ldu1 => rxLdu1 K keys c ev w
    | .ldu2 => rxLdu2 K keys c ev w
    | .term => w
    | .other => w
  else w

/-- Parts 4 to 6 of the P25 step, for a frame that the filter has let through (R170). -/
def p25Accepted (K : Cfg) (keys : List (Nat × Bytes)) (cls : P25Class) (ev : RxEvent) (c : Nat) (w : Work) : Work :=
  observe ev .p25 (.p25 cls) (p25PayloadPart K keys c cls ev (track K keys c ev .p25 (.p25 cls) w))

/-- `RxP25Step(ev, c)` (R170). -/
def rxP25Step (K : Cfg) (cls : P25Class) (ev : RxEvent) (c : Nat) (s : State) : State :=
  if (s.chan K c).matchesP25 ev && p25Accepts K cls ev.data then
    match dupCheck s.chans ev c (s.chan K c) with
    | some r => s.dropFrame c r ev.streamId
    | none => s.commit K c (p25Accepted K s.keys cls ev c (s.work K c))
  else s

/-- An RXP25 command's next step; a term whose data does not fit `dlen` is no command (log 9). -/
def rxP25 (K : Cfg) (cls : P25Class) (ev : RxEvent) (s : State) : State :=
  guarded { s with turn := 0 } noCh 0x30 [(dataFits ev, .badLen)] (overChans (rxP25Step K cls ev) s)

/-! ## The meanings -/

/-- TXP25. -/
def execTxp25 (ch : BitVec 16) (cw : Bytes) (s : State) : Host.Outcome State Fault Refusal := .next (txp25 params ch cw s)

/-- RXP25.LDU1 (R173). -/
def execRxp25Ldu1 (ev : RxEvent) (s : State) : Host.Outcome State Fault Refusal := .next (rxP25 params .ldu1 ev s)

/-- RXP25.LDU2 (R175). -/
def execRxp25Ldu2 (ev : RxEvent) (s : State) : Host.Outcome State Fault Refusal := .next (rxP25 params .ldu2 ev s)

/-- RXP25.TERM (R178). -/
def execRxp25Term (ev : RxEvent) (s : State) : Host.Outcome State Fault Refusal := .next (rxP25 params .term ev s)

/-- RXP25.OTHER (R179): every class number from 3 on acts alike. -/
def execRxp25Other (ev : RxEvent) (s : State) : Host.Outcome State Fault Refusal := .next (rxP25 params .other ev s)

end Sys2Proof.Machine
end

