-- ==== Sys2Proof/Machine/Sequencer.lean ====
section
/-! DEFINITION. The call control of the stream sequencer: TXSTART, TXENDP, TXENDD (44_sequencer.md R217 to R219). -/

namespace Sys2Proof.Machine

/-- The work of TXSTART (R217). -/
def txstartWork (K : Cfg) (w : Work) : Work :=
  (w.setCs { w.ch.cs with txStreamId := K.streamIdAt w.draws, pktSeq := 0 }).draw

/-- TXSTART ch (R217). -/
def txstart (K : Cfg) (ch : BitVec 16) (s : State) : State :=
  guarded s ch 0x20 [(chOk K s ch, .badCh), (cfgOk K s ch, .noCfg), (!callOpen K s ch, .busy)]
    (s.commit K ch.toNat (txstartWork K (s.work K ch.toNat)))

/-- The work of TXENDP (R218). -/
def txendpWork (K : Cfg) (c : Nat) (w : Work) : Work :=
  txReset (emit K c
    (p25Msg K .p25Tdu (callData K w.ch.cfg) (cryptoSnapshot w.ch.cfg w.ch.cs.mi) false []) w)

/-- TXENDP ch, cause (R218): the two causes have the same effect. -/
def txendp (K : Cfg) (ch : BitVec 16) (cause : BitVec 8) (s : State) : State :=
  guarded s ch 0x23
    [(decide (cause.toNat ≤ 1), .badArg), (chOk K s ch, .badCh), (cfgOk K s ch, .noCfg), (callOpen K s ch, .noCall)]
    (s.commit K ch.toNat (txendpWork K ch.toNat (s.work K ch.toNat)))

/-- The work of TXENDD (R219). -/
def txenddWork (K : Cfg) (c : Nat) (w : Work) : Work :=
  txReset (emit K c
    (dmrMsg K .dmrTerm (callData K w.ch.cfg) w.ch.cfg.slot w.ch.cs.dmrSeqNo none false
      (K.dmrLcBurst .term (callLc K w.ch.cfg))) w)

/-- TXENDD ch, cause (R219). -/
def txendd (K : Cfg) (ch : BitVec 16) (cause : BitVec 8) (s : State) : State :=
  guarded s ch 0x24
    [(decide (cause.toNat ≤ 1), .badArg), (chOk K s ch, .badCh), (cfgOk K s ch, .noCfg), (callOpen K s ch, .noCall)]
    (s.commit K ch.toNat (txenddWork K ch.toNat (s.work K ch.toNat)))

/-! ## The meanings -/

/-- TXSTART. -/
def execTxstart (ch : BitVec 16) (s : State) : Host.Outcome State Fault Refusal := .next (txstart params ch s)

/-- TXENDP. -/
def execTxendp (ch : BitVec 16) (cause : BitVec 8) (s : State) : Host.Outcome State Fault Refusal :=
  .next (txendp params ch cause s)

/-- TXENDD. -/
def execTxendd (ch : BitVec 16) (cause : BitVec 8) (s : State) : Host.Outcome State Fault Refusal :=
  .next (txendd params ch cause s)

end Sys2Proof.Machine
end

