-- ==== Sys2Proof/Machine/Tracker.lean ====
section
/-! DEFINITION. The timeout supervisor: TICK (45_call_tracker.md R240). -/

namespace Sys2Proof.Machine

/-- `TickStep(now, c)` (R240). -/
def tickStep (K : Cfg) (now : BitVec 64) (c : Nat) (s : State) : State :=
  let x := s.chan K c
  if x.monitored && x.cs.isReceiving && timedOut now x.cs.lastPacketTime then
    s.commit K c (callEnd c now .timedOut (s.work K c))
  else s

/-- TICK (R240): its next channel step. -/
def execTick (now : BitVec 64) (s : State) : Host.Outcome State Fault Refusal :=
  .next (overChans (tickStep params now) s)

end Sys2Proof.Machine
end

