-- ==== Sys2Proof/Machine/Dispatch.lean ====
section
/-! DEFINITION. The dispatch on the operation (30_encoding.md R91, 46_common_laws.md R246): one arm per constructor. -/

namespace Sys2Proof.Machine

def exec (i : Instr) (s : State) : Host.Outcome State Fault Refusal :=
  match i with
  | .reset => Sys2Proof.Machine.execReset s
  | .chinit ch => Sys2Proof.Machine.execChinit ch s
  | .chcfg ch sys srcId dstId slot algoId keyId => Sys2Proof.Machine.execChcfg ch sys srcId dstId slot algoId keyId s
  | .chfree ch => Sys2Proof.Machine.execChfree ch s
  | .keyload algId keyId key => Sys2Proof.Machine.execKeyload algId keyId key s
  | .cprep ch algId keyId mi => Sys2Proof.Machine.execCprep ch algId keyId mi s
  | .cproc ch role cw => Sys2Proof.Machine.execCproc ch role cw s
  | .ccycle ch => Sys2Proof.Machine.execCcycle ch s
  | .txstart ch => Sys2Proof.Machine.execTxstart ch s
  | .txp25 ch cw => Sys2Proof.Machine.execTxp25 ch cw s
  | .txdmr ch cw => Sys2Proof.Machine.execTxdmr ch cw s
  | .txendp ch cause => Sys2Proof.Machine.execTxendp ch cause s
  | .txendd ch cause => Sys2Proof.Machine.execTxendd ch cause s
  | .rxp25Ldu1 ev => Sys2Proof.Machine.execRxp25Ldu1 ev s
  | .rxp25Ldu2 ev => Sys2Proof.Machine.execRxp25Ldu2 ev s
  | .rxp25Term ev => Sys2Proof.Machine.execRxp25Term ev s
  | .rxp25Other _ ev => Sys2Proof.Machine.execRxp25Other ev s
  | .rxdmrVoice slot ev => Sys2Proof.Machine.execRxdmrVoice slot ev s
  | .rxdmrVhdr slot ev => Sys2Proof.Machine.execRxdmrVhdr slot ev s
  | .rxdmrPihdr slot ev => Sys2Proof.Machine.execRxdmrPihdr slot ev s
  | .rxdmrTerm slot ev => Sys2Proof.Machine.execRxdmrTerm slot ev s
  | .rxdmrOther _ slot ev => Sys2Proof.Machine.execRxdmrOther slot ev s
  | .tick now => Sys2Proof.Machine.execTick now s

end Sys2Proof.Machine
end

