-- ==== Sys2Proof/Machine/Port.lean ====
section
/-! DEFINITION. The command port: which of the presented commands may take its next step, and which one does
(20_memory.md R70 to R74). A step may come next if no command presented earlier has a step left that the rules put
before it; among those that may, a free value chooses (log 2). -/

namespace Sys2Proof.Machine

/-- What a command's steps belong to. -/
inductive Scope where
  /-- No channel: KEYLOAD, whose step is on the key store (R73), and a command refused at decode without a channel. -/
  | nothing
  /-- Every channel at once: RESET. -/
  | block
  /-- One channel. -/
  | chan (c : Nat)
  /-- Every channel in turn, on the inbound path: RXP25, RXDMR. -/
  | inbound
  /-- Every channel in turn: TICK. -/
  | tick
deriving DecidableEq, Repr

/-- The scope of an instruction (30_encoding.md R91). -/
def scopeOf : Instr → Scope
  | .reset => .block
  | .chinit ch => .chan ch.toNat
  | .chcfg ch _ _ _ _ _ _ => .chan ch.toNat
  | .chfree ch => .chan ch.toNat
  | .keyload _ _ _ => .nothing
  | .cprep ch _ _ _ => .chan ch.toNat
  | .cproc ch _ _ => .chan ch.toNat
  | .ccycle ch => .chan ch.toNat
  | .txstart ch => .chan ch.toNat
  | .txp25 ch _ => .chan ch.toNat
  | .txdmr ch _ => .chan ch.toNat
  | .txendp ch _ => .chan ch.toNat
  | .txendd ch _ => .chan ch.toNat
  | .rxp25Ldu1 _ => .inbound
  | .rxp25Ldu2 _ => .inbound
  | .rxp25Term _ => .inbound
  | .rxp25Other _ _ => .inbound
  | .rxdmrVoice _ _ => .inbound
  | .rxdmrVhdr _ _ => .inbound
  | .rxdmrPihdr _ _ => .inbound
  | .rxdmrTerm _ _ => .inbound
  | .rxdmrOther _ _ _ => .inbound
  | .tick _ => .tick

/-- The command has a step for every channel. -/
def Scope.perChannel : Scope → Bool
  | .inbound => true
  | .tick => true
  | _ => false

/-- The instruction has a step for every channel: RXP25, RXDMR, TICK (R70). -/
def perChannel (i : Instr) : Bool := (scopeOf i).perChannel

/-- The scope of a presented command. A command refused at decode has none, unless it names a channel: one whose other
operands are illegal is refused as a step of that channel (60_exceptions.md R266; log 8). -/
def entryScope (K : Cfg) (e : PortEntry) : Scope :=
  match decode K e.bytes with
  | .error _ => .nothing
  | .ok i => if perChannel i && !i.legal then .nothing else scopeOf i

/-- A command still has a step on channel c, or this is one. -/
def hasStepOn (K : Cfg) (e : PortEntry) (sc : Scope) (c : Nat) : Bool :=
  match sc with
  | .nothing => false
  | .block => decide (c < K.nch)
  | .chan d => d == c && decide (c < K.nch)
  | .inbound => decide (e.next ≤ c) && decide (c < K.nch)
  | .tick => decide (e.next ≤ c) && decide (c < K.nch)

/-- A command still has a step on some channel. -/
def hasStep (K : Cfg) (e : PortEntry) (sc : Scope) : Bool :=
  match sc with
  | .nothing => false
  | .block => true
  | .chan d => decide (d < K.nch)
  | .inbound => decide (e.next < K.nch)
  | .tick => decide (e.next < K.nch)

/-- `a`, presented earlier, has a step that comes before the next step of `b` (R71, R74): a step on the same channel, or
any step of an inbound event before a step of the next event. RESET is a step of every channel (log 2). -/
def goesBefore (K : Cfg) (a b : PortEntry) : Bool :=
  match entryScope K b with
  | .nothing => false
  | .block => hasStep K a (entryScope K a)
  | .chan c => hasStepOn K a (entryScope K a) c
  | .inbound => entryScope K a == .inbound || hasStepOn K a (entryScope K a) b.next
  | .tick => hasStepOn K a (entryScope K a) b.next

/-- The positions of the commands that may take their next step, given those presented before them. -/
def eligibleFrom (K : Cfg) : List PortEntry → Nat → List PortEntry → List Nat
  | _, _, [] => []
  | before, k, e :: es =>
    let rest := eligibleFrom K (before ++ [e]) (k + 1) es
    if before.all (fun a => !goesBefore K a e) then k :: rest else rest

/-- The positions of the commands that may take their next step; the oldest always may. -/
def eligible (K : Cfg) (s : State) : List Nat := eligibleFrom K [] 0 s.port

/-- The position of the command that takes its next step: a free choice among those that may. -/
def pick (K : Cfg) (s : State) : Option Nat :=
  match eligible K s with
  | [] => none
  | [k] => some k
  | k :: j :: ks => some ((k :: j :: ks).getD (K.sched s.picks % (ks.length + 2)) k)

/-- The command taken, with the state in which it is carried out: it has left the port, and `turn` names the channel its
step is on. -/
def fetch (K : Cfg) (s : State) : Option (Nat × PortEntry × State) :=
  match pick K s with
  | none => none
  | some k =>
    match s.port[k]? with
    | none => none
    | some e => some (k, e, { s with port := s.port.eraseIdx k, turn := e.next, picks := s.picks + 1 })

/-- After a step of a command that has a step on a further channel, the command stands on the port again, at its place.
A refused one has none: it leaves `turn` at 0. -/
def settle (K : Cfg) (k : Nat) (e : PortEntry) (i : Instr) (t : State) : State :=
  { t with
    port :=
      if perChannel i && (t.turn != 0 && decide (t.turn < K.nch)) then t.port.insertIdx k { e with next := t.turn }
      else t.port
    turn := 0 }

/-- A command that the decoder refuses: one REFUSED record, its `ch` not decoded (60_exceptions.md R262). -/
def refuseUndecoded (r : RefuseCode) (e : PortEntry) (s : State) : State :=
  { s.refuse r noCh (byteAt e.bytes 0) with turn := 0 }

/-- One step under a configuration, with a meaning for the instructions: a presented command is taken; if the decoder
refuses it, the refusal is recorded; otherwise its meaning gives its effect, and a command with steps left on further
channels stands on the port again. With nothing presented the block waits (70_reset_and_hazards.md R281, R298). -/
def stepWith (K : Cfg) (meaning : Instr → State → Host.Outcome State Fault Refusal) (s : State) :
    Host.Outcome State Fault Refusal :=
  match fetch K s with
  | none => .next s
  | some (k, e, s1) =>
    match decode K e.bytes with
    | .error r => .next (refuseUndecoded r e s1)
    | .ok i =>
      match meaning i s1 with
      | .next t => .next (settle K k e i t)
      | .fault f => .fault f
      | .refused r => .refused r

end Sys2Proof.Machine
end

