-- ==== Sys2Proof/Machine/Step.lean ====
section
/-! DEFINITION. One step of the machine (20_memory.md R70): a whole command, or one channel's part of an RXP25, RXDMR
or TICK command. With nothing presented the block waits (70_reset_and_hazards.md R281, R298). -/

namespace Sys2Proof.Machine

/-- One step of this machine: `stepWith` under `params`, with `exec` for the instructions. -/
def step (s : State) : Host.Outcome State Fault Refusal := stepWith params exec s

/-- The state with the command of a table word as the one command presented on CMD, so that the next step takes it
(log 1, log 13). -/
def State.withFetchWord (s : State) (nbits w : Nat) : State :=
  { s with port := [{ bytes := tableCommand params nbits w, next := 0 }] }

end Sys2Proof.Machine
end

