-- ==== Sys2Proof/Machine/Text.lean ====
section
/-! DEFINITION. What surrounds the commands: the textual syntax written out (30_encoding.md R112), the pseudo-operations
(R113), and the classification done by whoever builds an inbound command (R90). No step of the machine reads any of
it. -/

namespace Sys2Proof.Machine

/-! ## Textual syntax (R112) -/

/-- A byte as two hexadecimal digits. -/
def hexByte (x : Byte) : List Char := [Nat.digitChar (x.toNat / 16), Nat.digitChar (x.toNat % 16)].map Char.toUpper

/-- A byte string as hexadecimal digits with no prefix. -/
def hexText (b : Bytes) : String := String.ofList (b.flatMap hexByte)

/-- `name=value` with a decimal value. -/
def numText (name : String) (v : Nat) : String := " " ++ name ++ "=" ++ toString v

/-- `name=value` with a byte string. -/
def strText (name : String) (b : Bytes) : String := " " ++ name ++ "=" ++ hexText b

/-- The operands of an inbound event before `kind`. -/
def eventText (ev : RxEvent) : String :=
  numText "sys" ev.sys.toNat ++ numText "now" ev.now.toNat ++ numText "peerId" ev.peerId.toNat ++
    numText "srcId" ev.srcId.toNat ++ numText "dstId" ev.dstId.toNat ++ numText "streamId" ev.streamId.toNat

/-- An RXP25 line; `kind` is a class name or a number. -/
def rxp25Text (kind : String) (ev : RxEvent) : String :=
  "RXP25" ++ eventText ev ++ " kind=" ++ kind ++ strText "data" ev.data

/-- An RXDMR line; `kind` is a class name or a number. -/
def rxdmrText (kind : String) (slot : BitVec 8) (ev : RxEvent) : String :=
  "RXDMR" ++ eventText ev ++ " kind=" ++ kind ++ numText "slot" slot.toNat ++ strText "data" ev.data

/-- One operation as one line: the mnemonic without the class suffix, then the operands in format order (R112). -/
def instrText : Instr → String
  | .reset => "RESET"
  | .chinit ch => "CHINIT" ++ numText "ch" ch.toNat
  | .chcfg ch sys srcId dstId slot algoId keyId =>
    "CHCFG" ++ numText "ch" ch.toNat ++ numText "sys" sys.toNat ++ numText "srcId" srcId.toNat ++
      numText "dstId" dstId.toNat ++ numText "slot" slot.toNat ++ numText "algoId" algoId.toNat ++
      numText "keyId" keyId.toNat
  | .chfree ch => "CHFREE" ++ numText "ch" ch.toNat
  | .keyload algId keyId key =>
    "KEYLOAD" ++ numText "algId" algId.toNat ++ numText "keyId" keyId.toNat ++ numText "klen" key.length ++
      strText "key" key
  | .cprep ch algId keyId mi =>
    "CPREP" ++ numText "ch" ch.toNat ++ numText "algId" algId.toNat ++ numText "keyId" keyId.toNat ++ strText "mi" mi
  | .cproc ch role cw => "CPROC" ++ numText "ch" ch.toNat ++ numText "role" role.toNat ++ strText "cw" cw
  | .ccycle ch => "CCYCLE" ++ numText "ch" ch.toNat
  | .txstart ch => "TXSTART" ++ numText "ch" ch.toNat
  | .txp25 ch cw => "TXP25" ++ numText "ch" ch.toNat ++ strText "cw" cw
  | .txdmr ch cw => "TXDMR" ++ numText "ch" ch.toNat ++ strText "cw" cw
  | .txendp ch cause => "TXENDP" ++ numText "ch" ch.toNat ++ numText "cause" cause.toNat
  | .txendd ch cause => "TXENDD" ++ numText "ch" ch.toNat ++ numText "cause" cause.toNat
  | .rxp25Ldu1 ev => rxp25Text "LDU1" ev
  | .rxp25Ldu2 ev => rxp25Text "LDU2" ev
  | .rxp25Term ev => rxp25Text "TERM" ev
  | .rxp25Other kind ev => rxp25Text (toString kind.toNat) ev
  | .rxdmrVoice slot ev => rxdmrText "VOICE" slot ev
  | .rxdmrVhdr slot ev => rxdmrText "VHDR" slot ev
  | .rxdmrPihdr slot ev => rxdmrText "PIHDR" slot ev
  | .rxdmrTerm slot ev => rxdmrText "TERM" slot ev
  | .rxdmrOther kind slot ev => rxdmrText (toString kind.toNat) slot ev
  | .tick now => "TICK" ++ numText "now" now.toNat

/-! ## Pseudo-operations (R113) -/

/-- TXLDU ch, cw: nine TXP25 commands carrying the nine consecutive pieces in order. -/
def txldu (K : Cfg) (ch : BitVec 16) (cw : Bytes) : List Instr :=
  (List.range lduCw).map fun k => .txp25 ch (readAt cw (K.imbeLen * k) K.imbeLen)

/-- TXBURST ch, cw: three TXDMR commands carrying the three consecutive pieces in order. -/
def txburst (K : Cfg) (ch : BitVec 16) (cw : Bytes) : List Instr :=
  (List.range ambePerFrame).map fun j => .txdmr ch (readAt cw (K.ambeLen * j) K.ambeLen)

/-- TXEND ch: TXENDP or TXENDD with cause 0, by the operation that carried the call's last codeword. -/
def txend (ch : BitVec 16) (lastWasP25 : Bool) : List Instr :=
  if lastWasP25 then [.txendp ch 0] else [.txendd ch 0]

/-! ## Classification of raw frame types (R90) -/

/-- The `kind` byte of a class of P25 frame; OTHER has no byte of its own and is given its first, 3. -/
def p25KindByte : P25Class → Byte
  | .ldu1 => 0
  | .ldu2 => 1
  | .term => 2
  | .other => 3

/-- The `kind` byte of a class of DMR frame; OTHER is given its first byte, 4. -/
def dmrKindByte : DmrClass → Byte
  | .voice => 0
  | .vhdr => 1
  | .pihdr => 2
  | .term => 3
  | .other => 4

/-- The command that whoever delivers a P25 message with a raw DUID builds (R90). -/
def deliverP25 (K : Cfg) (duid : Byte) (ev : RxEvent) : Instr := rxp25Of (p25KindByte (K.duidClass duid)) ev

/-- The command that whoever delivers a DMR message with a raw data type builds (R90). -/
def deliverDmr (K : Cfg) (dataType slot : Byte) (ev : RxEvent) : Instr :=
  rxdmrOf (dmrKindByte (K.dmrTypeClass dataType)) slot ev

end Sys2Proof.Machine
end

