-- ==== Sys2Proof/Safety.lean ====
section
/-! DEFINITION. What holds between steps (10_state.md R22, R23, R25, R26, R28; 20_memory.md R63): the ranges of the
position counters, the sizes of the buffers, what an idle channel holds, and the canonical form of the channel array and
the key store. -/

namespace Sys2Proof.Machine

/-- The keys of a map are strictly rising. -/
def rising {α : Type} : List (Nat × α) → Bool
  | [] => true
  | (_, _) :: [] => true
  | (a, _) :: (b, y) :: m => decide (a < b) && rising ((b, y) :: m)

/-- R23 (a), (d), (e): the position counters are in their ranges. -/
def ChannelState.inRange (K : Cfg) (x : ChannelState) : Bool :=
  decide (x.p25FrameIndex.toNat < 18) && (decide (x.dmrFrameIndex.toNat < 6) &&
    (decide (x.ambeCount.toNat < 3) && decide (x.pktSeq.toNat < K.seqMod)))

/-- R22: the buffers and the MI have their sizes. -/
def ChannelState.sized (x : ChannelState) : Bool :=
  decide (x.netLdu1.length = 225) && (decide (x.netLdu2.length = 225) &&
    (decide (x.ambeBuffer.length = 27) && decide (x.mi.length = 9)))

/-- R23 (f): a channel without a transmit call holds the call counters at 0. -/
def ChannelState.txIdleOk (x : ChannelState) : Bool :=
  x.txStreamId != 0 ||
    (x.pktSeq == 0 && (x.p25SeqNo == 0 && (x.dmrSeqNo == 0 && (x.dmrFrameIndex == 0 &&
      (x.p25FrameIndex == 0 && x.ambeCount == 0)))))

/-- R23 (g): a channel that is not receiving holds no receive stream and no peer. -/
def ChannelState.rxIdleOk (x : ChannelState) : Bool := x.isReceiving || (x.rxStreamId == 0 && x.peerId == 0)

/-- R26, R142, R144: the MI has its size, the position its range; a clear engine has an empty keystream, and a seeded
one has every window of `KsOffset`. -/
def Engine.ok (K : Cfg) (e : Engine) : Bool :=
  decide (e.mi.length = 9) && (decide (e.ksPos.toNat < 9) &&
    (if isClear K e.algoId e.keyId then e.ks == .bytes []
     else supported K e.algoId &&
      (match e.ks with | .undef => true | .bytes b => decide (K.ksNeed e.algoId ≤ b.length))))

/-- R25: the timeslot of a configured channel is 1 or 2. -/
def ChanCfg.ok (x : ChanCfg) : Bool := !x.set || (x.slot == 1 || x.slot == 2)

/-- What holds of every valid channel slot. -/
def Chan.ok (K : Cfg) (x : Chan) : Bool :=
  x.valid && (x.cfg.ok && (x.eng.ok K && (x.cs.inRange K && (x.cs.sized && (x.cs.txIdleOk && x.cs.rxIdleOk)))))

/-- The channel array is in its canonical form: rising indices below NCH, every listed slot valid and well (so none
equal to a slot after reset, which is not valid). -/
def chansOk (K : Cfg) (m : List (Nat × Chan)) : Bool :=
  rising m && m.all fun p => decide (p.1 < K.nch) && p.2.ok K

/-- The key store is in its canonical form: rising pairs, keys of 1 to 255 bytes (R28). -/
def keysOk (m : List (Nat × Bytes)) : Bool :=
  rising m && m.all fun p => decide (0 < p.2.length) && decide (p.2.length < 256)

/-- A command on the port has its next step on a channel of the block (20_memory.md R70). -/
def portOk (K : Cfg) (m : List PortEntry) : Bool := m.all fun e => decide (e.next < K.nch)

/-- The invariant of the block between steps. -/
def State.ok (K : Cfg) (s : State) : Bool :=
  chansOk K s.chans && (keysOk s.keys && (portOk K s.port && decide (s.turn = 0)))

/-- The invariant of this machine. -/
def BlockInv (s : State) : Prop := s.ok params = true

end Sys2Proof.Machine
end

