-- ==== Sys2Proof/Certificates/Slice0/Obligations.lean ====
section
/-! DEFINITION. The statements for the provers. The vocabulary of Sys2Proof.Claims restates the procedures of the spec
as values (what a seed leaves, what a codeword becomes, what a frame starts), apart from the model's own definitions of
them, and each statement about an operation gives the whole next state, so that it says its frame as well: whatever the
equation does not name is as before. -/

namespace Sys2Proof.Claims

open Sys2Proof Sys2Proof.Machine

/-! ## Runs -/

/-- The commands of a list carried out in order, each as one `exec`. -/
def runAll : List Instr → State → Host.Outcome State Fault Refusal
  | [], s => .next s
  | i :: is, s =>
    match exec i s with
    | .next t => runAll is t
    | .fault f => .fault f
    | .refused r => .refused r

/-- An RXP25, RXDMR or TICK command as a whole: its steps on channels 0 to NCH - 1 in ascending index, nothing between
them. -/
def deliver (i : Instr) (s : State) : Host.Outcome State Fault Refusal :=
  match runAll (List.replicate params.nch i) { s with turn := 0 } with
  | .next t => .next { t with turn := 0 }
  | .fault f => .fault f
  | .refused r => .refused r

/-- Such commands one after another. -/
def deliverAll : List Instr → State → Host.Outcome State Fault Refusal
  | [], s => .next s
  | i :: is, s =>
    match deliver i s with
    | .next t => deliverAll is t
    | .fault f => .fault f
    | .refused r => .refused r

/-! ## Conditions on the channel operand (40_config_and_ports.md R125) -/

/-- `CheckCh` passes: the index is below NCH and the slot is valid. -/
def ChannelOk (s : State) (ch : BitVec 16) : Prop := ch.toNat < params.nch ∧ (s.chan params ch.toNat).valid = true

/-- `CheckCfg` passes: besides, the slot is configured. -/
def Configured (s : State) (ch : BitVec 16) : Prop := ChannelOk s ch ∧ (s.chan params ch.toNat).cfg.set = true

/-- Besides, an outbound call is open on it. -/
def InCall (s : State) (ch : BitVec 16) : Prop := Configured s ch ∧ (s.chan params ch.toNat).cs.txStreamId ≠ 0

/-! ## What a step leaves -/

/-- The state after a refusal: one REFUSED record, nothing else (60_exceptions.md R262). -/
def refusedAs (s : State) (r : RefuseCode) (ch : BitVec 16) (op : BitVec 8) : State :=
  { s with evt := s.evt ++ [{ ch := ch, info := .refused r op }] }

/-- The state in which channel c's slot is x and everything else as in s. -/
def withSlot (s : State) (c : Nat) (x : Chan) : State := { s with chans := mapPut s.chans c x }

/-- The state after a step on channel c that leaves its slot as `w.ch`, the count of draws as `w.draws`, and puts out
the records of w; everything else as in s. -/
def stepEnds (s : State) (c : Nat) (w : Work) : State :=
  { withSlot s c w.ch with
    draws := w.draws
    netout := s.netout ++ w.net
    vocout := s.vocout ++ w.voc
    evt := s.evt ++ w.evt
    rsp := s.rsp ++ w.rsp }

/-- `t` as the result of the step that an RXP25, RXDMR or TICK command takes at s: its next step is on the next
channel. -/
def nextTurn (s t : State) : State := { t with turn := s.turn + 1 }

/-! ## The crypto engine (41_crypto.md R141, R142, R145) -/

/-- What a prepare leaves: its answer as CPREP reports it, the engine, the flag, the records. -/
structure Seed where
  status : BitVec 8
  eng    : Engine
  noKey  : Bool
  evt    : List EvtRec

/-- No prepare took place. -/
def unseeded (e : Engine) (noKey : Bool) : Seed := { status := 0, eng := e, noKey := noKey, evt := [] }

/-- `IsClear` (R141). -/
def clear (algId : BitVec 8) (keyId : BitVec 16) : Bool := algId == params.algUnencrypted || keyId == 0

/-- R142: a prepare on channel c with the key store of s, an engine e and a flag as before. -/
def seedOf (s : State) (c : Nat) (algId : BitVec 8) (keyId : BitVec 16) (mi : Bytes) (e : Engine) (noKey : Bool) :
    Seed :=
  if clear algId keyId then
    { status := 1, eng := { algoId := algId, keyId := keyId, mi := mi, ks := .bytes [], ksPos := 0 },
      noKey := false, evt := [] }
  else if algId ∈ params.supportedAlgs then
    match mapGet s.keys (65536 * algId.toNat + keyId.toNat) with
    | none =>
      { status := 2, eng := { algoId := algId, keyId := keyId, mi := mi, ks := .undef, ksPos := 0 },
        noKey := true, evt := [{ ch := BitVec.ofNat 16 c, info := .noKey algId keyId }] }
    | some key =>
      { status := 0,
        eng := { algoId := algId, keyId := keyId, mi := mi, ks := .bytes (params.keystream algId key mi), ksPos := 0 },
        noKey := false, evt := [] }
  else { status := 3, eng := e, noKey := noKey, evt := [{ ch := BitVec.ofNat 16 c, info := .prepFail algId }] }

/-- What `Process` gives: the codeword, the engine, the count of draws. -/
structure Applied where
  out   : Bytes
  eng   : Engine
  draws : Nat

/-- R145, R146: a codeword put through an engine at a given count of draws. -/
def applied (e : Engine) (role : Role) (draws : Nat) (cw : Bytes) : Applied :=
  if clear e.algoId e.keyId then { out := cw, eng := e, draws := draws }
  else
    match e.ks with
    | .undef =>
      { out := xorBytes cw (params.bytesAt draws params.imbeLen),
        eng := { e with ksPos := BitVec.ofNat 4 ((e.ksPos.toNat + 1) % 9) }, draws := draws + 1 }
    | .bytes ks =>
      { out := xorBytes cw (readAt ks (params.ksOffset e.algoId role e.ksPos.toNat) params.imbeLen),
        eng := { e with ksPos := BitVec.ofNat 4 ((e.ksPos.toNat + 1) % 9) }, draws := draws }

/-! ## Outbound messages (30_encoding.md R106, 44_sequencer.md R216) -/

/-- `(pktSeq + 1) mod SEQ_MOD`. -/
def seqAfter (v : BitVec 16) : BitVec 16 := BitVec.ofNat 16 ((v.toNat + 1) % params.seqMod)

/-- RemoteCallData of a channel's outbound messages. -/
def callOf (x : Chan) : CallData := { srcId := x.cfg.srcId, dstId := x.cfg.dstId, lco := params.lcoGroup }

/-- The Link Control of a channel's outbound call. -/
def lcOf (x : Chan) : LC := { flco := params.lcoGroup, srcId := x.cfg.srcId, dstId := x.cfg.dstId }

/-- A P25 message of channel c with slot x, stamped with its `pktSeq` and `txStreamId`. -/
def p25Record (c : Nat) (x : Chan) (kind : NetKind) (mi : Bytes) (hduValid : Bool) (body : Bytes) : NetRec where
  ch := BitVec.ofNat 16 c
  functionId := params.funcP25
  kind := kind
  sequence := x.cs.pktSeq
  streamId := x.cs.txStreamId
  call := callOf x
  crypto := some { algoId := x.cfg.algoId, keyId := x.cfg.keyId, mi := mi }
  hduValid := hduValid
  slot := none
  dmrSeq := none
  dmrN := none
  syncFrame := false
  body := body

/-- A DMR message of channel c with slot x, stamped with the given sequence value. -/
def dmrRecord (c : Nat) (x : Chan) (kind : NetKind) (sequence : BitVec 16) (dmrSeq : BitVec 32)
    (dmrN : Option (BitVec 3)) (syncFrame : Bool) (body : Bytes) : NetRec where
  ch := BitVec.ofNat 16 c
  functionId := params.funcDmr
  kind := kind
  sequence := sequence
  streamId := x.cs.txStreamId
  call := callOf x
  crypto := none
  hduValid := false
  slot := some x.cfg.slot
  dmrSeq := some dmrSeq
  dmrN := dmrN
  syncFrame := syncFrame
  body := body

/-- A channel after `TxReset` (44_sequencer.md R220). -/
def txIdle (cs : ChannelState) : ChannelState :=
  { cs with
    txStreamId := 0
    pktSeq := 0
    p25SeqNo := 0
    p25FrameIndex := 0
    dmrSeqNo := 0
    dmrFrameIndex := 0
    ambeCount := 0
    ambeBuffer := zeros 27 }

/-! ## TXP25 (42_p25_framer.md R162) -/

/-- R162: what one codeword leaves on channel c. -/
def txp25Ends (s : State) (c : Nat) (cw : Bytes) : Work :=
  let x := s.chan params c
  let n := x.cs.p25FrameIndex.toNat
  let enc := !clear x.cfg.algoId x.cfg.keyId
  let drawn := enc && (n == 0 && x.cs.mi == zeros 9)
  let mi0 := if drawn then params.miAt s.draws else x.cs.mi
  let draws0 := if drawn then s.draws + 1 else s.draws
  let seed0 :=
    if enc && n == 0 then seedOf s c x.cfg.algoId x.cfg.keyId mi0 x.eng x.cs.noKey else unseeded x.eng x.cs.noKey
  let sent :=
    if enc then applied seed0.eng (if n < 9 then .ldu1 else .ldu2) draws0 cw
    else { out := cw, eng := seed0.eng, draws := draws0 }
  let mi1 := if enc && n == 17 then params.miCycle mi0 else mi0
  let seed1 :=
    if enc && n == 17 then seedOf s c x.cfg.algoId x.cfg.keyId mi1 sent.eng seed0.noKey
    else unseeded sent.eng seed0.noKey
  let crypto : CryptoParams := { algoId := x.cfg.algoId, keyId := x.cfg.keyId, mi := mi1 }
  let ldu1 :=
    if n < 9 then writeAt (if n = 0 then zeros 225 else x.cs.netLdu1) (cwPos n) sent.out else x.cs.netLdu1
  let ldu2 :=
    if n < 9 then x.cs.netLdu2 else writeAt (if n = 9 then zeros 225 else x.cs.netLdu2) (cwPos (n % 9)) sent.out
  { ch := { x with
      eng := seed1.eng
      cs := { x.cs with
        netLdu1 := ldu1
        netLdu2 := ldu2
        mi := mi1
        noKey := seed1.noKey
        pktSeq := if n = 8 ∨ n = 17 then seqAfter x.cs.pktSeq else x.cs.pktSeq
        p25SeqNo := x.cs.p25SeqNo + 1
        p25FrameIndex := BitVec.ofNat 5 ((n + 1) % 18) } }
    draws := sent.draws
    net :=
      if n = 8 then
        [p25Record c x .p25Ldu1 mi1 (x.cs.p25SeqNo == 8) (p25Pack params (p25Image params .ldu1 ldu1 crypto))]
      else if n = 17 then
        [p25Record c x .p25Ldu2 mi1 false (p25Pack params (p25Image params .ldu2 ldu2 crypto))]
      else []
    voc := []
    evt := seed0.evt ++ seed1.evt
    rsp := [] }

/-! ## TXDMR (43_dmr_framer.md R192) -/

/-- The middle 48 bits of voice frame n for the given fragments (R192, R194). -/
def dmrMid (f : Frags) (n : Nat) : BitVec 48 :=
  let emb (lcss : BitVec 2) (frag : BitVec 32) : BitVec 48 :=
    let e := params.embEncode params.dmrColorCode 0 lcss
    e.extractLsb' 8 8 ++ frag ++ e.extractLsb' 0 8
  if n = 0 then params.dmrVoiceSync
  else if n = 1 then emb 1 f.f0
  else if n = 2 then emb 3 f.f1
  else if n = 3 then emb 3 f.f2
  else if n = 4 then emb 2 f.f3
  else emb 0 0

/-- R192: what one codeword leaves on channel c. -/
def txdmrEnds (s : State) (c : Nat) (cw : Bytes) : Work :=
  let x := s.chan params c
  let buf := writeAt x.cs.ambeBuffer (params.ambeLen * x.cs.ambeCount.toNat) cw
  if x.cs.ambeCount.toNat < 2 then
    { ch := { x with cs := { x.cs with ambeBuffer := buf, ambeCount := x.cs.ambeCount + 1 } }
      draws := s.draws
      net := []
      voc := []
      evt := []
      rsp := [] }
  else
    let first := x.cs.dmrSeqNo == 0
    let emb : Embedded := if first then { frag := params.embLcFragments (lcOf x), valid := true } else x.cs.embeddedData
    let seq0 := x.cs.pktSeq
    let seq1 := if first then seqAfter seq0 else seq0
    let dmr1 : BitVec 32 := if first then 1 else x.cs.dmrSeqNo
    let n := x.cs.dmrFrameIndex
    { ch := { x with
        cs := { x.cs with
          embeddedData := emb
          pktSeq := seqAfter seq1
          dmrSeqNo := dmr1 + 1
          dmrFrameIndex := BitVec.ofNat 3 ((n.toNat + 1) % 6)
          ambeBuffer := zeros 27
          ambeCount := 0 } }
      draws := s.draws
      net :=
        (if first then [dmrRecord c x .dmrVhdr seq0 0 none false (params.dmrLcBurst .vhdr (lcOf x))] else []) ++
          [dmrRecord c x .dmrVoice seq1 dmr1 (some n) (n == 0)
            (dmrMidInsert (dmrVoicePlace buf) (dmrMid emb.frag n.toNat))]
      voc := []
      evt := []
      rsp := [] }

/-! ## Inbound frames (42_p25_framer.md R170, 43_dmr_framer.md R200) -/

/-- The RXP25 operation of a class; `kind` is the class number of OTHER. -/
def rxp25 (cls : P25Class) (kind : BitVec 8) (ev : RxEvent) : Instr :=
  match cls with
  | .ldu1 => .rxp25Ldu1 ev
  | .ldu2 => .rxp25Ldu2 ev
  | .term => .rxp25Term ev
  | .other => .rxp25Other kind ev

/-- The RXDMR operation of a class; `kind` is the class number of OTHER. -/
def rxdmr (cls : DmrClass) (kind slot : BitVec 8) (ev : RxEvent) : Instr :=
  match cls with
  | .voice => .rxdmrVoice slot ev
  | .vhdr => .rxdmrVhdr slot ev
  | .pihdr => .rxdmrPihdr slot ev
  | .term => .rxdmrTerm slot ev
  | .other => .rxdmrOther kind slot ev

/-- Part 1 of the P25 step: the event reaches the channel. -/
def ReachesP25 (x : Chan) (ev : RxEvent) : Prop :=
  x.valid = true ∧ x.cfg.set = true ∧ x.cfg.sys = ev.sys ∧ x.cfg.dstId = ev.dstId

/-- Part 1 of the DMR step: besides, the timeslot is the channel's. -/
def ReachesDmr (x : Chan) (slot : BitVec 8) (ev : RxEvent) : Prop := ReachesP25 x ev ∧ x.cfg.slot.toNat = slot.toNat

/-- The RXP25 command's step is on channel c with slot x, and the filter lets its event through there. -/
structure AcceptedP25 (s : State) (c : Nat) (x : Chan) (ev : RxEvent) : Prop where
  fits   : ev.data.length < 65536
  turn   : s.turn = c
  held   : s.chan params c = x
  reach  : ReachesP25 x ev
  filter : dupCheck s.chans ev c x = none

/-- The RXDMR command's step is on channel c with slot x, and the filter lets its event through there. -/
structure AcceptedDmr (s : State) (c : Nat) (x : Chan) (slot : BitVec 8) (ev : RxEvent) : Prop where
  fits   : ev.data.length < 65536
  legal  : slot = 1 ∨ slot = 2
  turn   : s.turn = c
  held   : s.chan params c = x
  reach  : ReachesDmr x slot ev
  filter : dupCheck s.chans ev c x = none

/-- An inbound frame of either protocol. -/
inductive Frame where
  | p25 (cls : P25Class) (kind : BitVec 8) (ev : RxEvent)
  | dmr (cls : DmrClass) (kind slot : BitVec 8) (ev : RxEvent)

/-- The command that brings the frame. -/
def Frame.instr : Frame → Instr
  | .p25 cls kind ev => rxp25 cls kind ev
  | .dmr cls kind slot ev => rxdmr cls kind slot ev

/-- The frame's event. -/
def Frame.event : Frame → RxEvent
  | .p25 _ _ ev => ev
  | .dmr _ _ _ ev => ev

/-- The frame reaches a channel: valid, configured, the same system and talkgroup, for DMR the same timeslot. -/
def Frame.hits (x : Chan) : Frame → Bool
  | .p25 _ _ ev => x.valid && (x.cfg.set && (x.cfg.sys == ev.sys && x.cfg.dstId == ev.dstId))
  | .dmr _ _ slot ev =>
    x.valid && (x.cfg.set && (x.cfg.sys == ev.sys && (x.cfg.dstId == ev.dstId && x.cfg.slot.toNat == slot.toNat)))

/-- The last-known stream of the SlotStatus that the frame maps to. -/
def Frame.lastStream (x : Chan) : Frame → BitVec 32
  | .p25 _ _ _ => x.slotP25.streamId
  | .dmr _ _ slot _ => if slot = 2 then x.slotDmr2.streamId else x.slotDmr1.streamId

/-- The frame passes the structural test and the checks of its operands, and is no terminator. -/
def Frame.Sound : Frame → Prop
  | .p25 cls _ ev => cls ≠ .term ∧ ev.data.length < 65536 ∧ p25Accepts params cls ev.data = true
  | .dmr cls _ slot ev =>
    cls ≠ .term ∧ ev.data.length < 65536 ∧ (slot = 1 ∨ slot = 2) ∧ dmrValid params cls ev.data = true

/-- `slotDmr(s)`. -/
def dmrSlot (slot : BitVec 8) : SlotRef := if slot = 2 then .dmr2 else .dmr1

/-- A channel and the EVT records of part 4. -/
structure Tracked where
  ch  : Chan
  evt : List EvtRec

/-- `CallStart` (45_call_tracker.md R234) on a channel whose SlotStatus r has been referenced. -/
def started (s : State) (c : Nat) (x : Chan) (ev : RxEvent) (r : SlotRef) (proto : Proto) : Tracked :=
  let alg := if x.cs.algId = 0 then params.algUnencrypted else x.cs.algId
  let kid := if x.cs.algId = 0 then 0 else x.cs.keyId
  let seed := seedOf s c alg kid (zeros 9) x.eng x.cs.noKey
  { ch := { x with
      eng := seed.eng
      cs := { x.cs with
        isReceiving := true
        peerId := ev.peerId
        rxStreamId := ev.streamId
        rxProto := proto
        mi := zeros 9
        algId := alg
        keyId := kid
        noKey := seed.noKey
        lastPacketTime := ev.now } }.setStatus r
          { created := true, srcId := 0, dstId := 0, frameType := .none, streamId := (x.status r).streamId,
            startTime := ev.now, lc := none, pi := none }
    evt := seed.evt ++ [{ ch := BitVec.ofNat 16 c
                          info := .callStart ev.srcId ev.dstId ev.streamId ev.peerId ev.now proto }] }

/-- `CallEnd` (45_call_tracker.md R236) of a call whose SlotStatus is `st`. -/
def ended (c : Nat) (x : Chan) (st : SlotStatus) (now : BitVec 64) (cause : EndCause) : Tracked :=
  { ch := { x with cs := { x.cs with isReceiving := false, peerId := 0, rxStreamId := 0 } }
    evt := [{ ch := BitVec.ofNat 16 c
              info := .callEnd cause (if st.startTime ≤ now then now - st.startTime else 0) now }] }

/-- The SlotStatus of the receive call in progress (R236): by `rxProto`, for DMR the one of `cfg.slot`. -/
def callStatus (x : Chan) : SlotStatus :=
  if x.cs.rxProto = .p25 then x.slotP25 else if x.cfg.slot = 2 then x.slotDmr2 else x.slotDmr1

/-- Part 4 for a frame that is no terminator: a call starts if the stream is not the last-known one (R233). -/
def tracked (s : State) (c : Nat) (x : Chan) (ev : RxEvent) (r : SlotRef) (proto : Proto) : Tracked :=
  if ev.streamId = (x.status r).streamId then
    { ch := { x with cs := { x.cs with lastPacketTime := ev.now } }.setStatus r { x.status r with created := true }
      evt := [] }
  else started s c x ev r proto

/-- Part 6: the last-observed attributes. -/
def observed (x : Chan) (ev : RxEvent) (r : SlotRef) (kind : FrameType) : Chan :=
  x.setStatus r { x.status r with
    srcId := ev.srcId, dstId := ev.dstId, frameType := kind, streamId := ev.streamId }

/-- The step's work that leaves slot x, takes no draw, and puts out only the given EVT records. -/
def quiet (s : State) (x : Chan) (evt : List EvtRec) : Work :=
  { ch := x, draws := s.draws, net := [], voc := [], evt := evt, rsp := [] }

/-! ## The decode pass (42_p25_framer.md R172) -/

/-- What a decode pass gives: the codewords handed to the vocoder, the engine, the count of draws, the error total. -/
structure Pass where
  out   : List Bytes
  eng   : Engine
  draws : Nat
  total : Nat

/-- R172 over the codewords that are left. -/
def passOf (c : Nat) (enc : Bool) (role : Role) : List Bytes → Engine → Nat → Nat → Pass
  | [], e, draws, total => { out := [], eng := e, draws := draws, total := total }
  | cw :: cws, e, draws, total =>
    let p : Applied := if enc then applied e role draws cw else { out := cw, eng := e, draws := draws }
    let rest := passOf c enc role cws p.eng (p.draws + 1) (total + params.vocErrs p.draws c p.out)
    { rest with out := p.out :: rest.out }

/-- The nine codewords of an LDU buffer, each at its CW_POS (00_scope.md R7). -/
def codewordsOf (buf : Bytes) : List Bytes :=
  [10, 26, 55, 80, 105, 130, 155, 180, 204].map fun off => readAt buf off params.imbeLen

/-- The VOCOUT records of a pass. -/
def vocOf (c : Nat) (x : Chan) (proto : Proto) (cws : List Bytes) : List VocRec :=
  cws.map fun cw => { ch := BitVec.ofNat 16 c, talkgroupId := x.cfg.dstId, proto := proto, cw := cw }

/-- `RxLdu1` (R173) on a receiving channel y, after the records evt. -/
def ldu1Ends (s : State) (c : Nat) (y : Chan) (evt : List EvtRec) (ev : RxEvent) : Work :=
  let image := p25Unpack params (readAt ev.data params.p25PayloadOff params.p25PayloadLen)
  let hdu := hasHdu params ev.data
  let alg := if hdu then byteAt ev.data params.p25HduAlgOff else y.cs.algId
  let kid := if hdu then field 16 ev.data params.p25HduKidOff 2 else y.cs.keyId
  let mi := if hdu then readAt ev.data params.p25HduMiOff 9 else y.cs.mi
  let seed := if hdu then seedOf s c alg kid mi y.eng y.cs.noKey else unseeded y.eng y.cs.noKey
  let pass := passOf c (!clear alg kid) .ldu1 (codewordsOf image) seed.eng s.draws 0
  { ch := observed { y with
      eng := pass.eng
      cs := { y.cs with
        netLdu1 := image
        algId := alg
        keyId := kid
        mi := mi
        noKey := seed.noKey
        p25Errs := BitVec.ofNat 32 (min pass.total 4294967295) } } ev .p25 (.p25 .ldu1)
    draws := pass.draws
    net := []
    voc := vocOf c y .p25 pass.out
    evt := evt ++ seed.evt
    rsp := [] }

/-- `RxLdu2` (R175, R176) on a receiving channel y, after the records evt. -/
def ldu2Ends (s : State) (c : Nat) (y : Chan) (evt : List EvtRec) (ev : RxEvent) : Work :=
  let image := p25Unpack params (readAt ev.data params.p25PayloadOff params.p25PayloadLen)
  let sync (rec : Nat) : Nat := params.recBufOff.getD rec 0 + params.essFieldOff
  let alg := byteAt image (sync params.essAlgRec)
  let kid := field 16 image (sync params.essAlgRec + 1) 2
  let newMi := [0, 1, 2].flatMap fun j => readAt image (sync (params.essMiRec.getD j 0)) 3
  let mi := if y.cs.p25Errs = 0 then newMi else params.miCycle y.cs.mi
  let pass := passOf c (!clear alg kid) .ldu2 (codewordsOf image) y.eng s.draws 0
  let seed := seedOf s c alg kid mi pass.eng y.cs.noKey
  { ch := observed { y with
      eng := seed.eng
      cs := { y.cs with
        netLdu2 := image
        algId := alg
        keyId := kid
        mi := mi
        noKey := seed.noKey
        p25Errs := BitVec.ofNat 32 (min pass.total 4294967295) } } ev .p25 (.p25 .ldu2)
    draws := pass.draws
    net := []
    voc := vocOf c y .p25 pass.out
    evt := evt ++ seed.evt
    rsp := [] }

/-! ## Parts of a channel slot -/

/-- What only the transmit side writes of a channel slot (70_reset_and_hazards.md R288, 44_sequencer.md R223). -/
def SameTransmit (x y : Chan) : Prop :=
  y.cs.txStreamId = x.cs.txStreamId ∧ y.cs.pktSeq = x.cs.pktSeq ∧ y.cs.p25SeqNo = x.cs.p25SeqNo ∧
    y.cs.p25FrameIndex = x.cs.p25FrameIndex ∧ y.cs.dmrSeqNo = x.cs.dmrSeqNo ∧
    y.cs.dmrFrameIndex = x.cs.dmrFrameIndex ∧ y.cs.ambeCount = x.cs.ambeCount ∧
    y.cs.ambeBuffer = x.cs.ambeBuffer ∧ y.cs.embeddedData = x.cs.embeddedData

/-- What only the receive side writes of a channel slot (10_state.md R22, R27). -/
def SameReceive (x y : Chan) : Prop :=
  y.cs.rxStreamId = x.cs.rxStreamId ∧ y.cs.peerId = x.cs.peerId ∧ y.cs.isReceiving = x.cs.isReceiving ∧
    y.cs.lastPacketTime = x.cs.lastPacketTime ∧ y.cs.p25Errs = x.cs.p25Errs ∧ y.cs.rxProto = x.cs.rxProto ∧
    y.slotP25 = x.slotP25 ∧ y.slotDmr1 = x.slotDmr1 ∧ y.slotDmr2 = x.slotDmr2

/-- The channel operand, if the operation has one. -/
def channelOf : Instr → Option Nat
  | .chinit ch => some ch.toNat
  | .chcfg ch _ _ _ _ _ _ => some ch.toNat
  | .chfree ch => some ch.toNat
  | .cprep ch _ _ _ => some ch.toNat
  | .cproc ch _ _ => some ch.toNat
  | .ccycle ch => some ch.toNat
  | .txstart ch => some ch.toNat
  | .txp25 ch _ => some ch.toNat
  | .txdmr ch _ => some ch.toNat
  | .txendp ch _ => some ch.toNat
  | .txendd ch _ => some ch.toNat
  | .reset => none
  | .keyload _ _ _ => none
  | .rxp25Ldu1 _ => none
  | .rxp25Ldu2 _ => none
  | .rxp25Term _ => none
  | .rxp25Other _ _ => none
  | .rxdmrVoice _ _ => none
  | .rxdmrVhdr _ _ => none
  | .rxdmrPihdr _ _ => none
  | .rxdmrTerm _ _ => none
  | .rxdmrOther _ _ _ => none
  | .tick _ => none

/-- The operation is one of RXP25, RXDMR, TICK. -/
def Inbound (i : Instr) : Prop :=
  (∃ cls kind ev, i = rxp25 cls kind ev) ∨ (∃ cls kind slot ev, i = rxdmr cls kind slot ev) ∨ ∃ now, i = .tick now

/-- The operation writes the configuration registers or the whole slot: RESET, CHINIT, CHFREE, CHCFG. -/
def Manages (i : Instr) : Prop :=
  i = .reset ∨ (∃ ch, i = .chinit ch) ∨ (∃ ch, i = .chfree ch) ∨
    ∃ ch sys srcId dstId slot algoId keyId, i = .chcfg ch sys srcId dstId slot algoId keyId

/-- A slot after RESET, field by field as the table of 10_state.md R50 gives it. -/
def slotAfterReset : Chan where
  valid := false
  cfg := { set := false, sys := 0, srcId := 0, dstId := 0, slot := 0, algoId := 0, keyId := 0 }
  cs := {
    p25FrameIndex := 0
    p25SeqNo := 0
    dmrSeqNo := 0
    dmrFrameIndex := 0
    netLdu1 := zeros 225
    netLdu2 := zeros 225
    ambeBuffer := zeros 27
    ambeCount := 0
    mi := zeros 9
    algId := 0
    keyId := 0
    embeddedData := { frag := { f0 := 0, f1 := 0, f2 := 0, f3 := 0 }, valid := false }
    txStreamId := 0
    pktSeq := 0
    rxStreamId := 0
    peerId := 0
    isReceiving := false
    lastPacketTime := 0
    p25Errs := 0
    noKey := false
    rxProto := .p25 }
  eng := { algoId := params.algUnencrypted, keyId := 0, mi := zeros 9, ks := .bytes [], ksPos := 0 }
  slotP25 := { created := false, srcId := 0, dstId := 0, frameType := .none, streamId := 0, startTime := 0,
               lc := none, pi := none }
  slotDmr1 := { created := false, srcId := 0, dstId := 0, frameType := .none, streamId := 0, startTime := 0,
                lc := none, pi := none }
  slotDmr2 := { created := false, srcId := 0, dstId := 0, frameType := .none, streamId := 0, startTime := 0,
                lc := none, pi := none }

/-- How many bytes a command has, by its operation code and, for three of the formats, a length field inside it
(30_encoding.md R81 to R89, R111); `none` for a reserved code (R110). -/
def commandLength (b : Bytes) : Option Nat :=
  let op := (byteAt b 0).toNat
  if op = 0x00 then some 1
  else if op = 0x01 ∨ op = 0x03 ∨ op = 0x12 ∨ op = 0x20 then some 3
  else if op = 0x02 then some 17
  else if op = 0x04 then some (5 + (byteAt b 4).toNat)
  else if op = 0x10 then some 15
  else if op = 0x11 then some (4 + params.imbeLen)
  else if op = 0x21 then some (3 + params.imbeLen)
  else if op = 0x22 then some (3 + params.ambeLen)
  else if op = 0x23 ∨ op = 0x24 then some 4
  else if op = 0x30 then some (30 + (256 * (byteAt b 28).toNat + (byteAt b 29).toNat))
  else if op = 0x31 then some (31 + (256 * (byteAt b 29).toNat + (byteAt b 30).toNat))
  else if op = 0x40 then some 9
  else none

/-- The event is one of an RXP25 or RXDMR command. -/
def NetworkEvent (i : Instr) : Prop := Inbound i ∧ ∀ now, i ≠ .tick now

/-- The presented command has a step on channel c still to take: RESET on every channel, a command with a channel operand
on that one, an event or TICK on every channel from its next one on (20_memory.md R70). A command refused at decode has
none. -/
def Owes (e : PortEntry) (c : Nat) : Prop :=
  c < params.nch ∧ ∃ i, decode params e.bytes = .ok i ∧
    (i = .reset ∨ channelOf i = some c ∨ (Inbound i ∧ i.legal = true ∧ e.next ≤ c))

/-- The presented command's next step is on channel c. -/
def NextOn (e : PortEntry) (c : Nat) : Prop :=
  c < params.nch ∧ ∃ i, decode params e.bytes = .ok i ∧
    (i = .reset ∨ channelOf i = some c ∨ (Inbound i ∧ i.legal = true ∧ e.next = c))

/-- The presented command is an inbound network event. -/
def IsEvent (e : PortEntry) : Prop := ∃ i, decode params e.bytes = .ok i ∧ NetworkEvent i ∧ i.legal = true

/-- 20_memory.md R74 (2), (3): `a`, issued before `b`, has a step that comes before the next step of `b`. -/
def Precedes (a b : PortEntry) : Prop := (∃ c, Owes a c ∧ NextOn b c) ∨ (IsEvent a ∧ IsEvent b)

/-- The command ends, re-creates or forgets what is in progress on channel c. -/
def Interrupts (c : Nat) (i : Instr) : Prop :=
  i = .reset ∨ (∃ ch, ch.toNat = c ∧ (i = .chinit ch ∨ i = .chfree ch)) ∨
    ∃ ch cause, ch.toNat = c ∧ (i = .txendp ch cause ∨ i = .txendd ch cause)

/-- The NETOUT records of channel c that t has beyond those of s. -/
def sentBy (c : Nat) (s t : State) : List NetRec :=
  (t.netout.drop s.netout.length).filter fun r => r.ch == BitVec.ofNat 16 c

end Sys2Proof.Claims

open Sys2Proof Sys2Proof.Machine Sys2Proof.Claims

/-! ## Encoding -/

/-- Every command is read back from its bytes: 30_encoding.md R80 to R91, over every operand value a format holds. -/
def Obligations.DecodeOfEncode : Prop :=
  ∀ i : Instr, i.encodable params = true → decode params (encode i) = .ok i

/-- A byte string that the decoder accepts is the one form of the command it reads: no byte of it is ignored. -/
def Obligations.EncodeOfDecode : Prop :=
  ∀ (b : Bytes) (i : Instr), decode params b = .ok i → i.encodable params = true ∧ encode i = b

/-- Commands of 95_test_vectors.md, whose bytes are written out there, decode to what is written beside them. -/
def Obligations.DecodesWrittenCommands : Prop :=
  decode params [0x00] = .ok .reset ∧
  decode params [0x01, 0x00, 0x04] = .ok (.chinit 4) ∧
  decode params [0x02, 0x00, 0x00, 0x00, 0x01, 0x00, 0x01, 0xE2, 0x40, 0x00, 0x00, 0x27, 0x11, 0x01, 0x80, 0x00, 0x00] =
    .ok (.chcfg 0 1 123456 10001 1 0x80 0) ∧
  decode params [0x10, 0x00, 0x00, 0x84, 0x00, 0x01, 1, 2, 3, 4, 5, 6, 7, 8, 9] =
    .ok (.cprep 0 0x84 1 [1, 2, 3, 4, 5, 6, 7, 8, 9]) ∧
  decode params [0x11, 0x00, 0x00, 0x00, 0, 1, 2, 3, 4, 5, 6, 7, 8, 9, 10] =
    .ok (.cproc 0 0 [0, 1, 2, 3, 4, 5, 6, 7, 8, 9, 10]) ∧
  decode params [0x23, 0x00, 0x00, 0x02] = .ok (.txendp 0 2) ∧
  decode params [0x40, 0, 0, 0, 0, 0, 0, 0x0F, 0xA1] = .ok (.tick 4001)

/-- 60_exceptions.md R266 (1) and (2): the operation code first, then the length its format gives. -/
def Obligations.DecodeTestsCodeThenLength : Prop :=
  ∀ b : Bytes,
    match commandLength b with
    | none => decode params b = .error .badOp
    | some n => (b.length = n → ∃ i, decode params b = .ok i) ∧ (b.length ≠ n → decode params b = .error .badLen)

/-! ## Steps and the command port -/

/-- One step carries out the command that is taken: with one command presented it is that one, and what step adds to
`exec` is that the command leaves the port, or stands on it again with the channel its next step is for. -/
def Obligations.StepRunsDecodedCommand : Prop :=
  (∀ (s : State) (e : PortEntry) (i : Instr) (t : State), s.port = [e] → decode params e.bytes = .ok i →
    exec i { s with port := [], turn := e.next, picks := s.picks + 1 } = .next t →
    step s = .next (settle params 0 e i t)) ∧
  ∀ (s s1 : State) (k : Nat) (e : PortEntry) (i : Instr) (t : State), fetch params s = some (k, e, s1) →
    decode params e.bytes = .ok i → exec i s1 = .next t → step s = .next (settle params k e i t)

/-- 70_reset_and_hazards.md R281: after RESET no slot is valid, the key store and the traces are empty, and the block
waits for commands. -/
def Obligations.BlockWaitsAfterReset : Prop :=
  (∀ c, (State.reset.chan params c).valid = false) ∧ State.reset.keys = [] ∧ State.reset.netout = [] ∧
    State.reset.vocout = [] ∧ State.reset.evt = [] ∧ State.reset.rsp = [] ∧ step State.reset = .next State.reset ∧
    ∀ s : State, s.port = [] → step s = .next s

/-- A command refused at decode: one REFUSED record with `ch` 0xFFFF, the command leaves the port, nothing else. -/
def Obligations.UndecodableCommandRefused : Prop :=
  ∀ (s : State) (e : PortEntry) (r : RefuseCode), s.port = [e] → decode params e.bytes = .error r →
    step s = .next { refusedAs s r 0xFFFF (byteAt e.bytes 0) with port := [], turn := 0, picks := s.picks + 1 }

/-- 60_exceptions.md R255: no condition stops the block, whatever it is given. -/
def Obligations.NothingStopsTheBlock : Prop :=
  (∀ (i : Instr) (s : State), ∃ t, exec i s = .next t) ∧ ∀ s : State, ∃ t, step s = .next t

/-- 20_memory.md R71, R74: with a command presented a step is taken; it is the next step of a command that may move; and
a command may move exactly if no command issued before it and still presented has a step that comes first: a step on the
same channel, or, between two network events, any step. That RESET is a step of every channel, and that a command
refused for an operand is a step of the channel it names, is the model's reading (log 2, log 8). -/
def Obligations.StepsKeepIssueOrder : Prop :=
  (∀ s : State, s.port ≠ [] → ∃ k e s1, fetch params s = some (k, e, s1)) ∧
  (∀ (s s1 : State) (k : Nat) (e : PortEntry), fetch params s = some (k, e, s1) →
    k ∈ eligible params s ∧ s.port[k]? = some e) ∧
  ∀ (s : State) (k : Nat), k ∈ eligible params s ↔
    ∃ e, s.port[k]? = some e ∧ ∀ j a, j < k → s.port[j]? = some a → ¬Precedes a e

/-- 20_memory.md R70, R71, 46_common_laws.md R246 (b): an RXP25, RXDMR or TICK command with legal operands, presented
alone, is carried out by NCH steps of the machine, one on each channel in ascending index: after m of them, m < NCH, it
stands on the port with channel m as its next, and after NCH of them it has left. The fields `port`, `next` and `picks`
are the model's (log 1, log 2, log 6). -/
def Obligations.InboundCommandFinishes : Prop :=
  ∀ (s : State) (b : Bytes) (i : Instr), s.port = [{ bytes := b, next := 0 }] → decode params b = .ok i →
    Inbound i → i.legal = true →
    (∀ m, m < params.nch →
      ∃ t, Host.Core.run Sys2Proof.core m s = .next t ∧ t.port = [{ bytes := b, next := m }]) ∧
    ∃ t, deliver i { s with port := [] } = .next t ∧
      Host.Core.run Sys2Proof.core params.nch s = .next { t with picks := s.picks + params.nch }

/-! ## Management (40_config_and_ports.md) -/

/-- R120, with the table of 10_state.md R50: every slot at its reset value, the key store and the traces empty; and
that is what `State.reset` holds too. That what is still presented, and the model's own counts, are as before is the
model's choice and no part of R120 (log 15). -/
def Obligations.ResetClearsBlock : Prop :=
  (∀ s : State, ∃ t, exec .reset s = .next t ∧ (∀ c, t.chan params c = slotAfterReset) ∧ t.keys = [] ∧ t.netout = [] ∧
    t.vocout = [] ∧ t.evt = [] ∧ t.rsp = [] ∧ t.port = s.port ∧ t.turn = s.turn ∧ t.draws = s.draws ∧
    t.picks = s.picks) ∧
  ∀ c, State.reset.chan params c = slotAfterReset

/-- R121: any index below NCH is created afresh, whatever the slot held; any other is refused. -/
def Obligations.ChinitCreatesSlot : Prop :=
  ∀ (s : State) (ch : BitVec 16),
    (ch.toNat < params.nch →
      exec (.chinit ch) s = .next (withSlot s ch.toNat { slotAfterReset with valid := true })) ∧
    (params.nch ≤ ch.toNat → exec (.chinit ch) s = .next (refusedAs s .badCh ch 0x01))

/-- R122: the slot is back at its values after RESET, everything else as before; a slot that is not valid is refused. -/
def Obligations.ChfreeForgetsSlot : Prop :=
  ∀ (s : State) (ch : BitVec 16),
    (ChannelOk s ch → ∃ t, exec (.chfree ch) s = .next t ∧ t = { s with chans := t.chans } ∧
      ∀ d, t.chan params d = if d = ch.toNat then slotAfterReset else s.chan params d) ∧
    (¬ChannelOk s ch → exec (.chfree ch) s = .next (refusedAs s .badCh ch 0x03))

/-- R123: the registers are loaded, and nothing else of the slot is touched; the refusals in the order tested. That the
record of R_BADARG carries the channel operand is the model's choice (log 8). -/
def Obligations.ChcfgLoadsConfiguration : Prop :=
  ∀ (s : State) (ch sys : BitVec 16) (srcId dstId : BitVec 32) (slot algoId : BitVec 8) (keyId : BitVec 16),
    let x := s.chan params ch.toNat
    let i := Instr.chcfg ch sys srcId dstId slot algoId keyId
    if slot ≠ 1 ∧ slot ≠ 2 then exec i s = .next (refusedAs s .badArg ch 0x02)
    else (¬ChannelOk s ch → exec i s = .next (refusedAs s .badCh ch 0x02)) ∧
      (ChannelOk s ch → (x.cs.txStreamId ≠ 0 ∨ x.cs.isReceiving = true) →
        exec i s = .next (refusedAs s .busy ch 0x02)) ∧
      (ChannelOk s ch → x.cs.txStreamId = 0 → x.cs.isReceiving = false →
        exec i s = .next (withSlot s ch.toNat { x with
          cfg := { set := true, sys := sys, srcId := srcId, dstId := dstId, slot := if slot = 1 then 1 else 2,
                   algoId := algoId, keyId := keyId } }))

/-- R124: the pair's key is the one loaded, every other pair's is as before, and nothing else changes; an empty key is
refused. -/
def Obligations.KeyloadStoresKey : Prop :=
  ∀ (s : State) (algId : BitVec 8) (keyId : BitVec 16) (key : Bytes),
    (key = [] → exec (.keyload algId keyId key) s = .next (refusedAs s .badArg 0xFFFF 0x04)) ∧
    (key ≠ [] → key.length < 256 → ∃ t, exec (.keyload algId keyId key) s = .next t ∧ t = { s with keys := t.keys } ∧
      ∀ a k, keyOf t.keys a k = if a = algId ∧ k = keyId then some key else keyOf s.keys a k)

/-! ## The crypto engine (41_crypto.md) -/

/-- R150, with R142 and R143: the live parameters are replaced, the engine is seeded as R142 says for clear, seeded,
missing-key and unsupported parameters, and the answer goes out on RSP. -/
def Obligations.CprepSeedsEngine : Prop :=
  ∀ (s : State) (ch : BitVec 16) (algId : BitVec 8) (keyId : BitVec 16) (mi : Bytes), mi.length = 9 →
    let x := s.chan params ch.toNat
    let seed := seedOf s ch.toNat algId keyId mi x.eng x.cs.noKey
    (¬ChannelOk s ch → exec (.cprep ch algId keyId mi) s = .next (refusedAs s .badCh ch 0x10)) ∧
    (ChannelOk s ch → exec (.cprep ch algId keyId mi) s = .next (stepEnds s ch.toNat {
      ch := { x with
        eng := seed.eng
        cs := { x.cs with algId := algId, keyId := keyId, mi := mi, noKey := seed.noKey } }
      draws := s.draws
      net := []
      voc := []
      evt := seed.evt
      rsp := [{ ch := ch, op := 0x10, bytes := [seed.status] }] }))

/-- R151, with R145 and R146: the codeword meets the keystream window of the engine's position and of the role. That the
record of R_BADARG carries the channel operand is the model's choice (log 8). -/
def Obligations.CprocAppliesKeystream : Prop :=
  ∀ (s : State) (ch : BitVec 16) (role : BitVec 8) (cw : Bytes), cw.length = params.imbeLen →
    let x := s.chan params ch.toNat
    let p := applied x.eng (if role = 0 then .ldu1 else .ldu2) s.draws cw
    if role ≠ 0 ∧ role ≠ 1 then exec (.cproc ch role cw) s = .next (refusedAs s .badArg ch 0x11)
    else (¬ChannelOk s ch → exec (.cproc ch role cw) s = .next (refusedAs s .badCh ch 0x11)) ∧
      (ChannelOk s ch → exec (.cproc ch role cw) s = .next (stepEnds s ch.toNat {
        ch := { x with eng := p.eng }
        draws := p.draws
        net := []
        voc := []
        evt := []
        rsp := [{ ch := ch, op := 0x11, bytes := p.out }] }))

/-- R152: the MI is cycled and the engine re-seeded with it under the engine's own algorithm and key. -/
def Obligations.CcycleCyclesMi : Prop :=
  ∀ (s : State) (ch : BitVec 16),
    let x := s.chan params ch.toNat
    let m := params.miCycle x.cs.mi
    let seed := seedOf s ch.toNat x.eng.algoId x.eng.keyId m x.eng x.cs.noKey
    (¬ChannelOk s ch → exec (.ccycle ch) s = .next (refusedAs s .badCh ch 0x12)) ∧
    (ChannelOk s ch → exec (.ccycle ch) s = .next (stepEnds s ch.toNat {
      ch := { x with eng := seed.eng, cs := { x.cs with mi := m, noKey := seed.noKey } }
      draws := s.draws
      net := []
      voc := []
      evt := seed.evt
      rsp := [{ ch := ch, op := 0x12, bytes := m }] }))

/-- R148 (the source's property S3): a codeword processed after a prepare, with a key loaded or in the clear, is
recovered by processing the answer after a prepare with the same parameters on whatever channel, the same one included,
if as many codewords, of whatever content and role, were processed before it there: seed, position and role of the
codeword itself are all that counts. -/
def Obligations.ProcessingTwiceRecovers : Prop :=
  ∀ (s : State) (a b : BitVec 16) (algId : BitVec 8) (keyId : BitVec 16) (mi : Bytes)
    (fedA fedB : List (Role × Bytes)) (role : Role) (cw : Bytes),
    let roleByte : Role → BitVec 8 := fun r => if r = .ldu1 then 0 else 1
    let turnIn (c : BitVec 16) (fed : List (Role × Bytes)) (last : Bytes) : List Instr :=
      .cprep c algId keyId mi :: (fed.map (fun f => .cproc c (roleByte f.1) f.2) ++ [.cproc c (roleByte role) last])
    ChannelOk s a → ChannelOk s b → mi.length = 9 → fedA.length = fedB.length →
    (∀ f ∈ fedA ++ fedB, f.2.length = params.imbeLen) → cw.length = params.imbeLen →
    (clear algId keyId = true ∨ algId ∈ params.supportedAlgs ∧ keyOf s.keys algId keyId ≠ none) →
    ∃ t u out, runAll (turnIn a fedA cw) s = .next t ∧
      t.rsp.getLast? = some { ch := a, op := 0x11, bytes := out } ∧
      runAll (turnIn b fedB out) t = .next u ∧ u.rsp.getLast? = some { ch := b, op := 0x11, bytes := cw }

/-! ## The stream sequencer (44_sequencer.md) -/

/-- R217: the call takes the stream id of a draw, which is never zero, and sequence 0; nothing is emitted. -/
def Obligations.TxstartOpensCall : Prop :=
  ∀ (s : State) (ch : BitVec 16),
    let x := s.chan params ch.toNat
    (¬ChannelOk s ch → exec (.txstart ch) s = .next (refusedAs s .badCh ch 0x20)) ∧
    (ChannelOk s ch → x.cfg.set = false → exec (.txstart ch) s = .next (refusedAs s .noCfg ch 0x20)) ∧
    (Configured s ch → x.cs.txStreamId ≠ 0 → exec (.txstart ch) s = .next (refusedAs s .busy ch 0x20)) ∧
    (Configured s ch → x.cs.txStreamId = 0 → ∃ id : BitVec 32, id = params.streamIdAt s.draws ∧ id ≠ 0 ∧
      exec (.txstart ch) s = .next (stepEnds s ch.toNat {
        ch := { x with cs := { x.cs with txStreamId := id, pktSeq := 0 } }
        draws := s.draws + 1
        net := []
        voc := []
        evt := []
        rsp := [] }))

/-- R218 with R220: the terminator takes the call's next sequence value, and the call's registers go back to zero. That
the record of R_BADARG carries the channel operand is the model's choice (log 8). -/
def Obligations.TxendpEndsCall : Prop :=
  ∀ (s : State) (ch : BitVec 16) (cause : BitVec 8),
    let x := s.chan params ch.toNat
    let i := Instr.txendp ch cause
    if cause ≠ 0 ∧ cause ≠ 1 then exec i s = .next (refusedAs s .badArg ch 0x23)
    else (¬ChannelOk s ch → exec i s = .next (refusedAs s .badCh ch 0x23)) ∧
      (ChannelOk s ch → x.cfg.set = false → exec i s = .next (refusedAs s .noCfg ch 0x23)) ∧
      (Configured s ch → x.cs.txStreamId = 0 → exec i s = .next (refusedAs s .noCall ch 0x23)) ∧
      (InCall s ch → exec i s = .next (stepEnds s ch.toNat {
        ch := { x with cs := txIdle x.cs }
        draws := s.draws
        net := [p25Record ch.toNat x .p25Tdu x.cs.mi false []]
        voc := []
        evt := []
        rsp := [] }))

/-- R219 with R220: the DMR terminator carries a full Link Control and `dmrSeqNo`. That the record of R_BADARG carries
the channel operand is the model's choice (log 8). -/
def Obligations.TxenddEndsCall : Prop :=
  ∀ (s : State) (ch : BitVec 16) (cause : BitVec 8),
    let x := s.chan params ch.toNat
    let i := Instr.txendd ch cause
    if cause ≠ 0 ∧ cause ≠ 1 then exec i s = .next (refusedAs s .badArg ch 0x24)
    else (¬ChannelOk s ch → exec i s = .next (refusedAs s .badCh ch 0x24)) ∧
      (ChannelOk s ch → x.cfg.set = false → exec i s = .next (refusedAs s .noCfg ch 0x24)) ∧
      (Configured s ch → x.cs.txStreamId = 0 → exec i s = .next (refusedAs s .noCall ch 0x24)) ∧
      (InCall s ch → exec i s = .next (stepEnds s ch.toNat {
        ch := { x with cs := txIdle x.cs }
        draws := s.draws
        net := [dmrRecord ch.toNat x .dmrTerm x.cs.pktSeq x.cs.dmrSeqNo none false (params.dmrLcBurst .term (lcOf x))]
        voc := []
        evt := []
        rsp := [] }))

/-- R221, R216, R223: from a call's start on, whatever commands come in whatever order, on this channel and on others,
the i-th message of the call carries i mod SEQ_MOD and the call's stream id, as long as nothing ends the call; any
SEQ_MOD messages in a row carry distinct values. -/
def Obligations.SequenceCountsMessagesOfCall : Prop :=
  ∀ (s : State) (ch : BitVec 16) (is : List Instr), InCall s ch → (s.chan params ch.toNat).cs.pktSeq = 0 →
    (∀ i ∈ is, ¬Interrupts ch.toNat i) →
    ∃ t, runAll is s = .next t ∧
      (∀ k r, (sentBy ch.toNat s t)[k]? = some r →
        r.sequence.toNat = k % params.seqMod ∧ r.streamId = (s.chan params ch.toNat).cs.txStreamId) ∧
      (∀ j k r q, (sentBy ch.toNat s t)[j]? = some r → (sentBy ch.toNat s t)[k]? = some q → j < k →
        k < j + params.seqMod → r.sequence ≠ q.sequence) ∧
      (t.chan params ch.toNat).cs.pktSeq.toNat = (sentBy ch.toNat s t).length % params.seqMod

/-! ## The P25 framer (42_p25_framer.md, 30_encoding.md R100, R101) -/

/-- R162, with R161 and R163 to R165: the whole step for every position of the superframe, clear or encrypted, with the
refusals in their order. -/
def Obligations.Txp25TakesCodeword : Prop :=
  ∀ (s : State) (ch : BitVec 16) (cw : Bytes), cw.length = params.imbeLen →
    let x := s.chan params ch.toNat
    (¬ChannelOk s ch → exec (.txp25 ch cw) s = .next (refusedAs s .badCh ch 0x21)) ∧
    (ChannelOk s ch → x.cfg.set = false → exec (.txp25 ch cw) s = .next (refusedAs s .noCfg ch 0x21)) ∧
    (Configured s ch → x.cs.txStreamId = 0 → exec (.txp25 ch cw) s = .next (refusedAs s .noCall ch 0x21)) ∧
    (InCall s ch → x.cs.p25FrameIndex.toNat < 18 →
      exec (.txp25 ch cw) s = .next (stepEnds s ch.toNat (txp25Ends s ch.toNat cw)))

/-- The source's property S1 (R160, R162): nine codewords of a half superframe on a clear channel stand in its buffer at
their offsets, byte for byte, every other byte of it is zero, and one message has gone out. -/
def Obligations.NineCodewordsStandAtTheirOffsets : Prop :=
  ∀ (s : State) (ch : BitVec 16) (cws : List Bytes) (half : Role), InCall s ch →
    clear (s.chan params ch.toNat).cfg.algoId (s.chan params ch.toNat).cfg.keyId = true →
    (s.chan params ch.toNat).cs.p25FrameIndex = (if half = .ldu1 then 0 else 9) →
    cws.length = 9 → (∀ cw ∈ cws, cw.length = params.imbeLen) →
    ∃ t, runAll (cws.map (.txp25 ch)) s = .next t ∧
      (let buf := if half = .ldu1 then (t.chan params ch.toNat).cs.netLdu1 else (t.chan params ch.toNat).cs.netLdu2
       buf.length = 225 ∧ codewordsOf buf = cws ∧
       ∀ j, j < 225 → (∀ k < 9, j < cwPos k ∨ cwPos k + params.imbeLen ≤ j) → byteAt buf j = 0) ∧
      (t.chan params ch.toNat).cs.p25FrameIndex = (if half = .ldu1 then 9 else 0) ∧
      t.netout.length = s.netout.length + 1

/-- With the record table of 00_scope.md R8's defaults (log 4), 30_encoding.md R101: packing after unpacking gives a
payload back; unpacking after packing gives an image with the tail of every record slot zeroed. -/
def Obligations.PackAndUnpackAgree : Prop :=
  (∀ p : Bytes, p.length = 154 → p25Pack params (p25Unpack params p) = p) ∧
  ∀ image : Bytes, image.length = 225 →
    (p25Pack params image).length = 154 ∧ (p25Unpack params (p25Pack params image)).length = 225 ∧
    ∀ i, i < 225 → byteAt (p25Unpack params (p25Pack params image)) i =
      if i % 25 < params.recLen.getD (i / 25) 0 then byteAt image i else 0

/-- With the placement of 00_scope.md R8's defaults (log 4), 30_encoding.md R100: the image of an LDU has the marker of
its kind at the start of each record, an LDU2 the encryption-sync fields besides, and every other byte of the buffer as
it was. -/
def Obligations.ImageAddsMarksAndSync : Prop :=
  ∀ (half : Role) (buf : Bytes) (crypto : CryptoParams), buf.length = 225 → crypto.mi.length = 9 →
    let image := p25Image params half buf crypto
    image.length = 225 ∧
    (∀ k, k < 9 → byteAt image (25 * k) = BitVec.ofNat 8 ((if half = .ldu1 then 0x62 else 0x6B) + k)) ∧
    (half = .ldu2 → readAt image 51 3 = readAt crypto.mi 0 3 ∧ readAt image 76 3 = readAt crypto.mi 3 3 ∧
      readAt image 101 3 = readAt crypto.mi 6 3 ∧ readAt image 126 3 = crypto.algoId :: be 2 crypto.keyId) ∧
    ∀ i, i < 225 → i % 25 ≠ 0 → (half = .ldu2 → ¬(50 < i ∧ i < 54) ∧ ¬(75 < i ∧ i < 79) ∧ ¬(100 < i ∧ i < 104) ∧
      ¬(125 < i ∧ i < 129)) → byteAt image i = byteAt buf i

/-- With 00_scope.md R8's defaults (log 4), R180: the payload of a message sent from a buffer passes the receiver's
structural test, gives it the codewords that stand in the buffer, and, for an LDU2, the algorithm, key id and MI of the
sender's snapshot. -/
def Obligations.SentLduIsReadBack : Prop :=
  ∀ (half : Role) (buf : Bytes) (crypto : CryptoParams) (data : Bytes), buf.length = 225 → crypto.mi.length = 9 →
    178 ≤ data.length → (half = .ldu1 → hasHdu params data = true → 193 ≤ data.length) →
    readAt data 24 154 = p25Pack params (p25Image params half buf crypto) →
    p25Valid params half data = true ∧
    codewordsOf (p25Unpack params (readAt data 24 154)) = codewordsOf buf ∧
    (half = .ldu2 →
      let image := p25Unpack params (readAt data 24 154)
      byteAt image 126 = crypto.algoId ∧ field 16 image 127 2 = crypto.keyId ∧
        readAt image 51 3 ++ (readAt image 76 3 ++ readAt image 101 3) = crypto.mi)

/-- R171: the structural test of an LDU, length by length and marker by marker. -/
def Obligations.StructuralTestReadsMarkers : Prop :=
  ∀ data : Bytes,
    (hasHdu params data = true ↔ params.p25FtOff < data.length ∧ byteAt data params.p25FtOff = params.ftHduValid) ∧
    (p25Valid params .ldu1 data = true ↔ params.p25PayloadOff + params.p25PayloadLen ≤ data.length ∧
      (∀ k, k < 9 → byteAt data (params.p25PayloadOff + params.recNetOff.getD k 0) = BitVec.ofNat 8 (0x62 + k)) ∧
      (hasHdu params data = true → params.p25HduMiOff + 9 ≤ data.length)) ∧
    (p25Valid params .ldu2 data = true ↔ params.p25PayloadOff + params.p25PayloadLen ≤ data.length ∧
      ∀ k, k < 9 → byteAt data (params.p25PayloadOff + params.recNetOff.getD k 0) = BitVec.ofNat 8 (0x6B + k))

/-! ## The DMR framer (43_dmr_framer.md) -/

/-- R192, with R193 and R194: the whole step for every fill of the accumulator and every frame of the burst group, with
the refusals in their order. -/
def Obligations.TxdmrTakesCodeword : Prop :=
  ∀ (s : State) (ch : BitVec 16) (cw : Bytes), cw.length = params.ambeLen →
    let x := s.chan params ch.toNat
    (¬ChannelOk s ch → exec (.txdmr ch cw) s = .next (refusedAs s .badCh ch 0x22)) ∧
    (ChannelOk s ch → x.cfg.set = false → exec (.txdmr ch cw) s = .next (refusedAs s .noCfg ch 0x22)) ∧
    (Configured s ch → x.cs.txStreamId = 0 → exec (.txdmr ch cw) s = .next (refusedAs s .noCall ch 0x22)) ∧
    (InCall s ch → exec (.txdmr ch cw) s = .next (stepEnds s ch.toNat (txdmrEnds s ch.toNat cw)))

/-- R195: the middle insertion leaves the voice halves alone, and the 48 bits stand between them. -/
def Obligations.MiddleLeavesVoiceAlone : Prop :=
  ∀ (a : Bytes) (v : BitVec 48), a.length = 27 →
    let b := dmrMidInsert (dmrVoicePlace a) v
    b.length = 33 ∧ dmrVoiceExtract b = a ∧
    (byteAt b 13).extractLsb' 0 4 ++ byteAt b 14 ++ byteAt b 15 ++ byteAt b 16 ++ byteAt b 17 ++ byteAt b 18 ++
      (byteAt b 19).extractLsb' 4 4 = v

/-- The source's property S9 (R192, R222): 3m codewords of a fresh DMR call give one voice header at sequence 0 and then
m voice frames, whose `dmrSeq` counts 1 to m, whose frame index cycles through the burst group, and of which exactly
those of index 0 carry the sync pattern. -/
def Obligations.DmrCallSendsHeaderThenFrames : Prop :=
  ∀ (s : State) (ch : BitVec 16) (cws : List Bytes) (m : Nat), InCall s ch → 0 < m → m < 4294967295 →
    cws.length = 3 * m → (∀ cw ∈ cws, cw.length = params.ambeLen) →
    let x := s.chan params ch.toNat
    x.cs.pktSeq = 0 → x.cs.dmrSeqNo = 0 → x.cs.dmrFrameIndex = 0 → x.cs.ambeCount = 0 →
    x.cs.ambeBuffer.length = 27 →
    ∃ t sent, runAll (cws.map (.txdmr ch)) s = .next t ∧ t.netout = s.netout ++ sent ∧ sent.length = m + 1 ∧
      (∀ k r, sent[k]? = some r → r.dmrSeq = some (BitVec.ofNat 32 k) ∧ r.sequence.toNat = k % params.seqMod ∧
        r.streamId = x.cs.txStreamId ∧
        (k = 0 → r.kind = .dmrVhdr ∧ r.body = params.dmrLcBurst .vhdr (lcOf x)) ∧
        (0 < k → r.kind = .dmrVoice ∧ r.dmrN = some (BitVec.ofNat 3 ((k - 1) % 6)) ∧
          (r.syncFrame = true ↔ (k - 1) % 6 = 0) ∧
          dmrVoiceExtract r.body =
            cws.getD (3 * (k - 1)) [] ++ (cws.getD (3 * (k - 1) + 1) [] ++ cws.getD (3 * (k - 1) + 2) []))) ∧
      (t.chan params ch.toNat).cs.dmrSeqNo = BitVec.ofNat 32 (m + 1)

/-! ## Inbound frames: what turns one away -/

/-- 10_state.md R21, 42_p25_framer.md R170 and 43_dmr_framer.md R200, part 1: the step on a channel that the event does
not reach writes nothing, whether the slot is not valid, not configured, or on another system, talkgroup or timeslot. -/
def Obligations.UnreachedChannelUntouched : Prop :=
  ∀ (s : State) (ev : RxEvent), ev.data.length < 65536 →
    (∀ cls kind, ¬ReachesP25 (s.chan params s.turn) ev → exec (rxp25 cls kind ev) s = .next (nextTurn s s)) ∧
    ∀ cls kind slot, (slot = 1 ∨ slot = 2) → ¬ReachesDmr (s.chan params s.turn) slot ev →
      exec (rxdmr cls kind slot ev) s = .next (nextTurn s s)

/-- 60_exceptions.md R256: a malformed frame is dropped silently: nothing at all is written, on any channel. -/
def Obligations.MalformedFrameChangesNothing : Prop :=
  ∀ (s : State) (ev : RxEvent), ev.data.length < 65536 →
    (p25Valid params .ldu1 ev.data = false → exec (.rxp25Ldu1 ev) s = .next (nextTurn s s)) ∧
    (p25Valid params .ldu2 ev.data = false → exec (.rxp25Ldu2 ev) s = .next (nextTurn s s)) ∧
    (ev.data.length < params.dmrBodyOff + 33 → ∀ slot, (slot = 1 ∨ slot = 2) →
      exec (.rxdmrVoice slot ev) s = .next (nextTurn s s) ∧ exec (.rxdmrVhdr slot ev) s = .next (nextTurn s s) ∧
      exec (.rxdmrPihdr slot ev) s = .next (nextTurn s s))

/-- 60_exceptions.md R259: a frame the filter drops leaves one DROP record, and every register as it was; that holds for
every class, terminators included. -/
def Obligations.FilteredFrameOnlyLogged : Prop :=
  ∀ (s : State) (ev : RxEvent) (r : DropReason), ev.data.length < 65536 →
    let c := s.turn
    let x := s.chan params c
    dupCheck s.chans ev c x = some r →
    let dropped := nextTurn s
      { s with evt := s.evt ++ [{ ch := BitVec.ofNat 16 c, info := .drop r ev.streamId }] }
    (∀ cls kind, ReachesP25 x ev → p25Accepts params cls ev.data = true →
      exec (rxp25 cls kind ev) s = .next dropped) ∧
    (∀ cls kind slot, (slot = 1 ∨ slot = 2) → ReachesDmr x slot ev → dmrValid params cls ev.data = true →
      exec (rxdmr cls kind slot ev) s = .next dropped)

/-- 45_call_tracker.md R232: the first of the three conditions, in their order; stream id zero matches nothing. -/
def Obligations.FilterReportsFirstReason : Prop :=
  ∀ (s : State) (ev : RxEvent) (c : Nat) (x : Chan),
    let cross := ∃ p ∈ s.chans, p.1 ≠ c ∧ p.2.valid = true ∧ p.2.cfg.set = true ∧ p.2.cs.rxStreamId = ev.streamId
    let stale := x.cs.rxStreamId = ev.streamId ∧ ev.peerId ≠ x.cs.peerId
    let loop := ∃ p ∈ s.chans, p.2.valid = true ∧ p.2.cfg.set = true ∧ p.2.cs.txStreamId = ev.streamId
    (dupCheck s.chans ev c x = some .dupCross ↔ ev.streamId ≠ 0 ∧ cross) ∧
    (dupCheck s.chans ev c x = some .dupStale ↔ ev.streamId ≠ 0 ∧ ¬cross ∧ stale) ∧
    (dupCheck s.chans ev c x = some .loopback ↔ ev.streamId ≠ 0 ∧ ¬cross ∧ ¬stale ∧ loop) ∧
    (dupCheck s.chans ev c x = none ↔ ev.streamId = 0 ∨ (¬cross ∧ ¬stale ∧ ¬loop))

/-- 60_exceptions.md R266 (3): an RXDMR command whose `slot` is not 1 or 2 is refused, and takes no step. -/
def Obligations.IllegalSlotRefused : Prop :=
  ∀ (s : State) (cls : DmrClass) (kind slot : BitVec 8) (ev : RxEvent), ev.data.length < 65536 → slot ≠ 1 → slot ≠ 2 →
    exec (rxdmr cls kind slot ev) s = .next { refusedAs s .badArg 0xFFFF 0x31 with turn := 0 }

/-! ## Inbound frames: what an accepted one does -/

/-- 42_p25_framer.md R173 with R170 and R172: an LDU1 the channel accepts. While receiving (its own frame may have
started the call) it is taken apart, decrypted and decoded; otherwise only the time and the SlotStatus are written. -/
def Obligations.Ldu1IsDecoded : Prop :=
  ∀ (s : State) (c : Nat) (x : Chan) (ev : RxEvent), AcceptedP25 s c x ev → p25Valid params .ldu1 ev.data = true →
    let k := tracked s c x ev .p25 .p25
    (k.ch.cs.isReceiving = true →
      exec (.rxp25Ldu1 ev) s = .next (nextTurn s (stepEnds s c (ldu1Ends s c k.ch k.evt ev)))) ∧
    (k.ch.cs.isReceiving = false →
      exec (.rxp25Ldu1 ev) s =
        .next (nextTurn s (stepEnds s c (quiet s (observed k.ch ev .p25 (.p25 .ldu1)) k.evt))))

/-- 42_p25_framer.md R175 with R176 and R177: an LDU2 the channel accepts; the MI is chosen by the errors of the pass
before, the codewords meet the old seed, and the engine is re-seeded at the end. -/
def Obligations.Ldu2IsDecodedThenReseeds : Prop :=
  ∀ (s : State) (c : Nat) (x : Chan) (ev : RxEvent), AcceptedP25 s c x ev → p25Valid params .ldu2 ev.data = true →
    let k := tracked s c x ev .p25 .p25
    (k.ch.cs.isReceiving = true →
      exec (.rxp25Ldu2 ev) s = .next (nextTurn s (stepEnds s c (ldu2Ends s c k.ch k.evt ev)))) ∧
    (k.ch.cs.isReceiving = false →
      exec (.rxp25Ldu2 ev) s =
        .next (nextTurn s (stepEnds s c (quiet s (observed k.ch ev .p25 (.p25 .ldu2)) k.evt))))

/-- 42_p25_framer.md R178, 45_call_tracker.md R236, R237: a terminator ends the call in progress once, and starts none. -/
def Obligations.P25TerminatorEndsCall : Prop :=
  ∀ (s : State) (c : Nat) (x : Chan) (ev : RxEvent), AcceptedP25 s c x ev →
    let k := if x.cs.isReceiving = true ∧ x.slotP25.frameType.isTerm = false
      then ended c x (callStatus x) ev.now .terminated else { ch := x, evt := [] }
    exec (.rxp25Term ev) s = .next (nextTurn s (stepEnds s c (quiet s
      { k.ch with
        cs := { k.ch.cs with lastPacketTime := ev.now }
        slotP25 := { x.slotP25 with
          created := true, srcId := ev.srcId, dstId := ev.dstId, frameType := .p25 .term, streamId := ev.streamId } }
      k.evt)))

/-- 42_p25_framer.md R179, 45_call_tracker.md R233 to R235: a frame of any other class carries no voice, and starts a
call when its stream is not the last-known one, whether or not another call is in progress. -/
def Obligations.P25OtherFrameTracks : Prop :=
  ∀ (s : State) (c : Nat) (x : Chan) (kind : BitVec 8) (ev : RxEvent), AcceptedP25 s c x ev →
    let k := tracked s c x ev .p25 .p25
    exec (.rxp25Other kind ev) s =
      .next (nextTurn s (stepEnds s c (quiet s (observed k.ch ev .p25 (.p25 .other)) k.evt)))

/-- 43_dmr_framer.md R203 with R200: the three codewords of a voice frame go to the vocoder in order, while the channel
is receiving. -/
def Obligations.DmrVoiceIsDecoded : Prop :=
  ∀ (s : State) (c : Nat) (x : Chan) (slot : BitVec 8) (ev : RxEvent), AcceptedDmr s c x slot ev →
    params.dmrBodyOff + 33 ≤ ev.data.length →
    let r := dmrSlot slot
    let k := tracked s c x ev r .dmr
    let a := dmrVoiceExtract (readAt ev.data params.dmrBodyOff 33)
    exec (.rxdmrVoice slot ev) s = .next (nextTurn s (stepEnds s c
      { quiet s (observed k.ch ev r (.dmr .voice)) k.evt with
        voc :=
          if k.ch.cs.isReceiving then
            vocOf c x .dmr [readAt a 0 params.ambeLen, readAt a params.ambeLen params.ambeLen,
              readAt a (params.ambeLen * 2) params.ambeLen]
          else [] }))

/-- 43_dmr_framer.md R204: a voice header's Link Control is kept, receiving or not; one that does not parse changes
nothing of it. -/
def Obligations.DmrVoiceHeaderIsKept : Prop :=
  ∀ (s : State) (c : Nat) (x : Chan) (slot : BitVec 8) (ev : RxEvent), AcceptedDmr s c x slot ev →
    params.dmrBodyOff + 33 ≤ ev.data.length →
    let r := dmrSlot slot
    let k := tracked s c x ev r .dmr
    let lc := match params.dmrLcParse .vhdr (readAt ev.data params.dmrBodyOff 33) with
      | some lc => some lc
      | none => (k.ch.status r).lc
    exec (.rxdmrVhdr slot ev) s = .next (nextTurn s (stepEnds s c
      (quiet s (observed (k.ch.setStatus r { k.ch.status r with lc := lc }) ev r (.dmr .vhdr)) k.evt)))

/-- 43_dmr_framer.md R205: a privacy header's Link Control is kept in the same way, and no crypto state is touched. -/
def Obligations.DmrPrivacyHeaderIsKept : Prop :=
  ∀ (s : State) (c : Nat) (x : Chan) (slot : BitVec 8) (ev : RxEvent), AcceptedDmr s c x slot ev →
    params.dmrBodyOff + 33 ≤ ev.data.length →
    let r := dmrSlot slot
    let k := tracked s c x ev r .dmr
    let pi := match params.dmrPiParse (readAt ev.data params.dmrBodyOff 33) with
      | some p => some p
      | none => (k.ch.status r).pi
    exec (.rxdmrPihdr slot ev) s = .next (nextTurn s (stepEnds s c
      (quiet s (observed (k.ch.setStatus r { k.ch.status r with pi := pi }) ev r (.dmr .pihdr)) k.evt)))

/-- 43_dmr_framer.md R206, 45_call_tracker.md R236, R237. -/
def Obligations.DmrTerminatorEndsCall : Prop :=
  ∀ (s : State) (c : Nat) (x : Chan) (slot : BitVec 8) (ev : RxEvent), AcceptedDmr s c x slot ev →
    let r := dmrSlot slot
    let k := if x.cs.isReceiving = true ∧ (x.status r).frameType.isTerm = false
      then ended c x (callStatus x) ev.now .terminated else { ch := x, evt := [] }
    exec (.rxdmrTerm slot ev) s = .next (nextTurn s (stepEnds s c (quiet s
      ({ k.ch with cs := { k.ch.cs with lastPacketTime := ev.now } }.setStatus r { x.status r with
        created := true, srcId := ev.srcId, dstId := ev.dstId, frameType := .dmr .term, streamId := ev.streamId })
      k.evt)))

/-- 43_dmr_framer.md R207, 45_call_tracker.md R233 to R235. -/
def Obligations.DmrOtherFrameTracks : Prop :=
  ∀ (s : State) (c : Nat) (x : Chan) (kind slot : BitVec 8) (ev : RxEvent), AcceptedDmr s c x slot ev →
    let r := dmrSlot slot
    let k := tracked s c x ev r .dmr
    exec (.rxdmrOther kind slot ev) s =
      .next (nextTurn s (stepEnds s c (quiet s (observed k.ch ev r (.dmr .other)) k.evt)))

/-- The source's property S8 (42_p25_framer.md R173 case 1): a header-data-unit LDU1 of a new stream starts a call and
leaves the algorithm, key id and MI of its header, although the call's start cleared the MI. -/
def Obligations.HeaderLdu1GivesFreshMi : Prop :=
  ∀ (s : State) (c : Nat) (x : Chan) (ev : RxEvent), AcceptedP25 s c x ev → p25Valid params .ldu1 ev.data = true →
    hasHdu params ev.data = true → ev.streamId ≠ x.slotP25.streamId →
    ∃ t, exec (.rxp25Ldu1 ev) s = .next t ∧
      (let y := t.chan params c
       y.cs.isReceiving = true ∧ y.cs.rxStreamId = ev.streamId ∧ y.cs.peerId = ev.peerId ∧
       y.cs.algId = byteAt ev.data params.p25HduAlgOff ∧ y.cs.keyId = field 16 ev.data params.p25HduKidOff 2 ∧
       y.cs.mi = readAt ev.data params.p25HduMiOff 9 ∧
       y.slotP25.startTime = ev.now ∧ y.slotP25.streamId = ev.streamId) ∧
      t.vocout.length = s.vocout.length + 9

/-- The source's property S6 (45_call_tracker.md R239 (1)), for any number of channels and for both protocols: the frames
of one stream from one peer, each stepped on every channel in ascending index, in a block where no channel holds the
stream: the lowest channel they reach receives it, every other channel is as before, and a channel that some of the
frames reach has one cross-channel DROP for each of those and no other record. -/
def Obligations.DuplicateStreamTakenOnce : Prop :=
  ∀ (s : State) (a : Nat) (id peer : BitVec 32) (frames : List Frame), a < params.nch → id ≠ 0 → frames ≠ [] →
    (∀ p ∈ s.chans, p.2.cs.rxStreamId ≠ id ∧ p.2.cs.txStreamId ≠ id) →
    (∀ f ∈ frames, f.Sound ∧ f.event.streamId = id ∧ f.event.peerId = peer ∧ f.hits (s.chan params a) = true ∧
      f.lastStream (s.chan params a) ≠ id ∧ ∀ d, d < a → f.hits (s.chan params d) = false) →
    ∃ t, deliverAll (frames.map Frame.instr) s = .next t ∧
      (t.chan params a).cs.isReceiving = true ∧ (t.chan params a).cs.rxStreamId = id ∧
      (t.chan params a).cs.peerId = peer ∧
      ∀ d, d < params.nch → d ≠ a → t.chan params d = s.chan params d ∧
        (t.evt.drop s.evt.length).filter (fun r => r.ch == BitVec.ofNat 16 d) =
          List.replicate (frames.countP fun f => f.hits (s.chan params d))
            { ch := BitVec.ofNat 16 d, info := .drop .dupCross id }

/-! ## The supervisor (45_call_tracker.md) -/

/-- R240: the step on a channel that is valid, configured and receiving and whose last frame is more than 2000 ms old ends
the call with cause TIMED_OUT; on every other channel, a slot that is not valid included, the step writes nothing. -/
def Obligations.TickEndsStaleCall : Prop :=
  ∀ (s : State) (now : BitVec 64),
    let c := s.turn
    let x := s.chan params c
    let due := x.valid = true ∧ x.cfg.set = true ∧ x.cs.isReceiving = true ∧
      x.cs.lastPacketTime.toNat + 2000 < now.toNat
    (due → exec (.tick now) s = .next (nextTurn s (stepEnds s c
      (quiet s (ended c x (callStatus x) now .timedOut).ch (ended c x (callStatus x) now .timedOut).evt)))) ∧
    (¬due → exec (.tick now) s = .next (nextTurn s s))

/-- The source's property S7: the time-out of a call is reported once: whatever a later TICK brings, its step on the
channel writes nothing. -/
def Obligations.TimeoutReportedOnce : Prop :=
  ∀ (s : State) (now later : BitVec 64),
    let c := s.turn
    let x := s.chan params c
    x.valid = true → x.cfg.set = true → x.cs.isReceiving = true → x.cs.lastPacketTime.toNat + 2000 < now.toNat →
    ∃ t, exec (.tick now) s = .next t ∧ t.evt.length = s.evt.length + 1 ∧
      (t.chan params c).cs.isReceiving = false ∧
      exec (.tick later) { t with turn := s.turn } = .next t

/-! ## The whole machine -/

/-- 10_state.md R22, R23, R25, R26, R28 hold after every step of a state in which they hold: the position counters stay
in their ranges, the buffers keep their sizes, an idle channel holds zeros where R23 (f) and (g) say so, a seeded engine
has every window, and the channel array and key store keep their canonical form; besides, the model's own `turn` is 0
between steps and a presented command's `next` is below NCH (log 2, log 3). -/
def Obligations.StepKeepsInvariant : Prop :=
  ∀ s t : State, BlockInv s → step s = .next t → BlockInv t

/-- The invariant holds after reset, and there the channel array and the key store list nothing. -/
def Obligations.ResetHasInvariant : Prop := BlockInv State.reset

/-- 70_reset_and_hazards.md R288, 44_sequencer.md R223: no step of RXP25, RXDMR or TICK writes a transmit register, a
configuration register or a key of any channel, or puts out a message. -/
def Obligations.ReceiveLeavesTransmitSide : Prop :=
  ∀ (i : Instr) (s t : State), Inbound i → exec i s = .next t →
    t.netout = s.netout ∧ t.rsp = s.rsp ∧ t.keys = s.keys ∧
    ∀ d, SameTransmit (s.chan params d) (t.chan params d) ∧ (t.chan params d).cfg = (s.chan params d).cfg ∧
      (t.chan params d).valid = (s.chan params d).valid

/-- 10_state.md R22, R27: no transmit or crypto operation writes a receive register or a SlotStatus of any channel, or
hands a codeword to the vocoder. -/
def Obligations.TransmitLeavesReceiveSide : Prop :=
  ∀ (i : Instr) (s t : State), exec i s = .next t → ¬Inbound i → ¬Manages i →
    t.vocout = s.vocout ∧ ∀ d, SameReceive (s.chan params d) (t.chan params d) ∧
      (t.chan params d).cfg = (s.chan params d).cfg ∧ (t.chan params d).valid = (s.chan params d).valid

/-- 10_state.md R28, R25: the key store is written by KEYLOAD and RESET alone. -/
def Obligations.OnlyKeyloadAndResetWriteKeys : Prop :=
  ∀ (i : Instr) (s t : State), exec i s = .next t → i ≠ .reset → (∀ a k key, i ≠ .keyload a k key) → t.keys = s.keys

/-- 70_reset_and_hazards.md R297, 20_memory.md R70: an operation with a channel operand leaves every other channel and
the key store as they were. -/
def Obligations.OtherChannelsUntouched : Prop :=
  ∀ (i : Instr) (s t : State) (c d : Nat), channelOf i = some c → exec i s = .next t → d ≠ c →
    t.chan params d = s.chan params d ∧ t.keys = s.keys ∧ t.turn = s.turn ∧ t.port = s.port ∧ t.picks = s.picks

/-- 10_state.md R32: the output traces are append-only; RESET alone empties them. -/
def Obligations.TracesOnlyGrow : Prop :=
  ∀ (i : Instr) (s t : State), i ≠ .reset → exec i s = .next t →
    s.netout <+: t.netout ∧ s.vocout <+: t.vocout ∧ s.evt <+: t.evt ∧ s.rsp <+: t.rsp

/-- 00_scope.md R12, 60_exceptions.md R270: where the outcome is a refusal, the record is all that is new. -/
def Obligations.RefusalWritesNothing : Prop :=
  ∀ (i : Instr) (s t : State) (ch : BitVec 16) (r : RefuseCode) (op : BitVec 8), exec i s = .next t →
    t.evt = s.evt ++ [{ ch := ch, info := .refused r op }] →
    t = { refusedAs s r ch op with turn := t.turn }

/-- 30_encoding.md R113: the pseudo-operations stand for nine TXP25, three TXDMR, and one end of call. -/
def Obligations.PseudoOperationsExpand : Prop :=
  ∀ (ch : BitVec 16) (cw : Bytes),
    (txldu params ch cw = [.txp25 ch (readAt cw 0 11), .txp25 ch (readAt cw 11 11), .txp25 ch (readAt cw 22 11),
      .txp25 ch (readAt cw 33 11), .txp25 ch (readAt cw 44 11), .txp25 ch (readAt cw 55 11),
      .txp25 ch (readAt cw 66 11), .txp25 ch (readAt cw 77 11), .txp25 ch (readAt cw 88 11)]) ∧
    (txburst params ch cw = [.txdmr ch (readAt cw 0 9), .txdmr ch (readAt cw 9 9), .txdmr ch (readAt cw 18 9)]) ∧
    txend ch true = [.txendp ch 0] ∧ txend ch false = [.txendd ch 0]
end

