-- ==== Sys2Proof/Laws/Bytes.lean ====
section
/-! SUPPORT. The laws of byte strings: lengths, a read after a write, and the integers of R10. -/

namespace Sys2Proof

/-! ## Reads -/

@[simp] theorem zeros_length (n : Nat) : (zeros n).length = n := by simp [zeros]

@[simp] theorem readAt_length (b : Bytes) (off n : Nat) : (readAt b off n).length = n := by
  induction n generalizing off with
  | zero => rfl
  | succ n ih => simp [readAt, ih]

/-- Byte i of a read is byte `off + i` of the string. -/
theorem byteAt_readAt (b : Bytes) (off n i : Nat) (h : i < n) : byteAt (readAt b off n) i = byteAt b (off + i) := by
  induction n generalizing off i with
  | zero => omega
  | succ n ih =>
    cases i with
    | zero => rfl
    | succ i =>
      have := ih (off + 1) i (by omega)
      simp only [readAt, byteAt, List.getD_cons_succ] at this ⊢
      rw [this]; congr 1; omega

/-- A byte string is what its bytes are. -/
theorem ext_byteAt {a b : Bytes} (hl : a.length = b.length) (h : ∀ i, i < a.length → byteAt a i = byteAt b i) : a = b := by
  apply List.ext_getElem hl
  intro i h1 h2
  have := h i h1
  simpa [byteAt, List.getD_eq_getElem?_getD, h1, h2] using this

theorem byteAt_append_left (a b : Bytes) (i : Nat) (h : i < a.length) : byteAt (a ++ b) i = byteAt a i := by
  simp [byteAt, List.getD_eq_getElem?_getD, List.getElem?_append_left h]

theorem byteAt_append_right (a b : Bytes) (i : Nat) (h : a.length ≤ i) :
    byteAt (a ++ b) i = byteAt b (i - a.length) := by
  simp [byteAt, List.getD_eq_getElem?_getD, List.getElem?_append_right h]

theorem byteAt_zeros (n i : Nat) : byteAt (zeros n) i = 0 := by
  unfold byteAt zeros
  rw [List.getD_eq_getElem?_getD, List.getElem?_replicate]
  split <;> rfl

/-- A read is cut in two anywhere. -/
theorem readAt_add (b : Bytes) (off m n : Nat) : readAt b off (m + n) = readAt b off m ++ readAt b (off + m) n := by
  induction m generalizing off with
  | zero => simp [readAt]
  | succ m ih =>
    rw [show m + 1 + n = (m + n) + 1 by omega]
    simp only [readAt, ih, List.cons_append]
    rw [show off + (m + 1) = off + 1 + m by omega]

/-- Two reads that meet the same bytes are equal. -/
theorem readAt_congr {a b : Bytes} {i j n : Nat} (h : ∀ k, k < n → byteAt a (i + k) = byteAt b (j + k)) :
    readAt a i n = readAt b j n := by
  apply ext_byteAt (by simp)
  intro k hk
  rw [readAt_length] at hk
  rw [byteAt_readAt _ _ _ _ hk, byteAt_readAt _ _ _ _ hk, h k hk]

/-- Reading a whole string gives it back. -/
theorem readAt_self (b : Bytes) : readAt b 0 b.length = b := by
  apply ext_byteAt (by simp)
  intro i hi
  rw [readAt_length] at hi
  rw [byteAt_readAt _ _ _ _ hi]; simp

/-- A read past a prefix is a read of the rest. -/
theorem readAt_append_right (a b : Bytes) (off n : Nat) (h : a.length ≤ off) :
    readAt (a ++ b) off n = readAt b (off - a.length) n := by
  apply readAt_congr
  intro k _
  rw [byteAt_append_right _ _ _ (by omega)]; congr 1; omega

/-- A read inside a prefix is a read of the prefix. -/
theorem readAt_append_left (a b : Bytes) (off n : Nat) (h : off + n ≤ a.length) :
    readAt (a ++ b) off n = readAt a off n := by
  apply readAt_congr
  intro k hk
  rw [byteAt_append_left _ _ _ (by omega)]

/-- What follows a prefix is read back. -/
theorem readAt_append_exact (a b : Bytes) (n : Nat) (h : b.length = n) : readAt (a ++ b) a.length n = b := by
  subst h
  rw [readAt_append_right _ _ _ _ (le_refl _), Nat.sub_self, readAt_self]

/-- A read after a first byte. -/
theorem readAt_cons (x : Byte) (b : Bytes) (off n : Nat) : readAt (x :: b) (off + 1) n = readAt b off n := by
  apply readAt_congr
  intro k _
  rw [show off + 1 + k = (off + k) + 1 by omega]; rfl

/-! ## Big-endian integers -/

@[simp] theorem beBytes_length (n v : Nat) : (beBytes n v).length = n := by
  induction n generalizing v with
  | zero => rfl
  | succ n ih => simp [beBytes, ih]

@[simp] theorem be_length {w : Nat} (n : Nat) (v : BitVec w) : (be n v).length = n := beBytes_length _ _

theorem beNat_append_one (b : Bytes) (x : Byte) : beNat (b ++ [x]) = 256 * beNat b + x.toNat := by
  simp [beNat, List.foldl_append]

/-- The integer of a value's bytes is the value, as far as the bytes hold it. -/
theorem beNat_beBytes (n v : Nat) : beNat (beBytes n v) = v % 256 ^ n := by
  induction n generalizing v with
  | zero => simp [beBytes, beNat, Nat.mod_one]
  | succ n ih =>
    rw [beBytes, beNat_append_one, ih, BitVec.toNat_ofNat, show 256 ^ (n + 1) = 256 * 256 ^ n by rw [Nat.pow_succ]; omega,
      Nat.mod_mul]
    omega

theorem beNat_lt (b : Bytes) : beNat b < 256 ^ b.length := by
  induction b using List.reverseRecOn with
  | nil => simp [beNat]
  | append_singleton b x ih =>
    rw [beNat_append_one, List.length_append, List.length_singleton, Nat.pow_succ]
    have := x.isLt
    omega

/-- The bytes of a string's integer are the string. -/
theorem beBytes_beNat (b : Bytes) : beBytes b.length (beNat b) = b := by
  induction b using List.reverseRecOn with
  | nil => rfl
  | append_singleton b x ih =>
    rw [beNat_append_one, List.length_append, List.length_singleton, beBytes]
    have hx := x.isLt
    rw [show (256 * beNat b + x.toNat) / 256 = beNat b by omega, ih]
    congr 2
    apply BitVec.eq_of_toNat_eq
    rw [BitVec.toNat_ofNat]
    omega

/-- A field is the value whose bytes stand there. -/
theorem field_of_readAt {w n : Nat} {b : Bytes} {off : Nat} {v : BitVec w} (hw : 2 ^ w ≤ 256 ^ n)
    (h : readAt b off n = be n v) : field w b off n = v := by
  unfold field
  rw [h, be, beNat_beBytes, Nat.mod_eq_of_lt (lt_of_lt_of_le v.isLt hw)]
  simp

/-- The bytes of a field are those it was read from. -/
theorem be_field {w n : Nat} (b : Bytes) (off : Nat) (hw : 256 ^ n = 2 ^ w) : be n (field w b off n) = readAt b off n := by
  have h := beNat_lt (readAt b off n)
  rw [readAt_length, hw] at h
  unfold be field
  rw [BitVec.toNat_ofNat, Nat.mod_eq_of_lt h]
  have := beBytes_beNat (readAt b off n)
  rwa [readAt_length] at this

/-! ## Writes -/

namespace Machine

@[simp] theorem writeAt_length (b : Bytes) (off : Nat) (v : Bytes) : (writeAt b off v).length = b.length := by
  induction b generalizing off v with
  | nil => cases v <;> rfl
  | cons x b ih =>
    cases v with
    | nil => simp [writeAt]
    | cons y v => cases off <;> simp [writeAt, ih]

/-- A byte outside the written range is as before. -/
theorem byteAt_writeAt_other (b : Bytes) (off : Nat) (v : Bytes) (i : Nat) (h : i < off ∨ off + v.length ≤ i) :
    byteAt (writeAt b off v) i = byteAt b i := by
  induction b generalizing off v i with
  | nil => cases v <;> simp [writeAt]
  | cons x b ih =>
    cases v with
    | nil => simp [writeAt]
    | cons y v =>
      cases off with
      | zero =>
        cases i with
        | zero => simp at h
        | succ i =>
          have := ih 0 v i (by simp at h; omega)
          simpa [writeAt, byteAt] using this
      | succ off =>
        cases i with
        | zero => simp [writeAt, byteAt]
        | succ i =>
          have := ih off (y :: v) i (by simp at h ⊢; omega)
          simpa [writeAt, byteAt] using this

/-- A byte of the written range is the one written. -/
theorem byteAt_writeAt_same (b : Bytes) (off : Nat) (v : Bytes) (i : Nat) (h1 : off ≤ i) (h2 : i < off + v.length)
    (h3 : i < b.length) : byteAt (writeAt b off v) i = byteAt v (i - off) := by
  induction b generalizing off v i with
  | nil => simp at h3
  | cons x b ih =>
    cases v with
    | nil => simp at h2; omega
    | cons y v =>
      cases off with
      | zero =>
        cases i with
        | zero => simp [writeAt, byteAt]
        | succ i =>
          have := ih 0 v i (by omega) (by simp at h2 ⊢; omega) (by simpa using h3)
          simpa [writeAt, byteAt] using this
      | succ off =>
        cases i with
        | zero => omega
        | succ i =>
          have := ih off (y :: v) i (by omega) (by simp at h2 ⊢; omega) (by simpa using h3)
          rw [show i + 1 - (off + 1) = i - off by omega]
          simpa [writeAt, byteAt] using this

/-- A read of the written range gives what was written. -/
theorem readAt_writeAt_same (b : Bytes) (off : Nat) (v : Bytes) (h : off + v.length ≤ b.length) :
    readAt (writeAt b off v) off v.length = v := by
  apply ext_byteAt (by simp)
  intro i hi
  rw [readAt_length] at hi
  rw [byteAt_readAt _ _ _ _ hi, byteAt_writeAt_same _ _ _ _ (by omega) (by omega) (by omega)]
  congr 1; omega

/-- A read apart from the written range is as before. -/
theorem readAt_writeAt_other (b : Bytes) (off : Nat) (v : Bytes) (i n : Nat) (h : i + n ≤ off ∨ off + v.length ≤ i) :
    readAt (writeAt b off v) i n = readAt b i n := by
  apply readAt_congr
  intro k hk
  exact byteAt_writeAt_other _ _ _ _ (by omega)

@[simp] theorem xorBytes_length (a b : Bytes) : (xorBytes a b).length = min a.length b.length := by
  simp [xorBytes]

/-- The same bytes exclusive-ored twice give the string back. -/
theorem xorBytes_twice (a b : Bytes) (h : a.length ≤ b.length) : xorBytes (xorBytes a b) b = a := by
  induction a generalizing b with
  | nil => simp [xorBytes]
  | cons x a ih =>
    cases b with
    | nil => simp at h
    | cons y b =>
      have := ih b (by simpa using h)
      simp only [xorBytes, List.zipWith_cons_cons] at this ⊢
      rw [this, BitVec.xor_assoc, BitVec.xor_self, BitVec.xor_zero]

end Machine

end Sys2Proof
end

