-- ==== Sys2Proof/Laws/Maps.lean ====
section
/-! SUPPORT. The laws of the maps that hold the channel array and the key store: a read after a write, the canonical
form. -/

namespace Sys2Proof.Machine

variable {α : Type}

@[simp] theorem mapGet_nil (n : Nat) : mapGet ([] : List (Nat × α)) n = none := rfl

theorem mapGet_mapPut (m : List (Nat × α)) (n j : Nat) (x : α) :
    mapGet (mapPut m n x) j = if j = n then some x else mapGet m j := by
  induction m with
  | nil => simp only [mapPut, mapGet]; split <;> split <;> simp_all
  | cons p m ih =>
    obtain ⟨k, v⟩ := p
    simp only [mapPut]
    split
    · simp only [mapGet]; split_ifs <;> first | rfl | omega
    · split
      · subst_vars; simp only [mapGet]; split_ifs <;> first | rfl | omega
      · simp only [mapGet, ih]; split_ifs <;> first | rfl | omega

theorem mapGet_mapDel (m : List (Nat × α)) (n j : Nat) :
    mapGet (mapDel m n) j = if j = n then none else mapGet m j := by
  induction m with
  | nil => simp [mapDel]
  | cons p m ih =>
    obtain ⟨k, v⟩ := p
    unfold mapDel at ih ⊢
    by_cases hk : k = n
    · subst hk
      simp only [List.filter, bne_self_eq_false, ih, mapGet]
      split_ifs <;> first | rfl | omega
    · simp only [List.filter, bne_iff_ne.mpr hk, mapGet, ih]
      split_ifs <;> first | rfl | omega

/-- Every entry after a write is the one written or one that was there. -/
theorem mem_mapPut {m : List (Nat × α)} {n : Nat} {x : α} {p : Nat × α} (h : p ∈ mapPut m n x) :
    p = (n, x) ∨ p ∈ m := by
  induction m with
  | nil => simpa [mapPut] using h
  | cons q m ih =>
    obtain ⟨k, v⟩ := q
    simp only [mapPut] at h
    split at h
    · simpa using h
    · split at h
      · simp only [List.mem_cons] at h ⊢; tauto
      · simp only [List.mem_cons] at h ⊢
        rcases h with h | h
        · exact .inr (.inl h)
        · rcases ih h with h | h <;> tauto

theorem mem_mapDel {m : List (Nat × α)} {n : Nat} {p : Nat × α} (h : p ∈ mapDel m n) : p ∈ m :=
  List.mem_of_mem_filter h

theorem mapGet_mem {m : List (Nat × α)} {n : Nat} {x : α} (h : mapGet m n = some x) : (n, x) ∈ m := by
  induction m with
  | nil => simp at h
  | cons p m ih =>
    obtain ⟨k, v⟩ := p
    simp only [mapGet] at h
    split at h
    · simp_all
    · exact List.mem_cons_of_mem _ (ih h)

/-! ## The canonical form -/

theorem rising_cons (k : Nat) (v : α) (m : List (Nat × α)) :
    rising ((k, v) :: m) = true ↔ (∀ p ∈ m, k < p.1) ∧ rising m = true := by
  induction m generalizing k v with
  | nil => simp [rising]
  | cons q m ih =>
    obtain ⟨j, y⟩ := q
    simp only [rising, Bool.and_eq_true, decide_eq_true_eq, List.mem_cons, forall_eq_or_imp]
    rw [ih]
    constructor
    · rintro ⟨h, h1, h2⟩; exact ⟨⟨h, fun p hp => lt_trans h (h1 p hp)⟩, h1, h2⟩
    · rintro ⟨⟨h, _⟩, h1, h2⟩; exact ⟨h, h1, h2⟩

/-- A write keeps the canonical form. -/
theorem rising_mapPut {m : List (Nat × α)} (h : rising m = true) (n : Nat) (x : α) : rising (mapPut m n x) = true := by
  induction m with
  | nil => rfl
  | cons p m ih =>
    obtain ⟨k, v⟩ := p
    have hm := (rising_cons k v m).mp h
    simp only [mapPut]
    split
    · rename_i hn
      rw [rising_cons]
      refine ⟨?_, h⟩
      intro q hq
      rcases List.mem_cons.mp hq with rfl | hq
      · exact hn
      · exact lt_trans hn (hm.1 q hq)
    · split
      · subst_vars; rw [rising_cons]; exact hm
      · rw [rising_cons]
        refine ⟨?_, ih hm.2⟩
        intro q hq
        rcases mem_mapPut hq with rfl | hq
        · simp only; omega
        · exact hm.1 q hq

/-- Taking an entry out keeps the canonical form. -/
theorem rising_mapDel {m : List (Nat × α)} (h : rising m = true) (n : Nat) : rising (mapDel m n) = true := by
  induction m with
  | nil => rfl
  | cons p m ih =>
    obtain ⟨k, v⟩ := p
    have hm := (rising_cons k v m).mp h
    unfold mapDel at ih ⊢
    simp only [List.filter]
    split
    · rw [rising_cons]; exact ⟨fun q hq => hm.1 q (List.mem_of_mem_filter hq), ih hm.2⟩
    · exact ih hm.2

end Sys2Proof.Machine
end

