-- ==== Sys2Proof/Laws/State.lean ====
section
/-! SUPPORT. One lemma per field per update of the state and of a step's work, so that no later proof unfolds a record
update. -/

namespace Sys2Proof.Machine

/-! ## Reads of a channel slot after a SlotStatus write -/

@[simp] theorem Chan.setStatus_valid (x : Chan) (r : SlotRef) (v : SlotStatus) : (x.setStatus r v).valid = x.valid := by
  cases r <;> rfl

@[simp] theorem Chan.setStatus_cfg (x : Chan) (r : SlotRef) (v : SlotStatus) : (x.setStatus r v).cfg = x.cfg := by
  cases r <;> rfl

@[simp] theorem Chan.setStatus_cs (x : Chan) (r : SlotRef) (v : SlotStatus) : (x.setStatus r v).cs = x.cs := by
  cases r <;> rfl

@[simp] theorem Chan.setStatus_eng (x : Chan) (r : SlotRef) (v : SlotStatus) : (x.setStatus r v).eng = x.eng := by
  cases r <;> rfl

@[simp] theorem Chan.status_setStatus_same (x : Chan) (r : SlotRef) (v : SlotStatus) : (x.setStatus r v).status r = v := by
  cases r <;> rfl

theorem Chan.status_setStatus_other (x : Chan) (r q : SlotRef) (v : SlotStatus) (h : q ≠ r) :
    (x.setStatus r v).status q = x.status q := by
  cases r <;> cases q <;> first | rfl | exact absurd rfl h

@[simp] theorem Chan.setStatus_setStatus (x : Chan) (r : SlotRef) (u v : SlotStatus) :
    (x.setStatus r u).setStatus r v = x.setStatus r v := by
  cases r <;> rfl

@[simp] theorem Chan.setStatus_matches (x : Chan) (r : SlotRef) (v : SlotStatus) (ev : RxEvent) :
    (x.setStatus r v).matchesP25 ev = x.matchesP25 ev := by
  cases r <;> rfl

/-! ## Updates of a step's work -/

@[simp] theorem Work.setCs_valid (w : Work) (v : ChannelState) : (w.setCs v).ch.valid = w.ch.valid := rfl

@[simp] theorem Work.setCs_cfg (w : Work) (v : ChannelState) : (w.setCs v).ch.cfg = w.ch.cfg := rfl

@[simp] theorem Work.setCs_cs (w : Work) (v : ChannelState) : (w.setCs v).ch.cs = v := rfl

@[simp] theorem Work.setCs_eng (w : Work) (v : ChannelState) : (w.setCs v).ch.eng = w.ch.eng := rfl

@[simp] theorem Work.setCs_slotP25 (w : Work) (v : ChannelState) : (w.setCs v).ch.slotP25 = w.ch.slotP25 := rfl

@[simp] theorem Work.setCs_slotDmr1 (w : Work) (v : ChannelState) : (w.setCs v).ch.slotDmr1 = w.ch.slotDmr1 := rfl

@[simp] theorem Work.setCs_slotDmr2 (w : Work) (v : ChannelState) : (w.setCs v).ch.slotDmr2 = w.ch.slotDmr2 := rfl

@[simp] theorem Work.setCs_draws (w : Work) (v : ChannelState) : (w.setCs v).draws = w.draws := rfl

@[simp] theorem Work.setCs_net (w : Work) (v : ChannelState) : (w.setCs v).net = w.net := rfl

@[simp] theorem Work.setCs_voc (w : Work) (v : ChannelState) : (w.setCs v).voc = w.voc := rfl

@[simp] theorem Work.setCs_evt (w : Work) (v : ChannelState) : (w.setCs v).evt = w.evt := rfl

@[simp] theorem Work.setCs_rsp (w : Work) (v : ChannelState) : (w.setCs v).rsp = w.rsp := rfl

@[simp] theorem Work.setCs_status (w : Work) (v : ChannelState) (r : SlotRef) : (w.setCs v).ch.status r = w.ch.status r := by
  cases r <;> rfl

@[simp] theorem Work.setEng_valid (w : Work) (v : Engine) : (w.setEng v).ch.valid = w.ch.valid := rfl

@[simp] theorem Work.setEng_cfg (w : Work) (v : Engine) : (w.setEng v).ch.cfg = w.ch.cfg := rfl

@[simp] theorem Work.setEng_cs (w : Work) (v : Engine) : (w.setEng v).ch.cs = w.ch.cs := rfl

@[simp] theorem Work.setEng_eng (w : Work) (v : Engine) : (w.setEng v).ch.eng = v := rfl

@[simp] theorem Work.setEng_slotP25 (w : Work) (v : Engine) : (w.setEng v).ch.slotP25 = w.ch.slotP25 := rfl

@[simp] theorem Work.setEng_slotDmr1 (w : Work) (v : Engine) : (w.setEng v).ch.slotDmr1 = w.ch.slotDmr1 := rfl

@[simp] theorem Work.setEng_slotDmr2 (w : Work) (v : Engine) : (w.setEng v).ch.slotDmr2 = w.ch.slotDmr2 := rfl

@[simp] theorem Work.setEng_draws (w : Work) (v : Engine) : (w.setEng v).draws = w.draws := rfl

@[simp] theorem Work.setEng_net (w : Work) (v : Engine) : (w.setEng v).net = w.net := rfl

@[simp] theorem Work.setEng_voc (w : Work) (v : Engine) : (w.setEng v).voc = w.voc := rfl

@[simp] theorem Work.setEng_evt (w : Work) (v : Engine) : (w.setEng v).evt = w.evt := rfl

@[simp] theorem Work.setEng_rsp (w : Work) (v : Engine) : (w.setEng v).rsp = w.rsp := rfl

@[simp] theorem Work.setEng_status (w : Work) (v : Engine) (r : SlotRef) : (w.setEng v).ch.status r = w.ch.status r := by
  cases r <;> rfl

@[simp] theorem Work.setStatus_valid (w : Work) (r : SlotRef) (v : SlotStatus) : (w.setStatus r v).ch.valid = w.ch.valid := by cases r <;> rfl

@[simp] theorem Work.setStatus_cfg (w : Work) (r : SlotRef) (v : SlotStatus) : (w.setStatus r v).ch.cfg = w.ch.cfg := by cases r <;> rfl

@[simp] theorem Work.setStatus_cs (w : Work) (r : SlotRef) (v : SlotStatus) : (w.setStatus r v).ch.cs = w.ch.cs := by cases r <;> rfl

@[simp] theorem Work.setStatus_eng (w : Work) (r : SlotRef) (v : SlotStatus) : (w.setStatus r v).ch.eng = w.ch.eng := by cases r <;> rfl

@[simp] theorem Work.setStatus_draws (w : Work) (r : SlotRef) (v : SlotStatus) : (w.setStatus r v).draws = w.draws := rfl

@[simp] theorem Work.setStatus_net (w : Work) (r : SlotRef) (v : SlotStatus) : (w.setStatus r v).net = w.net := rfl

@[simp] theorem Work.setStatus_voc (w : Work) (r : SlotRef) (v : SlotStatus) : (w.setStatus r v).voc = w.voc := rfl

@[simp] theorem Work.setStatus_evt (w : Work) (r : SlotRef) (v : SlotStatus) : (w.setStatus r v).evt = w.evt := rfl

@[simp] theorem Work.setStatus_rsp (w : Work) (r : SlotRef) (v : SlotStatus) : (w.setStatus r v).rsp = w.rsp := rfl

@[simp] theorem Work.setStatus_status (w : Work) (r : SlotRef) (v : SlotStatus) : (w.setStatus r v).ch.status r = v := by
  cases r <;> rfl

@[simp] theorem Work.draw_ch (w : Work) : w.draw.ch = w.ch := rfl

@[simp] theorem Work.draw_draws (w : Work) : w.draw.draws = w.draws + 1 := rfl

@[simp] theorem Work.draw_net (w : Work) : w.draw.net = w.net := rfl

@[simp] theorem Work.draw_voc (w : Work) : w.draw.voc = w.voc := rfl

@[simp] theorem Work.draw_evt (w : Work) : w.draw.evt = w.evt := rfl

@[simp] theorem Work.draw_rsp (w : Work) : w.draw.rsp = w.rsp := rfl

@[simp] theorem Work.emitEvt_ch (w : Work) (c : Nat) (i : EvtInfo) : (w.emitEvt c i).ch = w.ch := rfl

@[simp] theorem Work.emitEvt_draws (w : Work) (c : Nat) (i : EvtInfo) : (w.emitEvt c i).draws = w.draws := rfl

@[simp] theorem Work.emitEvt_net (w : Work) (c : Nat) (i : EvtInfo) : (w.emitEvt c i).net = w.net := rfl

@[simp] theorem Work.emitEvt_voc (w : Work) (c : Nat) (i : EvtInfo) : (w.emitEvt c i).voc = w.voc := rfl

@[simp] theorem Work.emitEvt_evt (w : Work) (c : Nat) (i : EvtInfo) : (w.emitEvt c i).evt = w.evt ++
    [{ ch := chId c, info := i }] := rfl

@[simp] theorem Work.emitEvt_rsp (w : Work) (c : Nat) (i : EvtInfo) : (w.emitEvt c i).rsp = w.rsp := rfl

@[simp] theorem Work.emitVoc_ch (w : Work) (c : Nat) (p : Proto) (cw : Bytes) : (w.emitVoc c p cw).ch = w.ch := rfl

@[simp] theorem Work.emitVoc_draws (w : Work) (c : Nat) (p : Proto) (cw : Bytes) : (w.emitVoc c p cw).draws = w.draws := rfl

@[simp] theorem Work.emitVoc_net (w : Work) (c : Nat) (p : Proto) (cw : Bytes) : (w.emitVoc c p cw).net = w.net := rfl

@[simp] theorem Work.emitVoc_voc (w : Work) (c : Nat) (p : Proto) (cw : Bytes) : (w.emitVoc c p cw).voc = w.voc ++
    [{ ch := chId c, talkgroupId := w.ch.cfg.dstId, proto := p, cw := cw }] := rfl

@[simp] theorem Work.emitVoc_evt (w : Work) (c : Nat) (p : Proto) (cw : Bytes) : (w.emitVoc c p cw).evt = w.evt := rfl

@[simp] theorem Work.emitVoc_rsp (w : Work) (c : Nat) (p : Proto) (cw : Bytes) : (w.emitVoc c p cw).rsp = w.rsp := rfl

@[simp] theorem Work.emitRsp_ch (w : Work) (c : Nat) (op : BitVec 8) (b : Bytes) : (w.emitRsp c op b).ch = w.ch := rfl

@[simp] theorem Work.emitRsp_draws (w : Work) (c : Nat) (op : BitVec 8) (b : Bytes) : (w.emitRsp c op b).draws = w.draws := rfl

@[simp] theorem Work.emitRsp_net (w : Work) (c : Nat) (op : BitVec 8) (b : Bytes) : (w.emitRsp c op b).net = w.net := rfl

@[simp] theorem Work.emitRsp_voc (w : Work) (c : Nat) (op : BitVec 8) (b : Bytes) : (w.emitRsp c op b).voc = w.voc := rfl

@[simp] theorem Work.emitRsp_evt (w : Work) (c : Nat) (op : BitVec 8) (b : Bytes) : (w.emitRsp c op b).evt = w.evt := rfl

@[simp] theorem Work.emitRsp_rsp (w : Work) (c : Nat) (op : BitVec 8) (b : Bytes) : (w.emitRsp c op b).rsp = w.rsp ++
    [{ ch := chId c, op := op, bytes := b }] := rfl

/-! ## Updates of the state -/

@[simp] theorem State.refuse_chans (s : State) (r : RefuseCode) (ch : BitVec 16) (op : BitVec 8) :
    (s.refuse r ch op).chans = s.chans := rfl

@[simp] theorem State.dropFrame_chans (s : State) (c : Nat) (r : DropReason) (sid : BitVec 32) :
    (s.dropFrame c r sid).chans = s.chans := rfl

@[simp] theorem State.refuse_keys (s : State) (r : RefuseCode) (ch : BitVec 16) (op : BitVec 8) :
    (s.refuse r ch op).keys = s.keys := rfl

@[simp] theorem State.dropFrame_keys (s : State) (c : Nat) (r : DropReason) (sid : BitVec 32) :
    (s.dropFrame c r sid).keys = s.keys := rfl

@[simp] theorem State.refuse_netout (s : State) (r : RefuseCode) (ch : BitVec 16) (op : BitVec 8) :
    (s.refuse r ch op).netout = s.netout := rfl

@[simp] theorem State.dropFrame_netout (s : State) (c : Nat) (r : DropReason) (sid : BitVec 32) :
    (s.dropFrame c r sid).netout = s.netout := rfl

@[simp] theorem State.refuse_vocout (s : State) (r : RefuseCode) (ch : BitVec 16) (op : BitVec 8) :
    (s.refuse r ch op).vocout = s.vocout := rfl

@[simp] theorem State.dropFrame_vocout (s : State) (c : Nat) (r : DropReason) (sid : BitVec 32) :
    (s.dropFrame c r sid).vocout = s.vocout := rfl

@[simp] theorem State.refuse_rsp (s : State) (r : RefuseCode) (ch : BitVec 16) (op : BitVec 8) :
    (s.refuse r ch op).rsp = s.rsp := rfl

@[simp] theorem State.dropFrame_rsp (s : State) (c : Nat) (r : DropReason) (sid : BitVec 32) :
    (s.dropFrame c r sid).rsp = s.rsp := rfl

@[simp] theorem State.refuse_port (s : State) (r : RefuseCode) (ch : BitVec 16) (op : BitVec 8) :
    (s.refuse r ch op).port = s.port := rfl

@[simp] theorem State.dropFrame_port (s : State) (c : Nat) (r : DropReason) (sid : BitVec 32) :
    (s.dropFrame c r sid).port = s.port := rfl

@[simp] theorem State.refuse_turn (s : State) (r : RefuseCode) (ch : BitVec 16) (op : BitVec 8) :
    (s.refuse r ch op).turn = s.turn := rfl

@[simp] theorem State.dropFrame_turn (s : State) (c : Nat) (r : DropReason) (sid : BitVec 32) :
    (s.dropFrame c r sid).turn = s.turn := rfl

@[simp] theorem State.refuse_draws (s : State) (r : RefuseCode) (ch : BitVec 16) (op : BitVec 8) :
    (s.refuse r ch op).draws = s.draws := rfl

@[simp] theorem State.dropFrame_draws (s : State) (c : Nat) (r : DropReason) (sid : BitVec 32) :
    (s.dropFrame c r sid).draws = s.draws := rfl

@[simp] theorem State.refuse_picks (s : State) (r : RefuseCode) (ch : BitVec 16) (op : BitVec 8) :
    (s.refuse r ch op).picks = s.picks := rfl

@[simp] theorem State.dropFrame_picks (s : State) (c : Nat) (r : DropReason) (sid : BitVec 32) :
    (s.dropFrame c r sid).picks = s.picks := rfl

@[simp] theorem State.refuse_evt (s : State) (r : RefuseCode) (ch : BitVec 16) (op : BitVec 8) :
    (s.refuse r ch op).evt = s.evt ++ [{ ch := ch, info := .refused r op }] := rfl

@[simp] theorem State.dropFrame_evt (s : State) (c : Nat) (r : DropReason) (sid : BitVec 32) :
    (s.dropFrame c r sid).evt = s.evt ++ [{ ch := chId c, info := .drop r sid }] := rfl

@[simp] theorem State.setChan_keys (K : Cfg) (s : State) (c : Nat) (x : Chan) : (s.setChan K c x).keys = s.keys := rfl

@[simp] theorem State.setChan_netout (K : Cfg) (s : State) (c : Nat) (x : Chan) : (s.setChan K c x).netout = s.netout := rfl

@[simp] theorem State.setChan_vocout (K : Cfg) (s : State) (c : Nat) (x : Chan) : (s.setChan K c x).vocout = s.vocout := rfl

@[simp] theorem State.setChan_evt (K : Cfg) (s : State) (c : Nat) (x : Chan) : (s.setChan K c x).evt = s.evt := rfl

@[simp] theorem State.setChan_rsp (K : Cfg) (s : State) (c : Nat) (x : Chan) : (s.setChan K c x).rsp = s.rsp := rfl

@[simp] theorem State.setChan_port (K : Cfg) (s : State) (c : Nat) (x : Chan) : (s.setChan K c x).port = s.port := rfl

@[simp] theorem State.setChan_turn (K : Cfg) (s : State) (c : Nat) (x : Chan) : (s.setChan K c x).turn = s.turn := rfl

@[simp] theorem State.setChan_draws (K : Cfg) (s : State) (c : Nat) (x : Chan) : (s.setChan K c x).draws = s.draws := rfl

@[simp] theorem State.setChan_picks (K : Cfg) (s : State) (c : Nat) (x : Chan) : (s.setChan K c x).picks = s.picks := rfl

@[simp] theorem State.commit_chans (K : Cfg) (s : State) (c : Nat) (w : Work) :
    (s.commit K c w).chans = (s.setChan K c w.ch).chans := rfl

@[simp] theorem State.commit_keys (K : Cfg) (s : State) (c : Nat) (w : Work) : (s.commit K c w).keys = s.keys := rfl

@[simp] theorem State.commit_port (K : Cfg) (s : State) (c : Nat) (w : Work) : (s.commit K c w).port = s.port := rfl

@[simp] theorem State.commit_turn (K : Cfg) (s : State) (c : Nat) (w : Work) : (s.commit K c w).turn = s.turn := rfl

@[simp] theorem State.commit_picks (K : Cfg) (s : State) (c : Nat) (w : Work) : (s.commit K c w).picks = s.picks := rfl

@[simp] theorem State.commit_draws (K : Cfg) (s : State) (c : Nat) (w : Work) : (s.commit K c w).draws = w.draws := rfl

@[simp] theorem State.commit_netout (K : Cfg) (s : State) (c : Nat) (w : Work) :
    (s.commit K c w).netout = s.netout ++ w.net := rfl

@[simp] theorem State.commit_vocout (K : Cfg) (s : State) (c : Nat) (w : Work) :
    (s.commit K c w).vocout = s.vocout ++ w.voc := rfl

@[simp] theorem State.commit_evt (K : Cfg) (s : State) (c : Nat) (w : Work) :
    (s.commit K c w).evt = s.evt ++ w.evt := rfl

@[simp] theorem State.commit_rsp (K : Cfg) (s : State) (c : Nat) (w : Work) :
    (s.commit K c w).rsp = s.rsp ++ w.rsp := rfl

@[simp] theorem State.work_ch (K : Cfg) (s : State) (c : Nat) : (s.work K c).ch = s.chan K c := rfl

@[simp] theorem State.work_draws (K : Cfg) (s : State) (c : Nat) : (s.work K c).draws = s.draws := rfl

@[simp] theorem State.work_net (K : Cfg) (s : State) (c : Nat) : (s.work K c).net = [] := rfl

@[simp] theorem State.work_voc (K : Cfg) (s : State) (c : Nat) : (s.work K c).voc = [] := rfl

@[simp] theorem State.work_evt (K : Cfg) (s : State) (c : Nat) : (s.work K c).evt = [] := rfl

@[simp] theorem State.work_rsp (K : Cfg) (s : State) (c : Nat) : (s.work K c).rsp = [] := rfl

end Sys2Proof.Machine
end

