-- ==== Sys2Proof/Machine/Configured.lean ====
section
/-! DEFINITION. The same block under any configuration record, as 00_scope.md R8 asks ("the configuration record `Cfg` the
model takes as an argument"): `exec` and `step` are these at `params`. The host's interface has no place for the
argument. -/

namespace Sys2Proof.Machine

/-- The effect of an instruction under a configuration. -/
def effectOf (K : Cfg) (i : Instr) (s : State) : State :=
  match i with
  | .reset => resetOp s
  | .chinit ch => chinit K ch s
  | .chcfg ch sys srcId dstId slot algoId keyId => chcfg K ch sys srcId dstId slot algoId keyId s
  | .chfree ch => chfree K ch s
  | .keyload algId keyId key => keyload algId keyId key s
  | .cprep ch algId keyId mi => cprep K ch algId keyId mi s
  | .cproc ch role cw => cproc K ch role cw s
  | .ccycle ch => ccycle K ch s
  | .txstart ch => txstart K ch s
  | .txp25 ch cw => txp25 K ch cw s
  | .txdmr ch cw => txdmr K ch cw s
  | .txendp ch cause => txendp K ch cause s
  | .txendd ch cause => txendd K ch cause s
  | .rxp25Ldu1 ev => rxP25 K .ldu1 ev s
  | .rxp25Ldu2 ev => rxP25 K .ldu2 ev s
  | .rxp25Term ev => rxP25 K .term ev s
  | .rxp25Other _ ev => rxP25 K .other ev s
  | .rxdmrVoice slot ev => rxDmr K .voice slot ev s
  | .rxdmrVhdr slot ev => rxDmr K .vhdr slot ev s
  | .rxdmrPihdr slot ev => rxDmr K .pihdr slot ev s
  | .rxdmrTerm slot ev => rxDmr K .term slot ev s
  | .rxdmrOther _ slot ev => rxDmr K .other slot ev s
  | .tick now => overChans (tickStep K now) s

/-- `exec` under a configuration. -/
def execOf (K : Cfg) (i : Instr) (s : State) : Host.Outcome State Fault Refusal := .next (effectOf K i s)

/-- `step` under a configuration. -/
def stepOf (K : Cfg) (s : State) : Host.Outcome State Fault Refusal := stepWith K (execOf K) s

end Sys2Proof.Machine
end

