-- ==== Sys2Proof/Laws/Ops.lean ====
section
/-! SUPPORT. For each shared operation, once, everything it can do: the channel array, a guarded command, the prepare
and the process of the crypto engine, the stamp, the tracker, the iteration over channels, the command port. Later
proofs cite these lemmas and do not unfold the operations. -/

namespace Sys2Proof.Machine

/-! ## The channel array -/

/-- A slot that is listed is what the list says. -/
theorem State.chan_of_listed {K : Cfg} {s : State} {c : Nat} {x : Chan} (h : mapGet s.chans c = some x) :
    s.chan K c = x := by
  simp [State.chan, h]

/-- A valid slot is listed. -/
theorem State.listed_of_valid {K : Cfg} {s : State} {c : Nat} (h : (s.chan K c).valid = true) :
    mapGet s.chans c = some (s.chan K c) := by
  unfold State.chan at h ⊢
  cases hm : mapGet s.chans c with
  | none => rw [hm] at h; cases h
  | some x => rfl

/-- A valid slot is not one after reset, so it is written as an entry. -/
theorem State.setChan_valid {K : Cfg} {s : State} {c : Nat} {x : Chan} (h : x.valid = true) :
    s.setChan K c x = { s with chans := mapPut s.chans c x } := by
  unfold State.setChan
  rw [if_neg]
  rintro rfl
  cases h

/-- A read after a write of the channel array. -/
theorem State.chan_setChan (K : Cfg) (s : State) (c d : Nat) (x : Chan) :
    (s.setChan K c x).chan K d = if d = c then x else s.chan K d := by
  unfold State.setChan State.chan
  simp only
  split
  · subst_vars; rw [mapGet_mapDel]; split <;> rfl
  · rw [mapGet_mapPut]; split <;> rfl

/-- A read after a step's writes. -/
theorem State.chan_commit (K : Cfg) (s : State) (c d : Nat) (w : Work) :
    (s.commit K c w).chan K d = if d = c then w.ch else s.chan K d :=
  State.chan_setChan K s c d w.ch

/-- A step that leaves a valid slot writes its entry and appends its records. -/
theorem State.commit_valid {K : Cfg} {s : State} {c : Nat} {w : Work} (h : w.ch.valid = true) :
    s.commit K c w =
      { s with
        chans := mapPut s.chans c w.ch
        draws := w.draws
        netout := s.netout ++ w.net
        vocout := s.vocout ++ w.voc
        evt := s.evt ++ w.evt
        rsp := s.rsp ++ w.rsp } := by
  unfold State.commit
  rw [State.setChan_valid h]

/-- A write of a well slot below NCH keeps the array's canonical form. -/
theorem chansOk_mapPut {K : Cfg} {m : List (Nat × Chan)} {c : Nat} {x : Chan} (h : chansOk K m = true)
    (hc : c < K.nch) (hx : x.ok K = true) : chansOk K (mapPut m c x) = true := by
  unfold chansOk at h ⊢
  simp only [Bool.and_eq_true, List.all_eq_true, decide_eq_true_eq] at h ⊢
  refine ⟨rising_mapPut h.1 c x, fun p hp => ?_⟩
  rcases mem_mapPut hp with rfl | hp
  · exact ⟨hc, hx⟩
  · exact h.2 p hp

/-- Taking an entry out keeps the array's canonical form. -/
theorem chansOk_mapDel {K : Cfg} {m : List (Nat × Chan)} {c : Nat} (h : chansOk K m = true) :
    chansOk K (mapDel m c) = true := by
  unfold chansOk at h ⊢
  simp only [Bool.and_eq_true, List.all_eq_true, decide_eq_true_eq] at h ⊢
  exact ⟨rising_mapDel h.1 c, fun p hp => h.2 p (mem_mapDel hp)⟩

/-- A write of a key of 1 to 255 bytes keeps the key store's canonical form. -/
theorem keysOk_mapPut {m : List (Nat × Bytes)} {n : Nat} {k : Bytes} (h : keysOk m = true) (h0 : 0 < k.length)
    (h1 : k.length < 256) : keysOk (mapPut m n k) = true := by
  unfold keysOk at h ⊢
  simp only [Bool.and_eq_true, List.all_eq_true, decide_eq_true_eq] at h ⊢
  refine ⟨rising_mapPut h.1 n k, fun p hp => ?_⟩
  rcases mem_mapPut hp with rfl | hp
  · exact ⟨h0, h1⟩
  · exact h.2 p hp

/-- A listed slot of an array in canonical form is well, and its index is below NCH. -/
theorem chansOk_listed {K : Cfg} {m : List (Nat × Chan)} {c : Nat} {x : Chan} (h : chansOk K m = true)
    (hx : mapGet m c = some x) : c < K.nch ∧ x.ok K = true := by
  unfold chansOk at h
  simp only [Bool.and_eq_true, List.all_eq_true, decide_eq_true_eq] at h
  exact h.2 _ (mapGet_mem hx)

/-- The number under which a pair's key is held tells the pairs apart. -/
theorem keyIx_inj {a a' : BitVec 8} {k k' : BitVec 16} (h : keyIx a k = keyIx a' k') : a = a' ∧ k = k' := by
  unfold keyIx at h
  have := k.isLt
  have := k'.isLt
  exact ⟨BitVec.eq_of_toNat_eq (by omega), BitVec.eq_of_toNat_eq (by omega)⟩

/-- A read after a write of the key store. -/
theorem keyOf_mapPut (keys : List (Nat × Bytes)) (a a' : BitVec 8) (k k' : BitVec 16) (key : Bytes) :
    keyOf (mapPut keys (keyIx a k) key) a' k' = if a' = a ∧ k' = k then some key else keyOf keys a' k' := by
  unfold keyOf
  rw [mapGet_mapPut]
  by_cases h : keyIx a' k' = keyIx a k
  · rw [if_pos h, if_pos (keyIx_inj h)]
  · rw [if_neg h, if_neg]
    rintro ⟨rfl, rfl⟩
    exact h rfl

/-! ## A guarded command -/

/-- No check fails exactly when each passes. -/
theorem firstFail_none {checks : List (Bool × RefuseCode)} :
    firstFail checks = none ↔ ∀ p ∈ checks, p.1 = true := by
  induction checks with
  | nil => simp [firstFail]
  | cons p checks ih =>
    obtain ⟨ok, r⟩ := p
    cases ok <;> simp [firstFail, ih]

/-- A guarded command has its effect when each check passes; otherwise it is refused and writes nothing. -/
theorem guarded_cases (s : State) (ch : BitVec 16) (op : BitVec 8) (checks : List (Bool × RefuseCode)) (effect : State) :
    (∃ r, firstFail checks = some r ∧ guarded s ch op checks effect = s.refuse r ch op) ∨
      (firstFail checks = none ∧ guarded s ch op checks effect = effect) := by
  unfold guarded
  cases firstFail checks with
  | none => exact .inr ⟨rfl, rfl⟩
  | some r => exact .inl ⟨r, rfl, rfl⟩

/-! ## The crypto engine -/

/-- What a prepare can do: it clears the engine, fails and only says so, finds no key, or seeds. -/
theorem prepare_cases (K : Cfg) (keys : List (Nat × Bytes)) (c : Nat) (algId : BitVec 8) (keyId : BitVec 16) (mi : Bytes)
    (w : Work) :
    (isClear K algId keyId = true ∧ prepare K keys c algId keyId mi w =
      (.clear, { w with ch := { w.ch with
        eng := seedWith algId keyId mi (.bytes []), cs := { w.ch.cs with noKey := false } } })) ∨
    (isClear K algId keyId = false ∧ supported K algId = false ∧ prepare K keys c algId keyId mi w =
      (.fail, { w with evt := w.evt ++ [{ ch := chId c, info := .prepFail algId }] })) ∨
    (isClear K algId keyId = false ∧ supported K algId = true ∧ keyOf keys algId keyId = none ∧
      prepare K keys c algId keyId mi w =
        (.noKey, { w with
          ch := { w.ch with eng := seedWith algId keyId mi .undef, cs := { w.ch.cs with noKey := true } }
          evt := w.evt ++ [{ ch := chId c, info := .noKey algId keyId }] })) ∨
    (isClear K algId keyId = false ∧ supported K algId = true ∧ ∃ key, keyOf keys algId keyId = some key ∧
      prepare K keys c algId keyId mi w =
        (.seeded, { w with ch := { w.ch with
          eng := seedWith algId keyId mi (.bytes (K.keystream algId key mi))
          cs := { w.ch.cs with noKey := false } } })) := by
  unfold prepare
  cases hc : isClear K algId keyId with
  | true => exact .inl ⟨rfl, rfl⟩
  | false =>
    cases hs : supported K algId with
    | false => exact .inr (.inl ⟨rfl, rfl, rfl⟩)
    | true =>
      cases hk : keyOf keys algId keyId with
      | none => exact .inr (.inr (.inl ⟨rfl, rfl, rfl, rfl⟩))
      | some key => exact .inr (.inr (.inr ⟨rfl, rfl, key, rfl, rfl⟩))

/-- What a prepare may write: the engine, `noKey`, and records on EVT. -/
theorem prep_frame (K : Cfg) (keys : List (Nat × Bytes)) (c : Nat) (algId : BitVec 8) (keyId : BitVec 16) (mi : Bytes)
    (w : Work) :
    ∃ e b evt, prep K keys c algId keyId mi w =
      { w with ch := { w.ch with eng := e, cs := { w.ch.cs with noKey := b } }, evt := w.evt ++ evt } := by
  unfold prep
  rcases prepare_cases K keys c algId keyId mi w with ⟨_, h⟩ | ⟨_, _, h⟩ | ⟨_, _, _, h⟩ | ⟨_, _, key, _, h⟩ <;> rw [h]
  · exact ⟨seedWith algId keyId mi (.bytes []), false, [], by simp⟩
  · exact ⟨w.ch.eng, w.ch.cs.noKey, _, rfl⟩
  · exact ⟨_, _, _, rfl⟩
  · exact ⟨seedWith algId keyId mi (.bytes (K.keystream algId key mi)), false, [], by simp⟩

/-- What a process can do: nothing to a clear engine's codeword, a draw without a key, a keystream window with one. -/
theorem process_cases (K : Cfg) (cw : Bytes) (role : Role) (w : Work) :
    (isClear K w.ch.eng.algoId w.ch.eng.keyId = true ∧ process K cw role w = (cw, w)) ∨
    (isClear K w.ch.eng.algoId w.ch.eng.keyId = false ∧ w.ch.eng.ks = .undef ∧
      process K cw role w = (xorBytes cw (K.bytesAt w.draws K.imbeLen),
        { w with
          ch := { w.ch with eng := { w.ch.eng with ksPos := nextKsPos w.ch.eng.ksPos } }, draws := w.draws + 1 })) ∨
    (isClear K w.ch.eng.algoId w.ch.eng.keyId = false ∧ ∃ ks, w.ch.eng.ks = .bytes ks ∧
      process K cw role w =
        (xorBytes cw (readAt ks (K.ksOffset w.ch.eng.algoId role w.ch.eng.ksPos.toNat) K.imbeLen),
          { w with ch := { w.ch with eng := { w.ch.eng with ksPos := nextKsPos w.ch.eng.ksPos } } })) := by
  unfold process
  simp only
  cases hc : isClear K w.ch.eng.algoId w.ch.eng.keyId with
  | true => exact .inl ⟨rfl, rfl⟩
  | false =>
    cases hk : w.ch.eng.ks with
    | undef => exact .inr (.inl ⟨rfl, rfl, rfl⟩)
    | bytes ks => exact .inr (.inr ⟨rfl, ks, rfl, rfl⟩)

/-- What a process may write: the engine's position, and a draw. -/
theorem process_frame (K : Cfg) (cw : Bytes) (role : Role) (w : Work) :
    ∃ p d, (process K cw role w).2 = { w with ch := { w.ch with eng := { w.ch.eng with ksPos := p } }, draws := d } := by
  rcases process_cases K cw role w with ⟨_, h⟩ | ⟨_, _, h⟩ | ⟨_, ks, _, h⟩ <;> rw [h]
  · exact ⟨w.ch.eng.ksPos, w.draws, rfl⟩
  · exact ⟨_, _, rfl⟩
  · exact ⟨_, w.draws, rfl⟩

/-! ## The tracker -/

/-- Part 4 of an inbound step: for a frame that is no terminator, the start of a call if the stream is not the last-known
one, and nothing of the end. -/
theorem track_voice (K : Cfg) (keys : List (Nat × Bytes)) (c : Nat) (ev : RxEvent) (r : SlotRef) (kind : FrameType)
    (w : Work) (h : kind.isTerm = false) :
    track K keys c ev r kind w =
      (let v := w.setStatus r { w.ch.status r with created := true }
       let v := if ev.streamId != (w.ch.status r).streamId then callStart K keys c ev r v else v
       v.setCs { v.ch.cs with lastPacketTime := ev.now }) := by
  unfold track
  simp only [h, Bool.not_false, Bool.and_true, Bool.false_and, Work.setStatus_status]
  simp

/-- Part 4 of an inbound step for a terminator: the end of the call in progress, and never a start. -/
theorem track_term (K : Cfg) (keys : List (Nat × Bytes)) (c : Nat) (ev : RxEvent) (r : SlotRef) (kind : FrameType)
    (w : Work) (h : kind.isTerm = true) :
    track K keys c ev r kind w =
      (let v := w.setStatus r { w.ch.status r with created := true }
       let v := if w.ch.cs.isReceiving && !(w.ch.status r).frameType.isTerm then callEnd c ev.now .terminated v else v
       v.setCs { v.ch.cs with lastPacketTime := ev.now }) := by
  unfold track
  simp only [h, Bool.not_true, Bool.and_false, Bool.true_and, Work.setStatus_status]
  simp

/-! ## The iteration over channels -/

/-- What one step of a command over all channels does: the step on channel `turn`, after which `turn` is the next. -/
theorem overChans_eq (f : Nat → State → State) (s : State) : overChans f s = { f s.turn s with turn := s.turn + 1 } := rfl

/-! ## The command port -/

/-- The positions that may move are positions of the list, and nothing before such a one goes before it. -/
theorem mem_eligibleFrom {K : Cfg} {before es : List PortEntry} {k j : Nat}
    (h : j ∈ eligibleFrom K before k es) :
    ∃ i e, j = k + i ∧ es[i]? = some e ∧ ∀ a ∈ before ++ es.take i, goesBefore K a e = false := by
  induction es generalizing before k with
  | nil => simp [eligibleFrom] at h
  | cons e es ih =>
    simp only [eligibleFrom] at h
    split at h
    · rename_i hall
      rcases List.mem_cons.mp h with rfl | h
      · exact ⟨0, e, by simp, by simp, by simpa using hall⟩
      · obtain ⟨i, e', hi, he, hb⟩ := ih h
        exact ⟨i + 1, e', by omega, by simpa using he, by simpa using hb⟩
    · obtain ⟨i, e', hi, he, hb⟩ := ih h
      exact ⟨i + 1, e', by omega, by simpa using he, by simpa using hb⟩

/-- The oldest command presented may always move. -/
theorem zero_mem_eligible (K : Cfg) (s : State) (h : s.port ≠ []) : 0 ∈ eligible K s := by
  unfold eligible
  cases hp : s.port with
  | nil => exact absurd hp h
  | cons e es => simp [eligibleFrom]

/-- The command chosen is one that may move. -/
theorem pick_mem {K : Cfg} {s : State} {k : Nat} (h : pick K s = some k) : k ∈ eligible K s := by
  unfold pick at h
  split at h
  · cases h
  · rename_i he; cases h; rw [he]; simp
  · rename_i k' j ks he
    cases h
    have hlt : K.sched s.picks % (ks.length + 2) < (k' :: j :: ks).length := by
      simp only [List.length_cons]; exact Nat.mod_lt _ (by omega)
    rw [he, List.getD_eq_getElem _ _ hlt]
    exact List.getElem_mem _

/-- If something is presented, a command is chosen. -/
theorem pick_isSome {K : Cfg} {s : State} (h : s.port ≠ []) : ∃ k, pick K s = some k := by
  have := zero_mem_eligible K s h
  unfold pick
  split
  · rename_i he; rw [he] at this; cases this
  · exact ⟨_, rfl⟩
  · exact ⟨_, rfl⟩

/-- What taking a command does: nothing if nothing is presented; otherwise one of those that may move leaves the port. -/
theorem fetch_cases (K : Cfg) (s : State) :
    (s.port = [] ∧ fetch K s = none) ∨
      ∃ k e, s.port[k]? = some e ∧ (∀ a ∈ s.port.take k, goesBefore K a e = false) ∧
        fetch K s = some (k, e, { s with port := s.port.eraseIdx k, turn := e.next, picks := s.picks + 1 }) := by
  by_cases hp : s.port = []
  · left
    refine ⟨hp, ?_⟩
    unfold fetch pick eligible
    rw [hp]
    rfl
  · right
    obtain ⟨k, hk⟩ := pick_isSome (K := K) hp
    obtain ⟨i, e, hi, he, hb⟩ := mem_eligibleFrom (pick_mem hk)
    rw [Nat.zero_add] at hi
    subst hi
    refine ⟨k, e, he, by simpa using hb, ?_⟩
    unfold fetch
    rw [hk]
    simp only [he]

/-- What a command with steps left does after one: it stands on the port again; any other leaves it. -/
theorem settle_cases (K : Cfg) (k : Nat) (e : PortEntry) (i : Instr) (t : State) :
    (perChannel i = true ∧ t.turn ≠ 0 ∧ t.turn < K.nch ∧
      settle K k e i t = { t with port := t.port.insertIdx k { e with next := t.turn }, turn := 0 }) ∨
    ((perChannel i = false ∨ t.turn = 0 ∨ K.nch ≤ t.turn) ∧ settle K k e i t = { t with turn := 0 }) := by
  unfold settle
  by_cases h : (perChannel i && (t.turn != 0 && decide (t.turn < K.nch))) = true
  · rw [if_pos h]
    simp only [Bool.and_eq_true, bne_iff_ne, decide_eq_true_eq] at h
    exact .inl ⟨h.1, h.2.1, h.2.2, rfl⟩
  · rw [if_neg h]
    right
    simp only [Bool.and_eq_true, bne_iff_ne, decide_eq_true_eq, not_and_or, not_not, not_lt] at h
    exact ⟨by simpa using h, rfl⟩

/-- What a step can do under a configuration: wait, refuse at decode, or carry a command out and settle it. -/
theorem stepWith_cases (K : Cfg) (f : Instr → State → Host.Outcome State Fault Refusal) (s : State) :
    (s.port = [] ∧ stepWith K f s = .next s) ∨
    ∃ k e s1, fetch K s = some (k, e, s1) ∧
      ((∃ r, decode K e.bytes = .error r ∧ stepWith K f s = .next (refuseUndecoded r e s1)) ∨
        ∃ i, decode K e.bytes = .ok i ∧ ∀ t, f i s1 = .next t → stepWith K f s = .next (settle K k e i t)) := by
  rcases fetch_cases K s with ⟨hp, hf⟩ | ⟨k, e, _, _, hf⟩
  · exact .inl ⟨hp, by unfold stepWith; rw [hf]⟩
  · refine .inr ⟨k, e, _, hf, ?_⟩
    cases hd : decode K e.bytes with
    | error r => exact .inl ⟨r, rfl, by unfold stepWith; rw [hf]; simp only [hd]⟩
    | ok i => exact .inr ⟨i, rfl, fun t ht => by unfold stepWith; rw [hf]; simp only [hd, ht]⟩

/-- What a step can do: wait, refuse at decode, or carry a command out and settle it. -/
theorem step_cases (s : State) :
    (s.port = [] ∧ step s = .next s) ∨
    ∃ k e s1, fetch params s = some (k, e, s1) ∧
      ((∃ r, decode params e.bytes = .error r ∧ step s = .next (refuseUndecoded r e s1)) ∨
        ∃ i, decode params e.bytes = .ok i ∧ ∀ t, exec i s1 = .next t → step s = .next (settle params k e i t)) :=
  stepWith_cases params exec s

/-! ## The machine under its own configuration -/

/-- `exec` is the meaning under `params`. -/
theorem exec_eq_execOf (i : Instr) (s : State) : exec i s = execOf params i s := by cases i <;> rfl

/-- `step` is the step under `params`. -/
theorem step_eq_stepOf (s : State) : step s = stepOf params s := by
  have h : exec = execOf params := funext fun i => funext fun s => exec_eq_execOf i s
  unfold step stepOf
  rw [h]

end Sys2Proof.Machine
end

