-- ==== Sys2Proof/Laws/PerInstr.lean ====
section
/-! SUPPORT. One family of statements made per instruction: the first byte of a command is the operation code that the
operation map gives its row (30_encoding.md R80, R91). -/

namespace Sys2Proof.Laws

/-- The operation code of a row of the operation map (R91). -/
def opCode : Instr → Byte
  | .reset => 0x00
  | .chinit _ => 0x01
  | .chcfg _ _ _ _ _ _ _ => 0x02
  | .chfree _ => 0x03
  | .keyload _ _ _ => 0x04
  | .cprep _ _ _ _ => 0x10
  | .cproc _ _ _ => 0x11
  | .ccycle _ => 0x12
  | .txstart _ => 0x20
  | .txp25 _ _ => 0x21
  | .txdmr _ _ => 0x22
  | .txendp _ _ => 0x23
  | .txendd _ _ => 0x24
  | .rxp25Ldu1 _ => 0x30
  | .rxp25Ldu2 _ => 0x30
  | .rxp25Term _ => 0x30
  | .rxp25Other _ _ => 0x30
  | .rxdmrVoice _ _ => 0x31
  | .rxdmrVhdr _ _ => 0x31
  | .rxdmrPihdr _ _ => 0x31
  | .rxdmrTerm _ _ => 0x31
  | .rxdmrOther _ _ _ => 0x31
  | .tick _ => 0x40

/-- The command's bytes begin with the operation code of its row. -/
def EncodedOp.Statement (i : Instr) : Prop := ∃ rest, encode i = opCode i :: rest

theorem EncodedOp.reset : EncodedOp.Statement .reset := ⟨_, rfl⟩
theorem EncodedOp.chinit (ch : BitVec 16) : EncodedOp.Statement (.chinit ch) := ⟨_, rfl⟩
theorem EncodedOp.chcfg (ch sys : BitVec 16) (srcId dstId : BitVec 32) (slot algoId : BitVec 8) (keyId : BitVec 16) :
    EncodedOp.Statement (.chcfg ch sys srcId dstId slot algoId keyId) := ⟨_, rfl⟩
theorem EncodedOp.chfree (ch : BitVec 16) : EncodedOp.Statement (.chfree ch) := ⟨_, rfl⟩
theorem EncodedOp.keyload (algId : BitVec 8) (keyId : BitVec 16) (key : Bytes) :
    EncodedOp.Statement (.keyload algId keyId key) := ⟨_, rfl⟩
theorem EncodedOp.cprep (ch : BitVec 16) (algId : BitVec 8) (keyId : BitVec 16) (mi : Bytes) :
    EncodedOp.Statement (.cprep ch algId keyId mi) := ⟨_, rfl⟩
theorem EncodedOp.cproc (ch : BitVec 16) (role : BitVec 8) (cw : Bytes) :
    EncodedOp.Statement (.cproc ch role cw) := ⟨_, rfl⟩
theorem EncodedOp.ccycle (ch : BitVec 16) : EncodedOp.Statement (.ccycle ch) := ⟨_, rfl⟩
theorem EncodedOp.txstart (ch : BitVec 16) : EncodedOp.Statement (.txstart ch) := ⟨_, rfl⟩
theorem EncodedOp.txp25 (ch : BitVec 16) (cw : Bytes) : EncodedOp.Statement (.txp25 ch cw) := ⟨_, rfl⟩
theorem EncodedOp.txdmr (ch : BitVec 16) (cw : Bytes) : EncodedOp.Statement (.txdmr ch cw) := ⟨_, rfl⟩
theorem EncodedOp.txendp (ch : BitVec 16) (cause : BitVec 8) : EncodedOp.Statement (.txendp ch cause) := ⟨_, rfl⟩
theorem EncodedOp.txendd (ch : BitVec 16) (cause : BitVec 8) : EncodedOp.Statement (.txendd ch cause) := ⟨_, rfl⟩
theorem EncodedOp.rxp25Ldu1 (ev : RxEvent) : EncodedOp.Statement (.rxp25Ldu1 ev) := ⟨_, rfl⟩
theorem EncodedOp.rxp25Ldu2 (ev : RxEvent) : EncodedOp.Statement (.rxp25Ldu2 ev) := ⟨_, rfl⟩
theorem EncodedOp.rxp25Term (ev : RxEvent) : EncodedOp.Statement (.rxp25Term ev) := ⟨_, rfl⟩
theorem EncodedOp.rxp25Other (kind : BitVec 8) (ev : RxEvent) : EncodedOp.Statement (.rxp25Other kind ev) := ⟨_, rfl⟩
theorem EncodedOp.rxdmrVoice (slot : BitVec 8) (ev : RxEvent) : EncodedOp.Statement (.rxdmrVoice slot ev) := ⟨_, rfl⟩
theorem EncodedOp.rxdmrVhdr (slot : BitVec 8) (ev : RxEvent) : EncodedOp.Statement (.rxdmrVhdr slot ev) := ⟨_, rfl⟩
theorem EncodedOp.rxdmrPihdr (slot : BitVec 8) (ev : RxEvent) : EncodedOp.Statement (.rxdmrPihdr slot ev) := ⟨_, rfl⟩
theorem EncodedOp.rxdmrTerm (slot : BitVec 8) (ev : RxEvent) : EncodedOp.Statement (.rxdmrTerm slot ev) := ⟨_, rfl⟩
theorem EncodedOp.rxdmrOther (kind slot : BitVec 8) (ev : RxEvent) :
    EncodedOp.Statement (.rxdmrOther kind slot ev) := ⟨_, rfl⟩
theorem EncodedOp.tick (now : BitVec 64) : EncodedOp.Statement (.tick now) := ⟨_, rfl⟩

end Sys2Proof.Laws
end

