-- ==== Sys2Proof/Tests/Slice0.lean ====
section
/-! SUPPORT. Tests: ill-formed terms refused, commands written out byte by byte decoded, one step of each operation on a
small state, and for each statement with hypotheses a named theorem `test_meets_…` with a state and operands that meet
them all. Expected values are those of 95_test_vectors.md or worked out by hand from the rules. -/

namespace Sys2Proof.Tests

open Sys2Proof Sys2Proof.Machine Sys2Proof.Claims

/-! ## The test configuration T0 (95_test_vectors.md section 1)

It fills the OPEN fields with the stand-ins of the spec's own test vectors. It is not the hardware. -/

/-- T0's open fields; the draws are those of the vectors used below. -/
def t0Open : Unstated where
  nchLess1 := 3
  seqModLess2 := 65533
  ksByte := fun _ key mi i => (byteAt mi (i % 9) ^^^ byteAt key (i % key.length)) + BitVec.ofNat 8 i
  ksExtra := fun _ _ _ => 56
  ksOffset := fun _ role pos => (if role = .ldu2 then 101 else 0) + 11 * pos
  miCycleByte := fun mi i => byteAt mi ((i + 1) % 9) + 1
  funcP25 := 0
  funcDmr := 1
  dmrVoiceSync := 0x755FD7DF75F7
  embEncode := fun cc pi lcss => (cc.setWidth 16 <<< 12) ||| (pi.setWidth 16 <<< 11) ||| (lcss.setWidth 16 <<< 9)
  embLcFragments := fun lc => { f0 := lc.srcId, f1 := lc.dstId, f2 := lc.flco.setWidth 32, f3 := 0x44444444 }
  dmrLcByte := fun kind lc i =>
    byteAt ((match kind with | .vhdr => 1 | .term => 2) :: lc.flco :: (be 4 lc.srcId ++ be 4 lc.dstId)) i
  dmrLcParse := fun kind b =>
    if byteAt b 0 = (match kind with | .vhdr => 1 | .term => 2)
    then some { flco := byteAt b 1, srcId := field 32 b 2 4, dstId := field 32 b 6 4 } else none
  dmrPiParse := fun b => if byteAt b 0 = 0x50 then some (readAt b 1 9) else none
  duidClass := fun _ => .other
  dmrTypeClass := fun _ => .other
  drawStreamId := fun _ => 0x01020303
  drawMi := fun _ => 0
  drawByte := fun _ _ => 0xEE
  vocErrs := fun _ _ _ => 0
  sched := fun _ => 0

/-- T0. -/
def t0 : Cfg := cfgOf t0Open

/-! ## Small states -/

/-- `00 01 .. 0A`. -/
def cw0 : Bytes := [0, 1, 2, 3, 4, 5, 6, 7, 8, 9, 10]

/-- MI1 of the vectors. -/
def mi1 : Bytes := [1, 2, 3, 4, 5, 6, 7, 8, 9]

/-- K32 of the vectors. -/
def k32 : Bytes := (List.range 32).map (BitVec.ofNat 8)

/-- A configured channel, clear, timeslot 1, nothing in progress (MGT-11). -/
def idle : Chan :=
  { Chan.init params with
    cfg := { set := true, sys := 1, srcId := 123456, dstId := 10001, slot := 1, algoId := 0x80, keyId := 0 } }

/-- The same with an outbound call open. -/
def calling : Chan := { idle with cs := { idle.cs with txStreamId := 0x01020304 } }

/-- The same with an inbound P25 call in progress (CST-5: last frame at 1180). -/
def receiving : Chan :=
  { idle with
    cs := { idle.cs with isReceiving := true, rxStreamId := 0xCAFE0001, peerId := 7, lastPacketTime := 1180,
                         algId := 0x80 }
    slotP25 := { idle.slotP25 with created := true, streamId := 0xCAFE0001, frameType := .p25 .ldu2, startTime := 1000 } }

/-- The block with one listed channel. -/
def one (x : Chan) : State := { State.reset with chans := [(0, x)] }

/-- The block with two. -/
def two (x y : Chan) : State := { State.reset with chans := [(0, x), (1, y)] }

/-- The state a step gives. -/
def next : Host.Outcome State Fault Refusal → State
  | .next t => t
  | .fault _ => .reset
  | .refused _ => .reset

/-- An event for the channels above. -/
def event (streamId : BitVec 32) (now : BitVec 64) (data : Bytes) : RxEvent :=
  { sys := 1, now := now, peerId := 7, srcId := 9001, dstId := 10001, streamId := streamId, data := data }

/-- The 178 bytes of a valid LDU message with nothing but the markers in its payload. -/
def lduData (half : Role) : Bytes :=
  zeros 24 ++ (List.range 9).flatMap fun k => byteAt (marks half) k :: zeros (recLenAt params k - 1)

/-- A header-data-unit message: 193 bytes, `algId` 0x84, `keyId` 1, MI1 (P25-4). -/
def hduData : Bytes := lduData .ldu1 ++ ([0, 0, 1, 0x84, 0, 1] ++ mi1)

/-! ## Ill-formed terms are refused -/

theorem test_wf_accepts : Instr.wellFormed params (.txp25 0 cw0) = true := by decide
theorem test_wf_key_length (n : Nat) (h : 256 ≤ n) :
    Instr.wellFormed params (.keyload 0x84 1 (List.replicate n 0)) = false := by
  simp [Instr.wellFormed, Instr.encodable, h]
theorem test_wf_mi_length : Instr.wellFormed params (.cprep 0 0x84 1 (zeros 8)) = false := by decide
theorem test_wf_cproc_length : Instr.wellFormed params (.cproc 0 0 (zeros 10)) = false := by decide
theorem test_wf_txp25_length : Instr.wellFormed params (.txp25 0 (zeros 12)) = false := by decide
theorem test_wf_txdmr_length : Instr.wellFormed params (.txdmr 0 (zeros 8)) = false := by decide
theorem test_wf_rxp25_data (n : Nat) (h : 65536 ≤ n) :
    Instr.wellFormed params (.rxp25Term (event 1 1 (List.replicate n 0))) = false := by
  simp [Instr.wellFormed, Instr.encodable, dataFits, event, h]
theorem test_wf_rxdmr_data (n : Nat) (h : 65536 ≤ n) :
    Instr.wellFormed params (.rxdmrTerm 1 (event 1 1 (List.replicate n 0))) = false := by
  simp [Instr.wellFormed, Instr.encodable, dataFits, event, h]
theorem test_wf_rxp25_other_kind : Instr.wellFormed params (.rxp25Other 2 (event 1 1 [])) = false := by decide
theorem test_wf_rxdmr_other_kind : Instr.wellFormed params (.rxdmrOther 3 1 (event 1 1 [])) = false := by decide
theorem test_wf_chcfg_slot : Instr.wellFormed params (.chcfg 0 1 1 1 3 0x80 0) = false := by decide
theorem test_wf_empty_key : Instr.wellFormed params (.keyload 0x84 1 []) = false := by decide
theorem test_wf_role : Instr.wellFormed params (.cproc 0 2 cw0) = false := by decide
theorem test_wf_txendp_cause : Instr.wellFormed params (.txendp 0 2) = false := by decide
theorem test_wf_txendd_cause : Instr.wellFormed params (.txendd 0 2) = false := by decide
theorem test_wf_rxdmr_slot : Instr.wellFormed params (.rxdmrVoice 0 (event 1 1 [])) = false := by decide

/-! ## Commands written out byte by byte -/

/-- Bytes 1 to 26 of `sys=1 now=1000 peerId=7 srcId=9001 dstId=10001 streamId=0xCAFE0001` (30_encoding.md R89). -/
def header : Bytes :=
  [0x00, 0x01, 0, 0, 0, 0, 0, 0, 0x03, 0xE8, 0, 0, 0, 7, 0, 0, 0x23, 0x29, 0, 0, 0x27, 0x11, 0xCA, 0xFE, 0x00, 0x01]

/-- That event with two bytes of data. -/
def written : RxEvent :=
  { sys := 1, now := 1000, peerId := 7, srcId := 9001, dstId := 10001, streamId := 0xCAFE0001, data := [0xAB, 0xCD] }

theorem test_decode_reset : decode params [0x00] = .ok .reset := by rfl
theorem test_decode_chinit : decode params [0x01, 0x00, 0x04] = .ok (.chinit 4) := by rfl
theorem test_decode_chcfg :
    decode params [0x02, 0x00, 0x00, 0x00, 0x01, 0x00, 0x01, 0xE2, 0x40, 0x00, 0x00, 0x27, 0x11, 0x01, 0x80, 0x00,
      0x00] = .ok (.chcfg 0 1 123456 10001 1 0x80 0) := by rfl
theorem test_decode_chfree : decode params [0x03, 0x12, 0x34] = .ok (.chfree 0x1234) := by rfl
theorem test_decode_keyload :
    decode params [0x04, 0x84, 0x00, 0x01, 0x03, 0xAA, 0xBB, 0xCC] = .ok (.keyload 0x84 1 [0xAA, 0xBB, 0xCC]) := by rfl
theorem test_decode_cprep :
    decode params [0x10, 0, 0, 0x84, 0, 1, 1, 2, 3, 4, 5, 6, 7, 8, 9] = .ok (.cprep 0 0x84 1 mi1) := by rfl
theorem test_decode_cproc :
    decode params [0x11, 0, 0, 1, 0, 1, 2, 3, 4, 5, 6, 7, 8, 9, 10] = .ok (.cproc 0 1 cw0) := by rfl
theorem test_decode_ccycle : decode params [0x12, 0x00, 0x02] = .ok (.ccycle 2) := by rfl
theorem test_decode_txstart : decode params [0x20, 0x00, 0x01] = .ok (.txstart 1) := by rfl
theorem test_decode_txp25 :
    decode params [0x21, 0, 0, 0, 1, 2, 3, 4, 5, 6, 7, 8, 9, 10] = .ok (.txp25 0 cw0) := by rfl
theorem test_decode_txdmr :
    decode params [0x22, 0, 1, 1, 2, 3, 4, 5, 6, 7, 8, 9] = .ok (.txdmr 1 mi1) := by rfl
theorem test_decode_txendp : decode params [0x23, 0x00, 0x00, 0x01] = .ok (.txendp 0 1) := by rfl
theorem test_decode_txendd : decode params [0x24, 0x01, 0x00, 0x00] = .ok (.txendd 0x100 0) := by rfl
theorem test_decode_rxp25_ldu1 :
    decode params (0x30 :: header ++ [0, 0x00, 0x02, 0xAB, 0xCD]) = .ok (.rxp25Ldu1 written) := by rfl
theorem test_decode_rxp25_ldu2 :
    decode params (0x30 :: header ++ [1, 0x00, 0x02, 0xAB, 0xCD]) = .ok (.rxp25Ldu2 written) := by rfl
theorem test_decode_rxp25_term :
    decode params (0x30 :: header ++ [2, 0x00, 0x02, 0xAB, 0xCD]) = .ok (.rxp25Term written) := by rfl
theorem test_decode_rxp25_other :
    decode params (0x30 :: header ++ [3, 0x00, 0x02, 0xAB, 0xCD]) = .ok (.rxp25Other 3 written) := by rfl
theorem test_decode_rxdmr_voice :
    decode params (0x31 :: header ++ [0, 2, 0x00, 0x02, 0xAB, 0xCD]) = .ok (.rxdmrVoice 2 written) := by rfl
theorem test_decode_rxdmr_vhdr :
    decode params (0x31 :: header ++ [1, 1, 0x00, 0x02, 0xAB, 0xCD]) = .ok (.rxdmrVhdr 1 written) := by rfl
theorem test_decode_rxdmr_pihdr :
    decode params (0x31 :: header ++ [2, 1, 0x00, 0x02, 0xAB, 0xCD]) = .ok (.rxdmrPihdr 1 written) := by rfl
theorem test_decode_rxdmr_term :
    decode params (0x31 :: header ++ [3, 1, 0x00, 0x02, 0xAB, 0xCD]) = .ok (.rxdmrTerm 1 written) := by rfl
theorem test_decode_rxdmr_other :
    decode params (0x31 :: header ++ [4, 1, 0x00, 0x02, 0xAB, 0xCD]) = .ok (.rxdmrOther 4 1 written) := by rfl
theorem test_decode_tick : decode params [0x40, 0, 0, 0, 0, 0, 0, 0x0F, 0xA1] = .ok (.tick 4001) := by rfl

theorem test_decode_reserved : decode params [0x05, 0x00, 0x00] = .error .badOp := by rfl
theorem test_decode_short : decode params [0x40, 0, 0, 0, 0, 0, 0, 0x0F] = .error .badLen := by rfl
theorem test_decode_long : decode params [0x00, 0x00] = .error .badLen := by rfl
theorem test_encode_chcfg :
    encode (.chcfg 0 1 123456 10001 1 0x80 0) =
      [0x02, 0x00, 0x00, 0x00, 0x01, 0x00, 0x01, 0xE2, 0x40, 0x00, 0x00, 0x27, 0x11, 0x01, 0x80, 0x00, 0x00] := by
  decide
theorem test_table_word_narrow : decodeTableWord 8 0x21 = some (.txp25 0 (zeros 11)) := by decide
theorem test_table_word_wide :
    decodeTableWord 224 0x30000000000000000000000000000000000000000000000000000001 =
      some (.rxp25Ldu2 { sys := 0, now := 0, peerId := 0, srcId := 0, dstId := 0, streamId := 0, data := [] }) := by
  decide
theorem test_fetch_word :
    step (State.reset.withFetchWord 8 0x21) =
      .next { State.reset with picks := 1, evt := [{ ch := 0, info := .refused .badCh 0x21 }] } := by rfl

/-! ## One step of each operation -/

/-- MGT-24. -/
theorem test_reset :
    next (exec .reset { one calling with keys := [(65536 * 0x84 + 1, k32)], evt := [{ ch := 0, info := .prepFail 0x55 }] })
      = State.reset := by rfl
/-- MGT-5. -/
theorem test_chinit : (next (exec (.chinit 0) (one calling))).chans = [(0, Chan.init params)] := by rfl
/-- MGT-4. -/
theorem test_chinit_no_such : (chinit t0 4 .reset).evt = [{ ch := 4, info := .refused .badCh 0x01 }] := by rfl
/-- MGT-11. -/
theorem test_chcfg : next (exec (.chcfg 0 1 123456 10001 1 0x80 0) (one (Chan.init params))) = one idle := by rfl
/-- MGT-9: the operand check comes before the channel check. -/
theorem test_chcfg_slot :
    (next (exec (.chcfg 9 1 1 1 0 0x80 0) .reset)).evt = [{ ch := 9, info := .refused .badArg 0x02 }] := by rfl
/-- MGT-22. -/
theorem test_chfree : next (exec (.chfree 0) (one calling)) = State.reset := by decide +kernel
/-- MGT-23. -/
theorem test_chfree_free :
    (next (exec (.chfree 0) .reset)).evt = [{ ch := 0, info := .refused .badCh 0x03 }] := by rfl
/-- MGT-20. -/
theorem test_keyload : keyOf (next (exec (.keyload 0x84 1 k32) .reset)).keys 0x84 1 = some k32 := by rfl
/-- MGT-19. -/
theorem test_keyload_empty :
    (next (exec (.keyload 0x84 1 []) .reset)).evt = [{ ch := 0xFFFF, info := .refused .badArg 0x04 }] := by rfl
/-- CRY-4. -/
theorem test_cprep_clear :
    (next (exec (.cprep 0 0x84 0 mi1) (one idle))).rsp = [{ ch := 0, op := 0x10, bytes := [1] }] := by rfl
/-- CRY-5, the first row. -/
theorem test_cprep_no_key :
    (next (exec (.cprep 0 0x84 2 mi1) (one idle))).evt = [{ ch := 0, info := .noKey 0x84 2 }] := by rfl

/-- Channel 0 after CRY-1. -/
def seeded : State := cprep t0 0 0x84 1 mi1 { one (Chan.init t0) with keys := [(65536 * 0x84 + 1, k32)] }

/-- CRY-2, the first call. -/
theorem test_cproc :
    (cproc t0 0 0 cw0 seeded).rsp.getLast? =
      some { ch := 0, op := 0x11,
             bytes := [0x01, 0x05, 0x01, 0x09, 0x01, 0x0D, 0x01, 0x11, 0x01, 0x18, 0x18] } := by decide
/-- CRY-2, the last lines: the role selects the half of the keystream. -/
theorem test_cproc_role :
    (cproc t0 0 1 cw0 seeded).rsp.getLast? =
      some { ch := 0, op := 0x11,
             bytes := [0x6B, 0x69, 0x6B, 0x75, 0x73, 0x69, 0x6B, 0x7E, 0x74, 0x72, 0x70] } := by decide
/-- CRY-6. -/
theorem test_ccycle :
    (ccycle t0 0 seeded).rsp.getLast? = some { ch := 0, op := 0x12, bytes := [3, 4, 5, 6, 7, 8, 9, 0x0A, 2] } := by
  decide
/-- CRY-6. -/
theorem test_ccycle_no_channel :
    (next (exec (.ccycle 2) (one idle))).evt = [{ ch := 2, info := .refused .badCh 0x12 }] := by rfl
/-- MGT-16. -/
theorem test_txstart : ((txstart t0 0 (one idle)).chan t0 0).cs.txStreamId = 0x01020304 := by decide
/-- MGT-17: no draw is consumed. -/
theorem test_txstart_busy :
    next (exec (.txstart 0) (one calling)) =
      { one calling with evt := [{ ch := 0, info := .refused .busy 0x20 }] } := by rfl
/-- P25-2, P25-3: the ninth codeword sends the call's first message, which is marked. -/
theorem test_txp25_ninth :
    (next (exec (.txp25 0 cw0)
      (one { calling with cs := { calling.cs with p25FrameIndex := 8, p25SeqNo := 8 } }))).netout.map
        (fun r => (r.kind, r.sequence, r.hduValid, r.body.drop 138)) =
      [(.p25Ldu1, 0, true, [0x6A, 0, 0, 0, 0, 1, 2, 3, 4, 5, 6, 7, 8, 9, 10, 0])] := by decide
/-- P25-2. -/
theorem test_txp25_index :
    ((next (exec (.txp25 0 cw0) (one { calling with cs := { calling.cs with p25FrameIndex := 17 } }))).chan params
      0).cs.p25FrameIndex = 0 := by decide
/-- S9: the third codeword sends the header at sequence 0 and a frame at 1. -/
theorem test_txdmr_third :
    (next (exec (.txdmr 0 mi1) (one { calling with cs := { calling.cs with ambeCount := 2 } }))).netout.map
        (fun r => (r.kind, r.sequence, r.dmrSeq)) =
      [(.dmrVhdr, 0, some 0), (.dmrVoice, seqAfter 0, some 1)] := by rfl
/-- DMR-2: frame 1 of a group carries `emb` 0x0200 around the first fragment. -/
theorem test_txdmr_middle :
    dmrMiddle t0 { frag := t0.embLcFragments (callLc t0 idle.cfg), valid := true } 1 = 0x020001E24000#48 := by
  decide
/-- SEQ-3. -/
theorem test_txendp :
    ((next (exec (.txendp 0 1) (one { calling with cs := { calling.cs with pktSeq := 1 } }))).netout.map
      fun r => (r.kind, r.sequence)) = [(.p25Tdu, 1)] := by rfl
/-- MGT-15: the cause is tested before the call. -/
theorem test_txendp_cause :
    (next (exec (.txendp 0 2) (one idle))).evt = [{ ch := 0, info := .refused .badArg 0x23 }] := by rfl
/-- SEQ-3. -/
theorem test_txendd :
    ((next (exec (.txendd 0 0)
      (one { calling with cs := { calling.cs with pktSeq := 8, dmrSeqNo := 8 } }))).chan params 0).cs.dmrSeqNo = 0 := by
  decide
/-- R219: the record carries `dmrSeqNo`. -/
theorem test_txendd_record :
    ((next (exec (.txendd 0 0) (one { calling with cs := { calling.cs with dmrSeqNo := 8 } }))).netout.map
      fun r => (r.kind, r.dmrSeq)) = [(.dmrTerm, some 8)] := by rfl

/-- P3, first receive event: the header's algorithm, key id and MI. -/
theorem test_rxp25_ldu1_header :
    (fun x : Chan => (x.cs.algId, x.cs.keyId, x.cs.mi, x.cs.isReceiving))
      ((next (exec (.rxp25Ldu1 (event 0x22334455 1000 hduData)) (one idle))).chan params 0) =
      (0x84, 1, mi1, true) := by decide +kernel
/-- P25-4: the fourth marker is wrong. -/
theorem test_rxp25_ldu1_marker :
    next (exec (.rxp25Ldu1 (event 0xCAFE0002 2000 (writeAt (lduData .ldu1) 77 [0]))) (one idle)) =
      { one idle with turn := 1 } := by
  decide +kernel
/-- CST-2: a late frame of the call that ended starts nothing, and no voice is handed out. -/
theorem test_rxp25_ldu2_late :
    (fun t : State => (t.evt, t.vocout, (t.chan params 0).cs.lastPacketTime))
      (next (exec (.rxp25Ldu2 (event 0xCAFE0001 1600 (lduData .ldu2)))
        (one { idle with slotP25 := { idle.slotP25 with streamId := 0xCAFE0001 } }))) = ([], [], 1600) := by
  decide +kernel
/-- P25-6, row 2: after errors the locally cycled MI is kept. -/
theorem test_rxp25_ldu2_errors :
    ((rxP25 t0 .ldu2 (event 0xCAFE0001 1200 (lduData .ldu2))
      (one { receiving with cs := { receiving.cs with mi := mi1, p25Errs := 2 } })).chan t0 0).cs.mi =
      [3, 4, 5, 6, 7, 8, 9, 0x0A, 2] := by decide +kernel
/-- CST-3: a terminator of another stream ends the call. -/
theorem test_rxp25_term :
    (fun t : State => (t.evt, (t.chan params 0).cs.isReceiving, (t.chan params 0).slotP25.streamId))
      (next (exec (.rxp25Term (event 0xCAFE0009 1540 [])) (one receiving))) =
      ([{ ch := 0, info := .callEnd .terminated 540 1540 }], false, 0xCAFE0009) := by decide +kernel
/-- CST-3: the terminator of a call that has ended moves only the time. -/
theorem test_rxp25_term_again :
    (next (exec (.rxp25Term (event 0xCAFE0001 1560 [])) (one idle))).evt = [] := by decide +kernel
/-- R179: a frame of another class starts a call. -/
theorem test_rxp25_other :
    (next (exec (.rxp25Other 7 (event 0xCAFE0001 1000 [])) (one idle))).evt =
      [{ ch := 0, info := .callStart 9001 10001 0xCAFE0001 7 1000 .p25 }] := by decide +kernel
/-- DMR-4 (3): three codewords to the vocoder. -/
theorem test_rxdmr_voice :
    (next (exec (.rxdmrVoice 1 (event 0x77 220 (zeros 53))) (one idle))).vocout =
      List.replicate 3 { ch := 0, talkgroupId := 10001, proto := .dmr, cw := zeros 9 } := by decide +kernel
/-- DMR-3: one byte short. -/
theorem test_rxdmr_voice_short :
    next (exec (.rxdmrVoice 1 (event 0x77 160 (zeros 52))) (one idle)) = { one idle with turn := 1 } := by decide +kernel
/-- R204 under T0: a header that parses is kept. -/
theorem test_rxdmr_vhdr :
    ((rxDmr t0 .vhdr 1 (event 0x77 280 (zeros 20 ++ (1 :: zeros 32))) (one idle)).chan t0 0).slotDmr1.lc =
      some { flco := 0, srcId := 0, dstId := 0 } := by decide +kernel
/-- DMR-4 (4): one that does not parse leaves `lc` absent. -/
theorem test_rxdmr_vhdr_bad :
    ((rxDmr t0 .vhdr 1 (event 0x77 280 (zeros 53)) (one idle)).chan t0 0).slotDmr1.lc = none := by decide +kernel
/-- DMR-4 (1). -/
theorem test_rxdmr_pihdr :
    ((rxDmr t0 .pihdr 1 (event 0x77 100 (zeros 20 ++ (0x50 :: mi1) ++ zeros 23)) (one idle)).chan t0 0).slotDmr1.pi =
      some mi1 := by decide +kernel
/-- DMR-4 (5). -/
theorem test_rxdmr_term :
    (next (exec (.rxdmrTerm 1 (event 0x77 340 []))
      (one { idle with
        cs := { idle.cs with isReceiving := true, rxProto := .dmr, rxStreamId := 0x77, peerId := 7 }
        slotDmr1 := { idle.slotDmr1 with streamId := 0x77, startTime := 100, frameType := .dmr .vhdr } }))).evt =
      [{ ch := 0, info := .callEnd .terminated 240 340 }] := by decide +kernel
/-- DMR-5: an event of the other timeslot does not reach the channel. -/
theorem test_rxdmr_other_slot :
    next (exec (.rxdmrOther 9 2 (event 0x77 340 [])) (one idle)) = { one idle with turn := 1 } := by decide +kernel
/-- CST-5: an idle time of 2000 ms is not past the threshold. -/
theorem test_tick_at_threshold : next (exec (.tick 3180) (one receiving)) = { one receiving with turn := 1 } := by decide +kernel
/-- CST-5: 2001 ms is. -/
theorem test_tick_past_threshold :
    (next (exec (.tick 3181) (one receiving))).evt = [{ ch := 0, info := .callEnd .timedOut 2181 3181 }] := by
  decide +kernel
/-- CST-1, the last rows but one: the first reason in order, and a call's own next frame. -/
theorem test_filter :
    dupCheck (two receiving receiving).chans { event 0xCAFE0001 0 [] with peerId := 8 } 0 receiving = some .dupCross ∧
    dupCheck (one receiving).chans { event 0xCAFE0001 0 [] with peerId := 8 } 0 receiving = some .dupStale ∧
    dupCheck (one calling).chans (event 0x01020304 0 []) 0 calling = some .loopback ∧
    dupCheck (one receiving).chans (event 0xCAFE0001 0 []) 0 receiving = none ∧
    dupCheck (two receiving receiving).chans (event 0 0 []) 0 receiving = none := by decide +kernel

/-! ## States and operands that meet the hypotheses of the statements

`test_meets_<name>` is the witness of `Obligations.<name>`. Some serve several: `test_meets_ChannelOk`,
`…_not_ChannelOk`, `…_not_configured`, `…_Configured` and `…_calling` are the cases of ChfreeForgetsSlot, CcycleCyclesMi,
TxstartOpensCall, TxendpEndsCall, TxenddEndsCall, Txp25TakesCodeword and TxdmrTakesCodeword; `…_AcceptedP25` serves
P25OtherFrameTracks, `…_AcceptedDmr` the statements about accepted DMR frames, `…_TickEndsStaleCall` also
TimeoutReportedOnce, `…_RefusalWritesNothing` also TracesOnlyGrow, and `…_late_frame` is the second case of
Ldu1IsDecoded and Ldu2IsDecodedThenReseeds.

NCH is opaque, so index 0 is the only one that is known to be below it, and no index is known not to be. -/

theorem below (ch : BitVec 16) (h : ch = 0) : ch.toNat < params.nch := by subst h; exact Nat.succ_pos _

theorem test_meets_ChannelOk : ChannelOk (one (Chan.init params)) 0 := ⟨below 0 rfl, rfl⟩
theorem test_meets_not_ChannelOk : ¬ChannelOk State.reset 0 := fun h => absurd h.2 (by decide)
theorem test_meets_not_configured :
    ChannelOk (one (Chan.init params)) 0 ∧ ((one (Chan.init params)).chan params 0).cfg.set = false :=
  ⟨test_meets_ChannelOk, rfl⟩
theorem test_meets_Configured : Configured (one idle) 0 ∧ ((one idle).chan params 0).cs.txStreamId = 0 :=
  ⟨⟨⟨below 0 rfl, rfl⟩, rfl⟩, rfl⟩
theorem test_meets_InCall (x : Chan) (hv : x.valid = true) (hc : x.cfg.set = true) (ht : x.cs.txStreamId ≠ 0) :
    InCall (one x) 0 := ⟨⟨⟨below 0 rfl, hv⟩, hc⟩, ht⟩
theorem test_meets_calling : InCall (one calling) 0 := test_meets_InCall calling rfl rfl (by decide)

theorem test_meets_DecodeOfEncode :
    Instr.encodable params (.txp25 0xFFFF cw0) = true ∧ Instr.encodable params (.chcfg 0 1 1 1 3 0x80 0) = true ∧
    Instr.encodable params (.keyload 0x84 1 []) = true ∧ Instr.encodable params (.rxp25Other 255 written) = true ∧
    Instr.encodable params (.rxdmrOther 4 2 written) = true := by decide
theorem test_meets_EncodeOfDecode : decode params [0x03, 0xFF, 0xFF] = .ok (.chfree 0xFFFF) := by rfl
theorem test_meets_DecodeTestsCodeThenLength :
    commandLength [0x05, 0, 0] = none ∧ commandLength [0x20, 0, 0] = some 3 ∧ commandLength [0x20, 0] = some 3 ∧
    commandLength [] = some 1 := by decide

/-- CHINIT 0, presented alone. -/
def presented : State := { State.reset with port := [{ bytes := [0x01, 0, 0], next := 0 }] }

theorem test_meets_StepRunsDecodedCommand :
    presented.port = [{ bytes := [0x01, 0, 0], next := 0 }] ∧ decode params [0x01, 0, 0] = .ok (.chinit 0) ∧
    fetch params presented =
      some (0, { bytes := [0x01, 0, 0], next := 0 }, { presented with port := [], turn := 0, picks := 1 }) ∧
    ∃ t, exec (.chinit 0) { presented with port := [], turn := 0, picks := 1 } = .next t :=
  ⟨rfl, rfl, rfl, _, rfl⟩
theorem test_meets_UndecodableCommandRefused :
    decode params [0x05] = .error .badOp ∧ decode params [0x20, 0] = .error .badLen := ⟨rfl, rfl⟩

/-- Two commands presented, with channel 0 listed. -/
def pair (a b : PortEntry) : State := { one idle with port := [a, b] }

/-- The command of an event without data. -/
def eventBytes (kind : Byte) : Bytes := 0x30 :: header ++ [kind, 0, 0]

/-- The second may come first: another channel; a channel that a TICK or an event has passed; an event or a TICK on a
channel below that of an earlier command or event; and after a load of the key store. -/
theorem test_meets_StepsKeepIssueOrder :
    1 ∈ eligible params (pair { bytes := [0x20, 0, 0], next := 0 } { bytes := [0x20, 0, 1], next := 0 }) ∧
    1 ∈ eligible params (pair { bytes := [0x40, 0, 0, 0, 0, 0, 0, 0, 0], next := 1 } { bytes := [0x20, 0, 0], next := 0 }) ∧
    1 ∈ eligible params (pair { bytes := eventBytes 0, next := 1 } { bytes := [0x20, 0, 0], next := 0 }) ∧
    1 ∈ eligible params (pair { bytes := [0x20, 0, 1], next := 0 } { bytes := eventBytes 2, next := 0 }) ∧
    1 ∈ eligible params (pair { bytes := eventBytes 0, next := 1 } { bytes := [0x40, 0, 0, 0, 0, 0, 0, 0, 0], next := 0 }) ∧
    1 ∈ eligible params (pair { bytes := [0x04, 0x84, 0, 1, 1, 9], next := 0 } { bytes := [0x20, 0, 0], next := 0 }) := by
  decide +kernel
/-- And what may not come first: a channel's later command; a later event; a command of a channel that an earlier event
has yet to pass; RESET before an earlier command; a channel's second command refused for an operand. -/
theorem test_order_kept :
    eligible params (pair { bytes := [0x20, 0, 0], next := 0 } { bytes := [0x12, 0, 0], next := 0 }) = [0] ∧
    eligible params (pair { bytes := eventBytes 0, next := 1 } { bytes := eventBytes 1, next := 0 }) = [0] ∧
    eligible t0 (pair { bytes := eventBytes 0, next := 1 } { bytes := [0x20, 0, 3], next := 0 }) = [0] ∧
    eligible params (pair { bytes := [0x20, 0, 0], next := 0 } { bytes := [0x00], next := 0 }) = [0] ∧
    eligible params (pair { bytes := [0x20, 0, 0], next := 0 } { bytes := [0x23, 0, 0, 2], next := 0 }) = [0] := by
  decide +kernel

/-- CHINIT 3 and an event that has only channel 0 behind it, 3 not listed: the event waits at channel 3 for the CHINIT
issued before it, and has steps there until then. -/
theorem test_order_unlisted :
    eligible t0 (pair { bytes := [0x01, 0, 3], next := 0 } { bytes := eventBytes 0, next := 1 }) = [0, 1] ∧
    eligible t0 (pair { bytes := [0x01, 0, 3], next := 0 } { bytes := eventBytes 0, next := 3 }) = [0] ∧
    (stepOf t0 { one idle with port := [{ bytes := eventBytes 0, next := 2 }] } matches .next _) = true ∧
    (settle t0 0 { bytes := eventBytes 0, next := 2 } (.tick 0) { one idle with turn := 3 }).port =
      [{ bytes := eventBytes 0, next := 3 }] ∧
    (settle t0 0 { bytes := eventBytes 0, next := 3 } (.tick 0) { one idle with turn := 4 }).port = [] := by
  decide +kernel

theorem test_meets_BlockInv : BlockInv (one receiving) ∧ BlockInv (one calling) := by
  have h : 0 < params.nch := Nat.succ_pos _
  have hr : receiving.ok params = true := by decide +kernel
  have hc : calling.ok params = true := by decide +kernel
  constructor <;> simp [BlockInv, State.ok, chansOk, one, rising, h, State.reset, keysOk, portOk, hr, hc]
theorem test_meets_InboundCommandFinishes :
    0 < params.nch ∧
    (∃ i, decode params (eventBytes 0) = .ok i ∧ Inbound i ∧ i.legal = true) ∧
    (∃ i, decode params (0x31 :: header ++ [0, 2, 0, 0]) = .ok i ∧ Inbound i ∧ i.legal = true) ∧
    (∃ i, decode params [0x40, 0, 0, 0, 0, 0, 0, 0, 0] = .ok i ∧ Inbound i ∧ i.legal = true) :=
  ⟨Nat.succ_pos _, ⟨_, rfl, .inl ⟨.ldu1, 0, _, rfl⟩, rfl⟩, ⟨_, rfl, .inr (.inl ⟨.voice, 0, _, _, rfl⟩), rfl⟩,
    ⟨_, rfl, .inr (.inr ⟨_, rfl⟩), rfl⟩⟩
theorem test_meets_StepKeepsInvariant : BlockInv (one receiving) ∧ ∃ t, step (one receiving) = .next t :=
  ⟨test_meets_BlockInv.1, _, rfl⟩
theorem test_meets_BlockWaitsAfterReset : (one receiving).port = [] := rfl

theorem test_meets_ChinitCreatesSlot :
    (0 : BitVec 16).toNat < params.nch ∧ (params.nch < 65536 → ∃ ch : BitVec 16, params.nch ≤ ch.toNat) := by
  refine ⟨below 0 rfl, fun h => ⟨BitVec.ofNat 16 params.nch, ?_⟩⟩
  rw [BitVec.toNat_ofNat, Nat.mod_eq_of_lt h]
theorem test_meets_ChcfgLoadsConfiguration :
    ChannelOk (one idle) 0 ∧ ((one idle).chan params 0).cs.txStreamId = 0 ∧
      ((one idle).chan params 0).cs.isReceiving = false ∧
    (ChannelOk (one calling) 0 ∧ ((one calling).chan params 0).cs.txStreamId ≠ 0) ∧
    (ChannelOk (one receiving) 0 ∧ ((one receiving).chan params 0).cs.isReceiving = true) ∧
    ¬ChannelOk State.reset 0 :=
  ⟨⟨below 0 rfl, rfl⟩, rfl, rfl, ⟨⟨below 0 rfl, rfl⟩, by decide⟩, ⟨⟨below 0 rfl, rfl⟩, rfl⟩, test_meets_not_ChannelOk⟩
theorem test_meets_KeyloadStoresKey :
    ([1] : Bytes) ≠ [] ∧ ([1] : Bytes).length < 256 ∧ (zeros 255) ≠ [] ∧ (zeros 255).length < 256 := by
  decide +kernel
theorem test_meets_CprepSeedsEngine : mi1.length = 9 ∧ ChannelOk (one idle) 0 ∧ ¬ChannelOk State.reset 0 :=
  ⟨rfl, ⟨below 0 rfl, rfl⟩, test_meets_not_ChannelOk⟩
theorem test_meets_CprocAppliesKeystream : cw0.length = params.imbeLen ∧ ChannelOk (one idle) 0 :=
  ⟨rfl, ⟨below 0 rfl, rfl⟩⟩
/-- The first refusals of CHCFG, CPROC, TXENDP and TXENDD, at the values next to the legal ones. -/
theorem test_meets_illegal_operands :
    ((0 : BitVec 8) ≠ 1 ∧ (0 : BitVec 8) ≠ 2) ∧ ((3 : BitVec 8) ≠ 1 ∧ (3 : BitVec 8) ≠ 2) ∧
    ((2 : BitVec 8) ≠ 0 ∧ (2 : BitVec 8) ≠ 1) := by decide
theorem test_cproc_bad_role :
    (next (exec (.cproc 0 2 cw0) (one idle))).evt = [{ ch := 0, info := .refused .badArg 0x11 }] := by rfl
theorem test_meets_ProcessingTwiceRecovers :
    let fedA := [(Role.ldu1, cw0), (Role.ldu2, zeros 11)]
    let fedB := [(Role.ldu2, zeros 11), (Role.ldu2, cw0)]
    ChannelOk { one idle with keys := [(65536 * 0x84 + 1, k32)] } 0 ∧ mi1.length = 9 ∧ fedA.length = fedB.length ∧
    (∀ f ∈ fedA ++ fedB, f.2.length = params.imbeLen) ∧ cw0.length = params.imbeLen ∧
    (0x84 ∈ params.supportedAlgs ∧ keyOf [(65536 * 0x84 + 1, k32)] 0x84 1 ≠ none) ∧ clear 0x80 5 = true ∧
    clear 0x84 0 = true := by
  refine ⟨⟨below 0 rfl, rfl⟩, rfl, rfl, by decide, rfl, by decide, rfl, rfl⟩

theorem test_meets_TxstartOpensCall : InCall (one calling) 0 ∧ Configured (one idle) 0 :=
  ⟨test_meets_calling, test_meets_Configured.1⟩
theorem test_meets_SequenceCountsMessagesOfCall :
    InCall (one calling) 0 ∧ ((one calling).chan params 0).cs.pktSeq = 0 ∧
    ∀ i ∈ [Instr.txp25 0 cw0, .tick 5, .chfree 1], ¬Interrupts (0 : BitVec 16).toNat i := by
  refine ⟨test_meets_calling, rfl, ?_⟩
  intro i hi h
  simp only [List.mem_cons, List.not_mem_nil, or_false] at hi
  rcases hi with rfl | rfl | rfl <;> rcases h with h | ⟨ch, hc, h | h⟩ | ⟨ch, cause, hc, h | h⟩ <;> cases h
  revert hc; decide

/-- A channel in a call at a position of the superframe. -/
def atPos (n : BitVec 5) : Chan := { calling with cs := { calling.cs with p25FrameIndex := n } }

theorem test_meets_Txp25TakesCodeword :
    cw0.length = params.imbeLen ∧ ∀ n : BitVec 5, n = 0 ∨ n = 8 ∨ n = 9 ∨ n = 17 →
      InCall (one (atPos n)) 0 ∧ ((one (atPos n)).chan params (0 : BitVec 16).toNat).cs.p25FrameIndex.toNat < 18 := by
  refine ⟨rfl, fun n hn => ⟨⟨⟨⟨below 0 rfl, rfl⟩, rfl⟩, (by decide : calling.cs.txStreamId ≠ 0)⟩, ?_⟩⟩
  rcases hn with rfl | rfl | rfl | rfl <;> decide
theorem test_meets_NineCodewordsStandAtTheirOffsets :
    ∀ half : Role, ∃ x, InCall (one x) 0 ∧ clear ((one x).chan params (0 : BitVec 16).toNat).cfg.algoId
      ((one x).chan params (0 : BitVec 16).toNat).cfg.keyId = true ∧
      ((one x).chan params (0 : BitVec 16).toNat).cs.p25FrameIndex = (if half = .ldu1 then 0 else 9) ∧
      (List.replicate 9 cw0).length = 9 ∧ ∀ cw ∈ List.replicate 9 cw0, cw.length = params.imbeLen := by
  intro half
  cases half
  · exact ⟨atPos 0, ⟨⟨⟨below 0 rfl, rfl⟩, rfl⟩, (by decide : calling.cs.txStreamId ≠ 0)⟩, rfl, rfl, rfl, by decide⟩
  · exact ⟨atPos 9, ⟨⟨⟨below 0 rfl, rfl⟩, rfl⟩, (by decide : calling.cs.txStreamId ≠ 0)⟩, rfl, rfl, rfl, by decide⟩
theorem test_meets_PackAndUnpackAgree : (zeros 154).length = 154 ∧ (zeros 225).length = 225 := by decide +kernel
theorem test_meets_ImageAddsMarksAndSync : (zeros 225).length = 225 ∧ mi1.length = 9 := by decide +kernel
theorem test_meets_SentLduIsReadBack :
    let crypto : CryptoParams := { algoId := 0x84, keyId := 1, mi := mi1 }
    let sent (half : Role) : Bytes := zeros 24 ++ p25Pack params (p25Image params half (zeros 225) crypto)
    (∀ half, readAt (sent half) 24 154 = p25Pack params (p25Image params half (zeros 225) crypto) ∧
      178 ≤ (sent half).length) ∧
    hasHdu params (sent .ldu1) = false ∧
    (hasHdu params (sent .ldu1 ++ ([0, 0, 1] ++ zeros 12)) = true ∧
      193 ≤ (sent .ldu1 ++ ([0, 0, 1] ++ zeros 12)).length) := by
  refine ⟨fun half => ?_, by decide +kernel, by decide +kernel⟩
  cases half <;> decide +kernel

theorem test_meets_TxdmrTakesCodeword : mi1.length = params.ambeLen ∧ InCall (one calling) 0 :=
  ⟨rfl, test_meets_calling⟩
theorem test_meets_MiddleLeavesVoiceAlone : (zeros 27).length = 27 := by decide
theorem test_meets_DmrCallSendsHeaderThenFrames :
    InCall (one calling) 0 ∧ (List.replicate 6 mi1).length = 3 * 2 ∧
    (∀ cw ∈ List.replicate 6 mi1, cw.length = params.ambeLen) ∧
    (let x := (one calling).chan params (0 : BitVec 16).toNat
     x.cs.pktSeq = 0 ∧ x.cs.dmrSeqNo = 0 ∧ x.cs.dmrFrameIndex = 0 ∧ x.cs.ambeCount = 0 ∧
       x.cs.ambeBuffer.length = 27) := by
  exact ⟨test_meets_calling, rfl, by decide, rfl, rfl, rfl, rfl, by decide⟩

theorem test_meets_UnreachedChannelUntouched :
    ¬ReachesP25 ((one idle).chan params (one idle).turn) { event 1 1 [] with sys := 2 } ∧
    ¬ReachesDmr ((one idle).chan params (one idle).turn) 2 (event 1 1 []) ∧
    ¬ReachesP25 (State.reset.chan params State.reset.turn) (event 1 1 []) := by
  refine ⟨fun h => absurd h.2.2.1 (by decide), fun h => absurd h.2 (by decide), fun h => absurd h.1 (by decide)⟩
theorem test_meets_MalformedFrameChangesNothing :
    (lduData .ldu2).length < 65536 ∧
    p25Valid params .ldu1 (lduData .ldu2) = false ∧ p25Valid params .ldu2 ((lduData .ldu2).take 177) = false ∧
    (zeros 52).length < params.dmrBodyOff + 33 := by decide +kernel
theorem test_meets_FilteredFrameOnlyLogged :
    ((one receiving).turn = 0 ∧ (one receiving).chan params 0 = receiving) ∧
    ReachesP25 receiving (event 0xCAFE0001 1 []) ∧ ReachesDmr receiving 1 (event 0xCAFE0001 1 []) ∧
    dupCheck (one receiving).chans { event 0xCAFE0001 1 [] with peerId := 8 } 0 receiving = some .dupStale ∧
    p25Accepts params .term [] = true ∧ dmrValid params .other [] = true ∧
    p25Accepts params .ldu1 (lduData .ldu1) = true ∧ dmrValid params .voice (zeros 53) = true := by
  refine ⟨⟨rfl, rfl⟩, ⟨rfl, rfl, rfl, rfl⟩, ⟨⟨rfl, rfl, rfl, rfl⟩, rfl⟩, ?_⟩
  decide +kernel
theorem test_meets_IllegalSlotRefused :
    (written.data.length < 65536 ∧ (0 : BitVec 8) ≠ 1 ∧ (0 : BitVec 8) ≠ 2) ∧ (3 : BitVec 8) ≠ 1 ∧ (3 : BitVec 8) ≠ 2 := by
  decide

theorem test_meets_AcceptedP25 (half : Role) (id : BitVec 32) (h : id = 0xCAFE0001 ∨ id = 0xCAFE0002) :
    AcceptedP25 (one receiving) 0 receiving (event id 2000 (lduData half)) := by
  rcases h with rfl | rfl <;> cases half <;>
    exact ⟨by decide +kernel, rfl, rfl, ⟨rfl, rfl, rfl, rfl⟩, by decide +kernel⟩
theorem test_meets_Ldu1IsDecoded :
    let ev := event 0xCAFE0001 2000 (lduData .ldu1)
    AcceptedP25 (one receiving) 0 receiving ev ∧ p25Valid params .ldu1 ev.data = true ∧
    (tracked (one receiving) 0 receiving ev .p25 .p25).ch.cs.isReceiving = true :=
  ⟨test_meets_AcceptedP25 .ldu1 _ (.inl rfl), by decide +kernel, by decide +kernel⟩
theorem test_meets_Ldu2IsDecodedThenReseeds :
    let ev := event 0xCAFE0002 2000 (lduData .ldu2)
    AcceptedP25 (one receiving) 0 receiving ev ∧ p25Valid params .ldu2 ev.data = true ∧
    (tracked (one receiving) 0 receiving ev .p25 .p25).ch.cs.isReceiving = true :=
  ⟨test_meets_AcceptedP25 .ldu2 _ (.inr rfl), by decide +kernel, by decide +kernel⟩
/-- The channel of CST-2: idle, its last-known stream that of the event. -/
theorem test_meets_late_frame :
    let x := { idle with slotP25 := { idle.slotP25 with streamId := 0xCAFE0001 } }
    (∀ half, AcceptedP25 (one x) 0 x (event 0xCAFE0001 2000 (lduData half))) ∧
    p25Valid params .ldu1 (lduData .ldu1) = true ∧ p25Valid params .ldu2 (lduData .ldu2) = true ∧
    (∀ half, (tracked (one x) 0 x (event 0xCAFE0001 2000 (lduData half)) .p25 .p25).ch.cs.isReceiving = false) := by
  refine ⟨fun half => ?_, by decide +kernel, by decide +kernel, fun half => ?_⟩ <;> cases half
  all_goals first
    | exact ⟨by decide +kernel, rfl, rfl, ⟨rfl, rfl, rfl, rfl⟩, by decide +kernel⟩
    | decide +kernel
theorem test_meets_P25TerminatorEndsCall :
    AcceptedP25 (one receiving) 0 receiving (event 0xCAFE0001 2000 []) ∧ receiving.cs.isReceiving = true ∧
    receiving.slotP25.frameType.isTerm = false :=
  ⟨⟨by decide, rfl, rfl, ⟨rfl, rfl, rfl, rfl⟩, by decide +kernel⟩, rfl, rfl⟩
theorem test_meets_AcceptedDmr (slot : BitVec 8) (h : slot = 1 ∨ slot = 2) :
    ∃ x, AcceptedDmr (one x) 0 x slot (event 0x77 2000 (zeros 53)) ∧ params.dmrBodyOff + 33 ≤ (zeros 53).length := by
  rcases h with rfl | rfl
  · exact ⟨idle, ⟨by decide +kernel, .inl rfl, rfl, rfl, ⟨⟨rfl, rfl, rfl, rfl⟩, rfl⟩, by decide +kernel⟩, by decide +kernel⟩
  · exact ⟨{ idle with cfg := { idle.cfg with slot := 2 } },
      ⟨by decide +kernel, .inr rfl, rfl, rfl, ⟨⟨rfl, rfl, rfl, rfl⟩, rfl⟩, by decide +kernel⟩, by decide +kernel⟩
theorem test_meets_DmrTerminatorEndsCall :
    let x := { receiving with cs := { receiving.cs with rxProto := .dmr } }
    AcceptedDmr (one x) 0 x 1 (event 0xCAFE0001 2000 []) ∧ x.cs.isReceiving = true ∧
    (x.status (dmrSlot 1)).frameType.isTerm = false :=
  ⟨⟨by decide, .inl rfl, rfl, rfl, ⟨⟨rfl, rfl, rfl, rfl⟩, rfl⟩, by decide +kernel⟩, rfl, rfl⟩
theorem test_meets_HeaderLdu1GivesFreshMi :
    AcceptedP25 (one idle) 0 idle (event 0x22334455 1000 hduData) ∧ p25Valid params .ldu1 hduData = true ∧
    hasHdu params hduData = true ∧ (0x22334455 : BitVec 32) ≠ idle.slotP25.streamId := by
  exact ⟨⟨by decide +kernel, rfl, rfl, ⟨rfl, rfl, rfl, rfl⟩, by decide +kernel⟩, by decide +kernel, by decide +kernel,
    by decide⟩
/-- Two channels on one talkgroup and timeslot, fed frames of both protocols. -/
theorem test_meets_DuplicateStreamTakenOnce :
    let s := two idle idle
    let frames : List Frame :=
      [.p25 .ldu1 0 (event 0xCAFE0001 1000 (lduData .ldu1)), .p25 .other 3 (event 0xCAFE0001 1180 []),
       .dmr .voice 0 1 (event 0xCAFE0001 1240 (zeros 53))]
    0 < params.nch ∧ frames ≠ [] ∧ (∀ p ∈ s.chans, p.2.cs.rxStreamId ≠ 0xCAFE0001 ∧ p.2.cs.txStreamId ≠ 0xCAFE0001) ∧
    ∀ f ∈ frames, f.Sound ∧ f.event.streamId = 0xCAFE0001 ∧ f.event.peerId = 7 ∧ f.hits (s.chan params 0) = true ∧
      f.lastStream (s.chan params 0) ≠ 0xCAFE0001 ∧ ∀ d, d < 0 → f.hits (s.chan params d) = false := by
  refine ⟨Nat.succ_pos _, by simp, ?_, ?_⟩
  · intro p hp
    simp only [two, List.mem_cons, List.not_mem_nil, or_false] at hp
    rcases hp with rfl | rfl <;> decide
  · intro f hf
    simp only [List.mem_cons, List.not_mem_nil, or_false] at hf
    rcases hf with rfl | rfl | rfl
    · exact ⟨⟨by decide, by decide +kernel, by decide +kernel⟩, rfl, rfl, rfl, by decide, by omega⟩
    · exact ⟨⟨by decide, by decide +kernel, by decide +kernel⟩, rfl, rfl, rfl, by decide, by omega⟩
    · exact ⟨⟨by decide, by decide +kernel, .inl rfl, by decide +kernel⟩, rfl, rfl, rfl, by decide, by omega⟩
theorem test_meets_TickEndsStaleCall :
    (one receiving).turn = 0 ∧ (one receiving).chan params 0 = receiving ∧
    (receiving.valid = true ∧ receiving.cfg.set = true ∧ receiving.cs.isReceiving = true ∧
      receiving.cs.lastPacketTime.toNat + 2000 < (3181 : BitVec 64).toNat) ∧
    ¬receiving.cs.lastPacketTime.toNat + 2000 < (3180 : BitVec 64).toNat := by decide +kernel
theorem test_meets_ReceiveLeavesTransmitSide :
    Inbound (.tick 5) ∧ ∃ t, exec (.tick 5) (one calling) = .next t :=
  ⟨.inr (.inr ⟨5, rfl⟩), overChans (tickStep params 5) (one calling), rfl⟩
theorem test_meets_TransmitLeavesReceiveSide :
    (∃ t, exec (.txstart 0) (one receiving) = .next t) ∧ ¬Inbound (.txstart 0) ∧ ¬Manages (.txstart 0) := by
  refine ⟨⟨_, rfl⟩, ?_, ?_⟩
  · rintro (⟨cls, _, _, h⟩ | ⟨cls, _, _, _, h⟩ | ⟨_, h⟩)
    · cases cls <;> cases h
    · cases cls <;> cases h
    · cases h
  · rintro (h | ⟨_, h⟩ | ⟨_, h⟩ | ⟨_, _, _, _, _, _, _, h⟩) <;> cases h
theorem test_meets_OnlyKeyloadAndResetWriteKeys :
    (∃ t, exec (.ccycle 0) (one idle) = .next t) ∧ Instr.ccycle 0 ≠ .reset ∧
    ∀ a k key, Instr.ccycle 0 ≠ .keyload a k key := ⟨⟨_, rfl⟩, by simp, by simp⟩
theorem test_meets_OtherChannelsUntouched :
    channelOf (.chfree 0) = some 0 ∧ (∃ t, exec (.chfree 0) (two idle idle) = .next t) ∧ (1 : Nat) ≠ 0 :=
  ⟨rfl, ⟨chfree params 0 (two idle idle), rfl⟩, by decide⟩
theorem test_meets_RefusalWritesNothing :
    ∃ t, exec (.txstart 0) (one calling) = .next t ∧
      t.evt = (one calling).evt ++ [{ ch := 0, info := .refused .busy 0x20 }] := ⟨_, rfl, rfl⟩

end Sys2Proof.Tests
end

