-- ==== Sys2Proof/Proofs/Guards.lean ====
section
/-! PROOFS. The rules of a command behind its checks: which check passes or fails is read off the checks one by one, and
`CheckCh` is the condition `ChannelOk` of the statements. -/

namespace Sys2Proof.Proofs

open Sys2Proof Sys2Proof.Machine Sys2Proof.Claims

/-- With no check left a guarded command has its effect. -/
@[simp] theorem guarded_nil (s : State) (ch : BitVec 16) (op : BitVec 8) (effect : State) :
    guarded s ch op [] effect = effect := rfl

/-- A check that passes leaves the command behind the checks that follow it. -/
theorem guarded_cons_pass (s : State) (ch : BitVec 16) (op : BitVec 8) {ok : Bool} (r : RefuseCode)
    (checks : List (Bool × RefuseCode)) (effect : State) (h : ok = true) :
    guarded s ch op ((ok, r) :: checks) effect = guarded s ch op checks effect := by
  subst h; rfl

/-- A check that fails refuses the command with its own code, whatever follows it (R266). -/
theorem guarded_cons_fail (s : State) (ch : BitVec 16) (op : BitVec 8) {ok : Bool} (r : RefuseCode)
    (checks : List (Bool × RefuseCode)) (effect : State) (h : ok = false) :
    guarded s ch op ((ok, r) :: checks) effect = refusedAs s r ch op := by
  subst h; rfl

/-- `CheckCh` passes exactly where the statements say the channel is (R125). -/
theorem chOk_iff_ChannelOk (s : State) (ch : BitVec 16) : chOk params s ch = true ↔ ChannelOk s ch := by
  simp [chOk, ChannelOk, and_comm]

/-- `CheckCh` fails exactly where the channel is not (R125). -/
theorem chOk_eq_false_iff (s : State) (ch : BitVec 16) : chOk params s ch = false ↔ ¬ChannelOk s ch := by
  rw [← chOk_iff_ChannelOk, Bool.not_eq_true]

end Sys2Proof.Proofs
end

