-- ==== Sys2Proof/Proofs/Management.lean ====
section
/-! PROOFS. The management operations CHINIT, CHFREE and KEYLOAD (40_config_and_ports.md R121, R122, R124). -/

namespace Sys2Proof.Proofs

open Sys2Proof Sys2Proof.Machine Sys2Proof.Claims

/-! ## The dispatch -/

theorem exec_chinit (ch : BitVec 16) (s : State) : exec (.chinit ch) s = .next (chinit params ch s) := rfl

theorem exec_chfree (ch : BitVec 16) (s : State) : exec (.chfree ch) s = .next (chfree params ch s) := rfl

theorem exec_keyload (algId : BitVec 8) (keyId : BitVec 16) (key : Bytes) (s : State) :
    exec (.keyload algId keyId key) s = .next (keyload algId keyId key s) := rfl

/-! ## The slot's values (10_state.md R50) -/

/-- The model's slot after RESET is the one the table of R50 writes out. -/
theorem chan_reset_eq_slotAfterReset : Chan.reset params = slotAfterReset := rfl

/-- The model's slot after CHINIT is that of R50, made valid. -/
theorem chan_init_eq : Chan.init params = { slotAfterReset with valid := true } := rfl

/-- A write of a slot changes nothing but the channel array. -/
theorem setChan_frame (K : Cfg) (s : State) (c : Nat) (x : Chan) :
    s.setChan K c x = { s with chans := (s.setChan K c x).chans } := rfl

/-- A write of a valid slot, in the words of the statements. -/
theorem setChan_eq_withSlot {K : Cfg} {x : Chan} (s : State) (c : Nat) (h : x.valid = true) :
    s.setChan K c x = withSlot s c x :=
  State.setChan_valid h

/-! ## CHINIT (R121) -/

theorem chinit_of_lt {s : State} {ch : BitVec 16} (h : ch.toNat < params.nch) :
    chinit params ch s = withSlot s ch.toNat { slotAfterReset with valid := true } :=
  calc chinit params ch s
      = s.setChan params ch.toNat (Chan.init params) := guarded_cons_pass _ _ _ _ _ _ (decide_eq_true h)
    _ = withSlot s ch.toNat (Chan.init params) := setChan_eq_withSlot s _ rfl
    _ = withSlot s ch.toNat { slotAfterReset with valid := true } := by rw [chan_init_eq]

theorem chinit_of_ge {s : State} {ch : BitVec 16} (h : params.nch ≤ ch.toNat) :
    chinit params ch s = refusedAs s .badCh ch 0x01 :=
  guarded_cons_fail _ _ _ _ _ _ (decide_eq_false h.not_gt)

/-- Settles O12: the one check of CHINIT is on the index. -/
theorem chinitCreatesSlot : Obligations.ChinitCreatesSlot := by
  intro s ch
  constructor
  · intro h
    rw [exec_chinit, chinit_of_lt h]
  · intro h
    rw [exec_chinit, chinit_of_ge h]

/-! ## CHFREE (R122) -/

theorem chfree_of_ChannelOk {s : State} {ch : BitVec 16} (h : ChannelOk s ch) :
    chfree params ch s = s.setChan params ch.toNat slotAfterReset := by
  rw [← chan_reset_eq_slotAfterReset]
  exact guarded_cons_pass _ _ _ _ _ _ ((chOk_iff_ChannelOk s ch).mpr h)

theorem chfree_of_not_ChannelOk {s : State} {ch : BitVec 16} (h : ¬ChannelOk s ch) :
    chfree params ch s = refusedAs s .badCh ch 0x03 :=
  guarded_cons_fail _ _ _ _ _ _ ((chOk_eq_false_iff s ch).mpr h)

/-- Settles O13: a freed slot leaves the list of channels, and a slot that is not listed reads as after RESET. -/
theorem chfreeForgetsSlot : Obligations.ChfreeForgetsSlot := by
  intro s ch
  constructor
  · intro h
    refine ⟨s.setChan params ch.toNat slotAfterReset, ?_, setChan_frame .., fun d => ?_⟩
    · rw [exec_chfree, chfree_of_ChannelOk h]
    · exact State.chan_setChan params s ch.toNat d slotAfterReset
  · intro h
    rw [exec_chfree, chfree_of_not_ChannelOk h]

/-! ## KEYLOAD (R124) -/

/-- An empty key passes the test of its length and fails the next. -/
theorem keyload_empty (algId : BitVec 8) (keyId : BitVec 16) (s : State) :
    keyload algId keyId [] s = refusedAs s .badArg 0xFFFF 0x04 :=
  calc keyload algId keyId [] s
      = guarded s noCh 0x04 [(decide (([] : Bytes) ≠ []), .badArg)]
          { s with keys := mapPut s.keys (keyIx algId keyId) [] } := guarded_cons_pass _ _ _ _ _ _ (by simp)
    _ = refusedAs s .badArg 0xFFFF 0x04 := guarded_cons_fail _ _ _ _ _ _ (by simp)

theorem keyload_of_fits {key : Bytes} (algId : BitVec 8) (keyId : BitVec 16) (s : State) (hne : key ≠ [])
    (hlen : key.length < 256) :
    keyload algId keyId key s = { s with keys := mapPut s.keys (keyIx algId keyId) key } := by
  unfold keyload
  rw [guarded_cons_pass _ _ _ _ _ _ (decide_eq_true hlen), guarded_cons_pass _ _ _ _ _ _ (decide_eq_true hne),
    guarded_nil]

/-- Settles O15: the number a pair's key is held under tells the pairs apart, so the write is read back for its own pair
alone. -/
theorem keyloadStoresKey : Obligations.KeyloadStoresKey := by
  intro s algId keyId key
  constructor
  · rintro rfl
    rw [exec_keyload, keyload_empty]
  · intro hne hlen
    refine ⟨{ s with keys := mapPut s.keys (keyIx algId keyId) key }, ?_, rfl, fun a k => ?_⟩
    · rw [exec_keyload, keyload_of_fits algId keyId s hne hlen]
    · exact keyOf_mapPut s.keys algId a keyId k key

end Sys2Proof.Proofs
end

