-- ==== Sys2Proof/Proofs/Steps.lean ====
section
/-! PROOFS. The end of a step on one channel in the words of the statements: what the model commits is `stepEnds`. -/

namespace Sys2Proof.Proofs

open Sys2Proof Sys2Proof.Machine Sys2Proof.Claims

/-- A record on the channel an operand names carries the operand itself. -/
@[simp] theorem chId_toNat (ch : BitVec 16) : chId ch.toNat = ch := by simp [chId]

/-- The commit of a step that leaves a valid slot, in the words of the statements. -/
theorem commit_eq_stepEnds {K : Cfg} {w : Work} (s : State) (c : Nat) (h : w.ch.valid = true) :
    s.commit K c w = stepEnds s c w :=
  State.commit_valid h

end Sys2Proof.Proofs
end

