-- ==== Sys2Proof/Proofs/Crypto.lean ====
section
/-! PROOFS. The crypto operations CPREP and CCYCLE (41_crypto.md R150, R152). Both are a prepare between a write of
ChannelState and an answer on RSP, so both rest on one fact: a prepare leaves what `seedOf` writes out (R142). -/

namespace Sys2Proof.Proofs

open Sys2Proof Sys2Proof.Machine Sys2Proof.Claims

/-! ## The dispatch -/

theorem exec_cprep (ch : BitVec 16) (algId : BitVec 8) (keyId : BitVec 16) (mi : Bytes) (s : State) :
    exec (.cprep ch algId keyId mi) s = .next (cprep params ch algId keyId mi s) := rfl

theorem exec_ccycle (ch : BitVec 16) (s : State) : exec (.ccycle ch) s = .next (ccycle params ch s) := rfl

/-! ## The four seeds of R142 -/

theorem clear_eq_isClear (algId : BitVec 8) (keyId : BitVec 16) : clear algId keyId = isClear params algId keyId := rfl

theorem supported_iff_mem (algId : BitVec 8) : supported params algId = true ↔ algId ∈ params.supportedAlgs :=
  List.contains_iff_mem

section Seeds

variable (s : State) (c : Nat) {algId : BitVec 8} {keyId : BitVec 16} (mi : Bytes) (e : Engine) (noKey : Bool)

theorem seedOf_of_clear (hclear : isClear params algId keyId = true) :
    seedOf s c algId keyId mi e noKey =
      { status := 1, eng := seedWith algId keyId mi (.bytes []), noKey := false, evt := [] } :=
  if_pos hclear

theorem seedOf_of_unsupported (hclear : isClear params algId keyId = false) (hsup : supported params algId = false) :
    seedOf s c algId keyId mi e noKey =
      { status := 3, eng := e, noKey := noKey, evt := [{ ch := chId c, info := .prepFail algId }] } := by
  have hmem : algId ∉ params.supportedAlgs := by rw [← supported_iff_mem, hsup]; exact Bool.false_ne_true
  unfold seedOf
  rw [clear_eq_isClear, if_neg (ne_true_of_eq_false hclear), if_neg hmem]
  rfl

theorem seedOf_of_noKey (hclear : isClear params algId keyId = false) (hsup : supported params algId = true)
    (hkey : keyOf s.keys algId keyId = none) :
    seedOf s c algId keyId mi e noKey =
      { status := 2, eng := seedWith algId keyId mi .undef, noKey := true,
        evt := [{ ch := chId c, info := .noKey algId keyId }] } := by
  have hget : mapGet s.keys (65536 * algId.toNat + keyId.toNat) = none := hkey
  unfold seedOf
  rw [clear_eq_isClear, if_neg (ne_true_of_eq_false hclear), if_pos ((supported_iff_mem algId).mp hsup), hget]
  rfl

theorem seedOf_of_key {key : Bytes} (hclear : isClear params algId keyId = false)
    (hsup : supported params algId = true) (hkey : keyOf s.keys algId keyId = some key) :
    seedOf s c algId keyId mi e noKey =
      { status := 0, eng := seedWith algId keyId mi (.bytes (params.keystream algId key mi)), noKey := false,
        evt := [] } := by
  have hget : mapGet s.keys (65536 * algId.toNat + keyId.toNat) = some key := hkey
  unfold seedOf
  rw [clear_eq_isClear, if_neg (ne_true_of_eq_false hclear), if_pos ((supported_iff_mem algId).mp hsup), hget]
  rfl

end Seeds

/-! ## A prepare leaves its seed -/

/-- A step's work after a prepare that leaves the given seed: engine, flag and records are the seed's. -/
def seeded (seed : Seed) (w : Work) : Work :=
  { w with
    ch := { w.ch with eng := seed.eng, cs := { w.ch.cs with noKey := seed.noKey } }
    evt := w.evt ++ seed.evt }

/-- The model's prepare leaves the seed of the statements and answers with its status, in each of the four cases of
R142. -/
theorem prepare_eq_seeded (s : State) (c : Nat) (algId : BitVec 8) (keyId : BitVec 16) (mi : Bytes) (w : Work) :
    let seed := seedOf s c algId keyId mi w.ch.eng w.ch.cs.noKey
    ∃ r, prepare params s.keys c algId keyId mi w = (r, seeded seed w) ∧ r.status = seed.status := by
  rcases prepare_cases params s.keys c algId keyId mi w with
    ⟨hclear, hprep⟩ | ⟨hclear, hsup, hprep⟩ | ⟨hclear, hsup, hkey, hprep⟩ | ⟨hclear, hsup, key, hkey, hprep⟩
  · rw [hprep, seedOf_of_clear s c mi _ _ hclear]
    exact ⟨.clear, by simp [seeded], rfl⟩
  · rw [hprep, seedOf_of_unsupported s c mi _ _ hclear hsup]
    exact ⟨.fail, rfl, rfl⟩
  · rw [hprep, seedOf_of_noKey s c mi _ _ hclear hsup hkey]
    exact ⟨.noKey, rfl, rfl⟩
  · rw [hprep, seedOf_of_key s c mi _ _ hclear hsup hkey]
    exact ⟨.seeded, by simp [seeded], rfl⟩

/-- Where its answer is not used, a prepare leaves the seed of the statements all the same. -/
theorem prep_eq_seeded (s : State) (c : Nat) (algId : BitVec 8) (keyId : BitVec 16) (mi : Bytes) (w : Work) :
    prep params s.keys c algId keyId mi w = seeded (seedOf s c algId keyId mi w.ch.eng w.ch.cs.noKey) w := by
  obtain ⟨r, hprep, -⟩ := prepare_eq_seeded s c algId keyId mi w
  unfold prep
  rw [hprep]

/-! ## CPREP (R150) -/

/-- The work of CPREP: the live parameters are written, the seed is left, its status is the answer. -/
theorem cprepWork_eq (s : State) (c : Nat) (algId : BitVec 8) (keyId : BitVec 16) (mi : Bytes) (w : Work) :
    cprepWork params s.keys c algId keyId mi w =
      (let seed := seedOf s c algId keyId mi w.ch.eng w.ch.cs.noKey
       (seeded seed (w.setCs { w.ch.cs with algId := algId, keyId := keyId, mi := mi })).emitRsp c 0x10
         [seed.status]) := by
  obtain ⟨r, hprep, hstatus⟩ :=
    prepare_eq_seeded s c algId keyId mi (w.setCs { w.ch.cs with algId := algId, keyId := keyId, mi := mi })
  unfold cprepWork
  simp only [hprep, hstatus]
  rfl

theorem cprep_of_ChannelOk {s : State} {ch : BitVec 16} {mi : Bytes} (algId : BitVec 8) (keyId : BitVec 16)
    (hlen : mi.length = miLen) (h : ChannelOk s ch) :
    cprep params ch algId keyId mi s =
      stepEnds s ch.toNat (cprepWork params s.keys ch.toNat algId keyId mi (s.work params ch.toNat)) := by
  unfold cprep
  rw [guarded_cons_pass _ _ _ _ _ _ (decide_eq_true hlen),
    guarded_cons_pass _ _ _ _ _ _ ((chOk_iff_ChannelOk s ch).mpr h), guarded_nil, cprepWork_eq]
  exact commit_eq_stepEnds s _ h.2

theorem cprep_of_not_ChannelOk {s : State} {ch : BitVec 16} {mi : Bytes} (algId : BitVec 8) (keyId : BitVec 16)
    (hlen : mi.length = miLen) (h : ¬ChannelOk s ch) :
    cprep params ch algId keyId mi s = refusedAs s .badCh ch 0x10 := by
  unfold cprep
  rw [guarded_cons_pass _ _ _ _ _ _ (decide_eq_true hlen),
    guarded_cons_fail _ _ _ _ _ _ ((chOk_eq_false_iff s ch).mpr h)]

/-- Settles O16: behind its checks CPREP is one prepare, and a prepare leaves its seed. -/
theorem cprepSeedsEngine : Obligations.CprepSeedsEngine := by
  intro s ch algId keyId mi hlen x seed
  constructor
  · intro h
    rw [exec_cprep, cprep_of_not_ChannelOk algId keyId hlen h]
  · intro h
    rw [exec_cprep, cprep_of_ChannelOk algId keyId hlen h, cprepWork_eq]
    simp [seeded, Work.setCs, Work.emitRsp, State.work, x, seed]

/-! ## CCYCLE (R152) -/

/-- The work of CCYCLE: the cycled MI is written, the seed under the engine's own algorithm and key is left, the MI is
the answer. -/
theorem ccycleWork_eq (s : State) (c : Nat) (w : Work) :
    ccycleWork params s.keys c w =
      (let m := params.miCycle w.ch.cs.mi
       let seed := seedOf s c w.ch.eng.algoId w.ch.eng.keyId m w.ch.eng w.ch.cs.noKey
       (seeded seed (w.setCs { w.ch.cs with mi := m })).emitRsp c 0x12 m) := by
  unfold ccycleWork
  simp only [prep_eq_seeded]
  rfl

theorem ccycle_of_ChannelOk {s : State} {ch : BitVec 16} (h : ChannelOk s ch) :
    ccycle params ch s = stepEnds s ch.toNat (ccycleWork params s.keys ch.toNat (s.work params ch.toNat)) := by
  unfold ccycle
  rw [guarded_cons_pass _ _ _ _ _ _ ((chOk_iff_ChannelOk s ch).mpr h), guarded_nil, ccycleWork_eq]
  exact commit_eq_stepEnds s _ h.2

theorem ccycle_of_not_ChannelOk {s : State} {ch : BitVec 16} (h : ¬ChannelOk s ch) :
    ccycle params ch s = refusedAs s .badCh ch 0x12 :=
  guarded_cons_fail _ _ _ _ _ _ ((chOk_eq_false_iff s ch).mpr h)

/-- Settles O18: behind its check CCYCLE is one prepare with the cycled MI, and a prepare leaves its seed. -/
theorem ccycleCyclesMi : Obligations.CcycleCyclesMi := by
  intro s ch x m seed
  constructor
  · intro h
    rw [exec_ccycle, ccycle_of_not_ChannelOk h]
  · intro h
    rw [exec_ccycle, ccycle_of_ChannelOk h, ccycleWork_eq]
    simp [seeded, Work.setCs, Work.emitRsp, State.work, x, m, seed]

end Sys2Proof.Proofs
end

