-- ==== Sys2Proof/Proofs/Transmit.lean ====
section
/-! PROOFS. What the transmit commands share: the three checks on the channel that TXP25, TXDMR, TXENDP and TXENDD make
(40_config_and_ports.md R125, 60_exceptions.md R266), and the codeword that goes through the engine (41_crypto.md
R145). -/

namespace Sys2Proof.Proofs

open Sys2Proof Sys2Proof.Machine Sys2Proof.Claims

/-- Behind the checks on the channel, its configuration and its call, a command is refused by the first that fails, and
on a channel in a call it has its effect. -/
theorem guarded_callChecks (s : State) (ch : BitVec 16) (op : BitVec 8) (effect : State) :
    let t := guarded s ch op
      [(chOk params s ch, .badCh), (cfgOk params s ch, .noCfg), (callOpen params s ch, .noCall)] effect
    (¬ChannelOk s ch → t = refusedAs s .badCh ch op) ∧
    (ChannelOk s ch → (s.chan params ch.toNat).cfg.set = false → t = refusedAs s .noCfg ch op) ∧
    (Configured s ch → (s.chan params ch.toNat).cs.txStreamId = 0 → t = refusedAs s .noCall ch op) ∧
    (InCall s ch → t = effect) := by
  intro t
  have hpass (h : ChannelOk s ch) :
      t = guarded s ch op [(cfgOk params s ch, .noCfg), (callOpen params s ch, .noCall)] effect :=
    guarded_cons_pass _ _ _ _ _ _ ((chOk_iff_ChannelOk s ch).mpr h)
  have hpassCfg (h : Configured s ch) : t = guarded s ch op [(callOpen params s ch, .noCall)] effect :=
    (hpass h.1).trans (guarded_cons_pass _ _ _ _ _ _ h.2)
  refine ⟨fun h => ?_, fun h hset => ?_, fun h hidle => ?_, fun ⟨h, hcall⟩ => ?_⟩
  · exact guarded_cons_fail _ _ _ _ _ _ ((chOk_eq_false_iff s ch).mpr h)
  · exact (hpass h).trans (guarded_cons_fail _ _ _ _ _ _ hset)
  · exact (hpassCfg h).trans (guarded_cons_fail _ _ _ _ _ _ (bne_eq_false_iff_eq.mpr hidle))
  · exact (hpassCfg h).trans (guarded_cons_pass _ _ _ _ _ _ (bne_iff_ne.mpr hcall))

/-- A step's work after a codeword has gone through the engine: engine and draws are those it left. -/
def advanced (a : Applied) (w : Work) : Work := { w with ch := { w.ch with eng := a.eng }, draws := a.draws }

/-! ## The three cases of R145 -/

section Applied

variable {e : Engine} (role : Role) (draws : Nat) (cw : Bytes)

theorem applied_of_clear (hclear : isClear params e.algoId e.keyId = true) :
    applied e role draws cw = { out := cw, eng := e, draws := draws } :=
  if_pos hclear

theorem applied_of_undef (hclear : isClear params e.algoId e.keyId = false) (hks : e.ks = .undef) :
    applied e role draws cw =
      { out := xorBytes cw (params.bytesAt draws params.imbeLen), eng := { e with ksPos := nextKsPos e.ksPos },
        draws := draws + 1 } :=
  (if_neg (ne_true_of_eq_false hclear)).trans (by rw [hks]; rfl)

theorem applied_of_bytes {ks : Bytes} (hclear : isClear params e.algoId e.keyId = false) (hks : e.ks = .bytes ks) :
    applied e role draws cw =
      { out := xorBytes cw (readAt ks (params.ksOffset e.algoId role e.ksPos.toNat) params.imbeLen),
        eng := { e with ksPos := nextKsPos e.ksPos }, draws := draws } :=
  (if_neg (ne_true_of_eq_false hclear)).trans (by rw [hks]; rfl)

end Applied

/-- The model's process gives the codeword of the statements and leaves the engine of the statements. -/
theorem process_eq_advanced (cw : Bytes) (role : Role) (w : Work) :
    process params cw role w =
      (let a := applied w.ch.eng role w.draws cw
       (a.out, advanced a w)) := by
  rcases process_cases params cw role w with ⟨hclear, h⟩ | ⟨hclear, hks, h⟩ | ⟨hclear, ks, hks, h⟩
  · rw [h, applied_of_clear role w.draws cw hclear]
    rfl
  · rw [h, applied_of_undef role w.draws cw hclear hks]
    rfl
  · rw [h, applied_of_bytes role w.draws cw hclear hks]
    rfl

end Sys2Proof.Proofs
end

