-- ==== Sys2Proof/Proofs/P25Framer.lean ====
section
/-! PROOFS. TXP25 (42_p25_framer.md R162). The step falls into two halves that meet in the codeword as it is sent: what
the encryption leaves on the channel (`ciphered`), and what the framing makes of the codeword. Each part of the model is
given once by an equation in the position of the codeword; the halves put together are `txp25Ends` by definition. -/

namespace Sys2Proof.Proofs

open Sys2Proof Sys2Proof.Machine Sys2Proof.Claims

theorem exec_txp25 (ch : BitVec 16) (cw : Bytes) (s : State) :
    exec (.txp25 ch cw) s = .next (txp25 params ch cw s) := rfl

/-! ## The encryption half (R161, R162, R165) -/

/-- R162's encryption in the words of the statements: the codeword as it is sent and the step's work after it. On an
encrypted channel there are a first MI and a seed at position 0, the codeword goes through the engine, and there are the
next MI and its seed at position 17. -/
def ciphered (s : State) (c : Nat) (cw : Bytes) (w : Work) : Bytes × Work :=
  let x := w.ch
  let enc := !clear x.cfg.algoId x.cfg.keyId
  let drawn := enc && (w.p25Pos == 0 && x.cs.mi == zeros 9)
  let mi0 := if drawn then params.miAt w.draws else x.cs.mi
  let draws0 := if drawn then w.draws + 1 else w.draws
  let seed0 :=
    if enc && w.p25Pos == 0 then seedOf s c x.cfg.algoId x.cfg.keyId mi0 x.eng x.cs.noKey
    else unseeded x.eng x.cs.noKey
  let sent :=
    if enc then applied seed0.eng (if w.p25Pos < 9 then .ldu1 else .ldu2) draws0 cw
    else { out := cw, eng := seed0.eng, draws := draws0 }
  let mi1 := if enc && w.p25Pos == 17 then params.miCycle mi0 else mi0
  let seed1 :=
    if enc && w.p25Pos == 17 then seedOf s c x.cfg.algoId x.cfg.keyId mi1 sent.eng seed0.noKey
    else unseeded sent.eng seed0.noKey
  (sent.out,
    { w with
      ch := { x with eng := seed1.eng, cs := { x.cs with mi := mi1, noKey := seed1.noKey } }
      draws := sent.draws
      evt := w.evt ++ (seed0.evt ++ seed1.evt) })

@[simp] theorem unseeded_eng (e : Engine) (noKey : Bool) : (unseeded e noKey).eng = e := rfl

@[simp] theorem unseeded_noKey (e : Engine) (noKey : Bool) : (unseeded e noKey).noKey = noKey := rfl

@[simp] theorem unseeded_evt (e : Engine) (noKey : Bool) : (unseeded e noKey).evt = [] := rfl

/-- The seed at position 0: the channel's MI, or a drawn one where it holds none. -/
theorem p25Seed_eq (s : State) (c : Nat) (w : Work) :
    p25Seed params s.keys c w =
      (let drawn := w.ch.cs.mi == zeros 9
       let mi := if drawn then params.miAt w.draws else w.ch.cs.mi
       seeded (seedOf s c w.ch.cfg.algoId w.ch.cfg.keyId mi w.ch.eng w.ch.cs.noKey)
         { w with
           ch := { w.ch with cs := { w.ch.cs with mi := mi } }
           draws := if drawn then w.draws + 1 else w.draws }) := by
  refine (prep_eq_seeded s c _ _ _ _).trans ?_
  by_cases h : w.ch.cs.mi = zeros miLen
  · have hnone : (w.ch.cs.mi == zeros 9) = true := beq_iff_eq.mpr h
    simp only [if_pos h, hnone, if_true]
    rfl
  · have hheld : (w.ch.cs.mi == zeros 9) = false := beq_eq_false_iff_ne.mpr h
    simp only [if_neg h, hheld, Bool.false_eq_true, if_false]

/-- The seed after position 17: the cycled MI. -/
theorem p25Resync_eq (s : State) (c : Nat) (w : Work) :
    p25Resync params s.keys c w =
      (let mi := params.miCycle w.ch.cs.mi
       seeded (seedOf s c w.ch.cfg.algoId w.ch.cfg.keyId mi w.ch.eng w.ch.cs.noKey)
         (w.setCs { w.ch.cs with mi := mi })) :=
  prep_eq_seeded s c _ _ _ _

theorem txEnc_eq_not_clear (x : ChanCfg) : txEnc params x = !clear x.algoId x.keyId := rfl

theorem p25Encrypt_of_clear {s : State} {c : Nat} {w : Work} (cw : Bytes)
    (h : clear w.ch.cfg.algoId w.ch.cfg.keyId = true) : p25Encrypt params s.keys c cw w = (cw, w) :=
  if_neg (by simp [txEnc_eq_not_clear, h])

theorem p25Encrypt_of_encrypted {s : State} {c : Nat} {w : Work} (cw : Bytes)
    (h : clear w.ch.cfg.algoId w.ch.cfg.keyId = false) :
    p25Encrypt params s.keys c cw w =
      (let v := if w.p25Pos = 0 then p25Seed params s.keys c w else w
       let a := applied v.ch.eng (if w.p25Pos < 9 then .ldu1 else .ldu2) v.draws cw
       (a.out, if w.p25Pos = 17 then p25Resync params s.keys c (advanced a v) else advanced a v)) := by
  have henc : txEnc params w.ch.cfg = true := by simp [txEnc_eq_not_clear, h]
  refine (if_pos henc).trans ?_
  simp only [process_eq_advanced]
  rfl

/-- The model's encryption gives the codeword of the statements and leaves what they say: nothing on a clear channel, a
seed before at position 0, a seed after at position 17, the engine's move alone between. -/
theorem p25Encrypt_eq (s : State) (c : Nat) (cw : Bytes) (w : Work) :
    p25Encrypt params s.keys c cw w = ciphered s c cw w := by
  delta ciphered
  cases h : clear w.ch.cfg.algoId w.ch.cfg.keyId with
  | true =>
    rw [p25Encrypt_of_clear cw h]
    simp [h]
  | false =>
    rw [p25Encrypt_of_encrypted cw h]
    by_cases h0 : w.p25Pos = 0
    · simp [h, h0, p25Seed_eq]
      exact ⟨rfl, rfl⟩
    · by_cases h17 : w.p25Pos = 17
      · simp [h, h17, p25Resync_eq]
        rfl
      · simp [h, h0, h17]
        rfl

/-! ## The framing half (R160, R162, R163) -/

theorem p25Clear_eq (w : Work) :
    p25Clear w = w.setCs { w.ch.cs with
      netLdu1 := if w.p25Pos = 0 then zeros 225 else w.ch.cs.netLdu1
      netLdu2 := if w.p25Pos = 9 then zeros 225 else w.ch.cs.netLdu2 } := by
  by_cases h0 : w.p25Pos = 0
  · have h9 : w.p25Pos ≠ 9 := by omega
    rw [if_pos h0, if_neg h9]
    exact if_pos h0
  · by_cases h9 : w.p25Pos = 9
    · rw [if_neg h0, if_pos h9]
      exact (if_neg h0).trans (if_pos h9)
    · rw [if_neg h0, if_neg h9]
      exact (if_neg h0).trans (if_neg h9)

theorem p25Pos_p25Clear (w : Work) : (p25Clear w).p25Pos = w.p25Pos := by
  rw [p25Clear_eq]
  rfl

/-- The encryption neither reads nor writes the buffers, so it may as well come before the clearing. -/
theorem ciphered_p25Clear (s : State) (c : Nat) (cw : Bytes) (w : Work) :
    ciphered s c cw (p25Clear w) = ((ciphered s c cw w).1, p25Clear (ciphered s c cw w).2) := by
  rw [p25Clear_eq, p25Clear_eq]
  rfl

theorem p25Place_of_lt {w : Work} (out : Bytes) (h : w.p25Pos < 9) :
    p25Place out w = w.setCs { w.ch.cs with netLdu1 := writeAt w.ch.cs.netLdu1 (cwPos w.p25Pos) out } := by
  have hrole : roleAt w.p25Pos = .ldu1 := if_pos h
  have hmod : w.p25Pos % lduCw = w.p25Pos := Nat.mod_eq_of_lt h
  delta p25Place
  rw [hrole, hmod]

theorem p25Place_of_ge {w : Work} (out : Bytes) (h : ¬w.p25Pos < 9) :
    p25Place out w = w.setCs { w.ch.cs with netLdu2 := writeAt w.ch.cs.netLdu2 (cwPos (w.p25Pos % 9)) out } := by
  have hrole : roleAt w.p25Pos = .ldu2 := if_neg h
  delta p25Place
  rw [hrole]
  rfl

/-- Clearing and then placing: a half is cleared at its first position, written where the codeword is its own, and kept
otherwise. Position 0 lies in the first half and position 9 in the second, so the half that is not written is not
cleared either. -/
theorem p25Place_p25Clear (out : Bytes) (w : Work) :
    p25Place out (p25Clear w) =
      (let n := w.p25Pos
       let first := if n = 0 then zeros 225 else w.ch.cs.netLdu1
       let second := if n = 9 then zeros 225 else w.ch.cs.netLdu2
       w.setCs { w.ch.cs with
         netLdu1 := if n < 9 then writeAt first (cwPos n) out else w.ch.cs.netLdu1
         netLdu2 := if n < 9 then w.ch.cs.netLdu2 else writeAt second (cwPos (n % 9)) out }) := by
  have hpos : (p25Clear w).p25Pos = w.p25Pos := p25Pos_p25Clear w
  by_cases hfirst : w.p25Pos < 9
  · have h9 : w.p25Pos ≠ 9 := hfirst.ne
    rw [p25Place_of_lt _ (hpos.symm ▸ hfirst), hpos, p25Clear_eq]
    simp only [if_pos hfirst, if_neg h9]
    rfl
  · have h0 : w.p25Pos ≠ 0 := by omega
    rw [p25Place_of_ge _ (hpos.symm ▸ hfirst), hpos, p25Clear_eq]
    simp only [if_neg hfirst, if_neg h0]
    rfl

/-- A message goes out at positions 8 and 17 and nowhere else, and `pktSeq` advances with it. -/
theorem p25Send_eq (c : Nat) (w : Work) :
    p25Send params c w =
      (let n := w.p25Pos
       let crypto := cryptoSnapshot w.ch.cfg w.ch.cs.mi
       { w with
         ch := { w.ch with cs := { w.ch.cs with
           pktSeq := if n = 8 ∨ n = 17 then seqAfter w.ch.cs.pktSeq else w.ch.cs.pktSeq } }
         net := w.net ++
           if n = 8 then
             [p25Record c w.ch .p25Ldu1 w.ch.cs.mi (w.ch.cs.p25SeqNo == 8)
               (p25Pack params (p25Image params .ldu1 w.ch.cs.netLdu1 crypto))]
           else if n = 17 then
             [p25Record c w.ch .p25Ldu2 w.ch.cs.mi false
               (p25Pack params (p25Image params .ldu2 w.ch.cs.netLdu2 crypto))]
           else [] }) := by
  by_cases h8 : w.p25Pos = 8
  · simp only [if_pos h8, if_pos (Or.inl h8)]
    exact if_pos h8
  · by_cases h17 : w.p25Pos = 17
    · simp only [if_neg h8, if_pos h17, if_pos (Or.inr h17)]
      exact (if_neg h8).trans (if_pos h17)
    · simp only [if_neg h8, if_neg h17, if_neg (not_or_intro h8 h17), List.append_nil]
      exact (if_neg h8).trans (if_neg h17)

/-! ## The step -/

/-- The work of TXP25, part by part, is the work of the statements at every position. -/
theorem txp25Work_eq (s : State) (c : Nat) (cw : Bytes) :
    txp25Work params s.keys c cw (s.work params c) = txp25Ends s c cw := by
  delta txp25Work
  simp only [p25Encrypt_eq, ciphered_p25Clear, p25Place_p25Clear, p25Send_eq]
  rfl

theorem txp25_of_length {cw : Bytes} (s : State) (ch : BitVec 16) (h : cw.length = params.imbeLen) :
    txp25 params ch cw s =
      guarded s ch 0x21 [(chOk params s ch, .badCh), (cfgOk params s ch, .noCfg), (callOpen params s ch, .noCall)]
        (s.commit params ch.toNat (txp25Ends s ch.toNat cw)) := by
  rw [← txp25Work_eq]
  exact guarded_cons_pass _ _ _ _ _ _ (decide_eq_true h)

/-- Settles O24: a codeword of the right length meets the three checks on the channel, and behind them its work is that
of the statements, whatever its position. -/
theorem txp25TakesCodeword : Obligations.Txp25TakesCodeword := by
  intro s ch cw hlen x
  obtain ⟨hbadCh, hnoCfg, hnoCall, hpass⟩ :=
    guarded_callChecks s ch 0x21 (s.commit params ch.toNat (txp25Ends s ch.toNat cw))
  rw [exec_txp25, txp25_of_length s ch hlen]
  refine ⟨fun h => ?_, fun h hset => ?_, fun h hidle => ?_, fun h _ => ?_⟩
  · rw [hbadCh h]
  · rw [hnoCfg h hset]
  · rw [hnoCall h hidle]
  · rw [hpass h]
    obtain ⟨⟨⟨_, hvalid⟩, _⟩, _⟩ := h
    rw [commit_eq_stepEnds s _ hvalid]

end Sys2Proof.Proofs
end

