-- ==== Sys2Proof/Proofs/P25Structure.lean ====
section
/-! PROOFS. The structural test of an inbound LDU (42_p25_framer.md R171), condition by condition. -/

namespace Sys2Proof.Proofs

open Sys2Proof Sys2Proof.Machine Sys2Proof.Claims

theorem hasHdu_iff (data : Bytes) :
    hasHdu params data = true ↔ params.p25FtOff < data.length ∧ byteAt data params.p25FtOff = params.ftHduValid := by
  delta hasHdu
  rw [Bool.and_eq_true, decide_eq_true_iff, beq_iff_eq]

/-! ## The nine markers (00_scope.md R7) -/

theorem byteAt_marks_ldu1 {k : Nat} (h : k < 9) : byteAt (marks .ldu1) k = BitVec.ofNat 8 (0x62 + k) := by
  revert k
  decide

theorem byteAt_marks_ldu2 {k : Nat} (h : k < 9) : byteAt (marks .ldu2) k = BitVec.ofNat 8 (0x6B + k) := by
  revert k
  decide

/-- Where a kind's markers count up from a first one, the test of the markers reads that count in the payload. -/
theorem marksMatch_iff {role : Role} {first : Nat}
    (hmarks : ∀ {k}, k < 9 → byteAt (marks role) k = BitVec.ofNat 8 (first + k)) (data : Bytes) :
    marksMatch params role data = true ↔
      ∀ k, k < 9 → byteAt data (params.p25PayloadOff + params.recNetOff.getD k 0) = BitVec.ofNat 8 (first + k) := by
  have hread : marksMatch params role data = true ↔
      ∀ k, k < 9 → byteAt data (params.p25PayloadOff + params.recNetOff.getD k 0) = byteAt (marks role) k := by
    delta marksMatch
    simp only [List.all_eq_true, List.mem_range, beq_iff_eq]
    rfl
  rw [hread]
  exact forall₂_congr fun k hk => by rw [hmarks hk]

/-! ## The two kinds of LDU -/

theorem p25Valid_ldu1_iff (data : Bytes) :
    p25Valid params .ldu1 data = true ↔ params.p25PayloadOff + params.p25PayloadLen ≤ data.length ∧
      marksMatch params .ldu1 data = true ∧ (hasHdu params data = true → params.p25HduMiOff + 9 ≤ data.length) := by
  change _ ↔ _ ∧ _ ∧ (_ → params.p25HduMiOff + miLen ≤ data.length)
  delta p25Valid
  cases h : hasHdu params data <;> simp [and_assoc]

/-- An LDU2 has no test of the header data. -/
theorem p25Valid_ldu2_iff (data : Bytes) :
    p25Valid params .ldu2 data = true ↔
      params.p25PayloadOff + params.p25PayloadLen ≤ data.length ∧ marksMatch params .ldu2 data = true := by
  delta p25Valid
  simp

/-- Settles O29: each test is the conjunction of its conditions, the markers read one by one. -/
theorem structuralTestReadsMarkers : Obligations.StructuralTestReadsMarkers := by
  intro data
  refine ⟨hasHdu_iff data, ?_, ?_⟩
  · rw [p25Valid_ldu1_iff, marksMatch_iff byteAt_marks_ldu1]
  · rw [p25Valid_ldu2_iff, marksMatch_iff byteAt_marks_ldu2]

end Sys2Proof.Proofs
end

