-- ==== Sys2Proof/Proofs/DmrFramer.lean ====
section
/-! PROOFS. TXDMR (43_dmr_framer.md R192). The codeword goes to its third of the accumulator; the third one also
sends a voice frame, behind a voice header where the call has sent none. Header and frame are given once each, as the
record they put out and the registers they move; the step puts them one after the other. -/

namespace Sys2Proof.Proofs

open Sys2Proof Sys2Proof.Machine Sys2Proof.Claims

theorem exec_txdmr (ch : BitVec 16) (cw : Bytes) (s : State) :
    exec (.txdmr ch cw) s = .next (txdmr params ch cw s) := rfl

/-! ## The middle of a voice frame (R194) -/

/-- The schedule of the model gives the fragment and the LCSS value of the statements, frame by frame; behind the four
fragments both send a null one. -/
theorem dmrMiddle_eq_dmrMid (e : Embedded) (n : Nat) : dmrMiddle params e n = dmrMid e.frag n := by
  match n with
  | 0 | 1 | 2 | 3 | 4 => rfl
  | n + 5 => rfl

/-! ## The messages (R192, R216) -/

/-- A DMR message as it goes out: `Emit` fills in the channel, the sequence value before the increment and the stream
id, and the sequence advances. -/
theorem emit_dmrMsg (c : Nat) (kind : NetKind) (dmrSeq : BitVec 32) (dmrN : Option (BitVec 3)) (syncFrame : Bool)
    (body : Bytes) (w : Work) :
    emit params c (dmrMsg params kind (callData params w.ch.cfg) w.ch.cfg.slot dmrSeq dmrN syncFrame body) w =
      { w.setCs { w.ch.cs with pktSeq := seqAfter w.ch.cs.pktSeq } with
        net := w.net ++ [dmrRecord c w.ch kind w.ch.cs.pktSeq dmrSeq dmrN syncFrame body] } := rfl

/-- Where the call has sent no frame, its fragments are loaded and the voice header goes out. -/
theorem dmrHeader_of_first (c : Nat) {w : Work} (h : w.ch.cs.dmrSeqNo = 0) :
    dmrHeader params c w =
      { w.setCs { w.ch.cs with
          embeddedData := { frag := params.embLcFragments (lcOf w.ch), valid := true }
          pktSeq := seqAfter w.ch.cs.pktSeq
          dmrSeqNo := 1 } with
        net := w.net ++
          [dmrRecord c w.ch .dmrVhdr w.ch.cs.pktSeq 0 none false (params.dmrLcBurst .vhdr (lcOf w.ch))] } :=
  if_pos h

theorem dmrHeader_of_later (c : Nat) {w : Work} (h : w.ch.cs.dmrSeqNo ≠ 0) : dmrHeader params c w = w := if_neg h

/-- The voice frame carries the accumulator around its middle; the counters advance and the accumulator is emptied. -/
theorem dmrVoice_eq (c : Nat) (w : Work) :
    dmrVoice params c w =
      { w.setCs { w.ch.cs with
          pktSeq := seqAfter w.ch.cs.pktSeq
          dmrSeqNo := w.ch.cs.dmrSeqNo + 1
          dmrFrameIndex := BitVec.ofNat 3 ((w.ch.cs.dmrFrameIndex.toNat + 1) % 6)
          ambeBuffer := zeros 27
          ambeCount := 0 } with
        net := w.net ++
          [dmrRecord c w.ch .dmrVoice w.ch.cs.pktSeq w.ch.cs.dmrSeqNo (some w.ch.cs.dmrFrameIndex)
            (w.ch.cs.dmrFrameIndex == 0)
            (dmrMidInsert (dmrVoicePlace w.ch.cs.ambeBuffer)
              (dmrMid w.ch.cs.embeddedData.frag w.ch.cs.dmrFrameIndex.toNat))] } := by
  rw [← dmrMiddle_eq_dmrMid]
  rfl

/-! ## The step -/

/-- The first two codewords of a frame only count. -/
theorem txdmrWork_of_filling (c : Nat) (cw : Bytes) {w : Work} (h : w.ch.cs.ambeCount.toNat < 2) :
    txdmrWork params c cw w =
      w.setCs { w.ch.cs with
        ambeBuffer := writeAt w.ch.cs.ambeBuffer (params.ambeLen * w.ch.cs.ambeCount.toNat) cw
        ambeCount := w.ch.cs.ambeCount + 1 } :=
  if_pos h

/-- The third codeword sends the frame. -/
theorem txdmrWork_of_full (c : Nat) (cw : Bytes) {w : Work} (h : ¬w.ch.cs.ambeCount.toNat < 2) :
    txdmrWork params c cw w = dmrVoice params c (dmrHeader params c (dmrStore params cw w)) :=
  if_neg h

/-- The work of TXDMR is the work of the statements, for every fill of the accumulator, and before a call's first frame
as after it. -/
theorem txdmrWork_eq (s : State) (c : Nat) (cw : Bytes) :
    txdmrWork params c cw (s.work params c) = txdmrEnds s c cw := by
  by_cases hfill : (s.chan params c).cs.ambeCount.toNat < 2
  · exact (txdmrWork_of_filling c cw hfill).trans (if_pos hfill).symm
  · refine Eq.trans ?_ (if_neg hfill).symm
    rw [txdmrWork_of_full c cw hfill]
    by_cases hfirst : (s.chan params c).cs.dmrSeqNo = 0
    · rw [dmrHeader_of_first c hfirst, dmrVoice_eq]
      simp only [beq_iff_eq.mpr hfirst, if_true]
      rfl
    · rw [dmrHeader_of_later c hfirst, dmrVoice_eq]
      simp only [beq_eq_false_iff_ne.mpr hfirst, Bool.false_eq_true, if_false]
      rfl

theorem txdmr_of_length {cw : Bytes} (s : State) (ch : BitVec 16) (h : cw.length = params.ambeLen) :
    txdmr params ch cw s =
      guarded s ch 0x22 [(chOk params s ch, .badCh), (cfgOk params s ch, .noCfg), (callOpen params s ch, .noCall)]
        (s.commit params ch.toNat (txdmrEnds s ch.toNat cw)) := by
  rw [← txdmrWork_eq]
  exact guarded_cons_pass _ _ _ _ _ _ (decide_eq_true h)

/-- TXDMR does not free the slot, whether or not it sends a frame. -/
theorem txdmrEnds_valid (s : State) (c : Nat) (cw : Bytes) :
    (txdmrEnds s c cw).ch.valid = (s.chan params c).valid := by
  delta txdmrEnds
  exact (apply_ite (fun w : Work => w.ch.valid) _ _ _).trans (ite_self _)

/-- Settles O30: a codeword of the right length meets the three checks on the channel, and behind them its work is that
of the statements. -/
theorem txdmrTakesCodeword : Obligations.TxdmrTakesCodeword := by
  intro s ch cw hlen x
  obtain ⟨hbadCh, hnoCfg, hnoCall, hpass⟩ :=
    guarded_callChecks s ch 0x22 (s.commit params ch.toNat (txdmrEnds s ch.toNat cw))
  rw [exec_txdmr, txdmr_of_length s ch hlen]
  refine ⟨fun h => ?_, fun h hset => ?_, fun h hidle => ?_, fun h => ?_⟩
  · rw [hbadCh h]
  · rw [hnoCfg h hset]
  · rw [hnoCall h hidle]
  · rw [hpass h]
    obtain ⟨⟨⟨_, hvalid⟩, _⟩, _⟩ := h
    rw [commit_eq_stepEnds s _ ((txdmrEnds_valid s _ cw).trans hvalid)]

end Sys2Proof.Proofs
end

