-- ==== Sys2Proof/Proofs/Sequencer.lean ====
section
/-! PROOFS. TXSTART (44_sequencer.md R217). Its third check is the transmit commands' own turned round: it asks that no
call is open. -/

namespace Sys2Proof.Proofs

open Sys2Proof Sys2Proof.Machine Sys2Proof.Claims

theorem exec_txstart (ch : BitVec 16) (s : State) : exec (.txstart ch) s = .next (txstart params ch s) := rfl

/-- A drawn stream id is one of the values 1 to 2^32 - 1, under any record (R13). -/
theorem streamIdAt_ne_zero (K : Cfg) (d : Nat) : K.streamIdAt d ≠ 0 := by
  have hlt : (K.drawStreamId d).val < 4294967295 := (K.drawStreamId d).isLt
  unfold Cfg.streamIdAt
  bv_omega

/-! ## The checks -/

theorem txstart_of_not_ChannelOk {s : State} {ch : BitVec 16} (h : ¬ChannelOk s ch) :
    txstart params ch s = refusedAs s .badCh ch 0x20 :=
  guarded_cons_fail _ _ _ _ _ _ ((chOk_eq_false_iff s ch).mpr h)

theorem txstart_of_not_set {s : State} {ch : BitVec 16} (h : ChannelOk s ch)
    (hset : (s.chan params ch.toNat).cfg.set = false) :
    txstart params ch s = refusedAs s .noCfg ch 0x20 :=
  (guarded_cons_pass _ _ _ _ _ _ ((chOk_iff_ChannelOk s ch).mpr h)).trans (guarded_cons_fail _ _ _ _ _ _ hset)

/-- On a configured channel one check is left. -/
theorem txstart_of_Configured {s : State} {ch : BitVec 16} (h : Configured s ch) :
    txstart params ch s =
      guarded s ch 0x20 [(!callOpen params s ch, .busy)]
        (s.commit params ch.toNat (txstartWork params (s.work params ch.toNat))) :=
  (guarded_cons_pass _ _ _ _ _ _ ((chOk_iff_ChannelOk s ch).mpr h.1)).trans (guarded_cons_pass _ _ _ _ _ _ h.2)

theorem txstart_of_open {s : State} {ch : BitVec 16} (h : Configured s ch)
    (hopen : (s.chan params ch.toNat).cs.txStreamId ≠ 0) :
    txstart params ch s = refusedAs s .busy ch 0x20 :=
  (txstart_of_Configured h).trans
    (guarded_cons_fail _ _ _ _ _ _ ((Bool.not_eq_false' _).mpr (bne_iff_ne.mpr hopen)))

/-! ## The step -/

/-- On a configured channel without a call the work of TXSTART is committed; it keeps the slot. -/
theorem txstart_of_idle {s : State} {ch : BitVec 16} (h : Configured s ch)
    (hidle : (s.chan params ch.toNat).cs.txStreamId = 0) :
    txstart params ch s = stepEnds s ch.toNat (txstartWork params (s.work params ch.toNat)) := by
  have hvalid : (s.chan params ch.toNat).valid = true := h.1.2
  calc txstart params ch s
      = s.commit params ch.toNat (txstartWork params (s.work params ch.toNat)) :=
        (txstart_of_Configured h).trans
          (guarded_cons_pass _ _ _ _ _ _ ((Bool.not_eq_true' _).mpr (bne_eq_false_iff_eq.mpr hidle)))
    _ = stepEnds s ch.toNat (txstartWork params (s.work params ch.toNat)) := commit_eq_stepEnds s _ hvalid

/-- Settles O20: each check refuses with its own code; behind them the call takes the id of the draw, which is never
zero. -/
theorem txstartOpensCall : Obligations.TxstartOpensCall := by
  intro s ch x
  refine ⟨fun h => ?_, fun h hset => ?_, fun h hopen => ?_, fun h hidle => ?_⟩
  · rw [exec_txstart, txstart_of_not_ChannelOk h]
  · rw [exec_txstart, txstart_of_not_set h hset]
  · rw [exec_txstart, txstart_of_open h hopen]
  · refine ⟨params.streamIdAt s.draws, rfl, streamIdAt_ne_zero params s.draws, ?_⟩
    rw [exec_txstart, txstart_of_idle h hidle]
    rfl

end Sys2Proof.Proofs
end

