-- ==== Sys2Proof/Proofs/Encoding.lean ====
section
/-! PROOFS. The decoder and the encoder (30_encoding.md R80 to R91, R110, R111). Encoding then decoding reads each field
back where its bytes were put; decoding then encoding puts each field back where it was read, so that the reads join up
to the whole command. -/

namespace Sys2Proof.Proofs

open Sys2Proof Sys2Proof.Machine Sys2Proof.Claims

/-! ## Reads past what stands in front

A field of a command is found by passing over the bytes and the values before it, one at a time. -/

@[simp] theorem byteAt_cons_zero (x : Byte) (b : Bytes) : byteAt (x :: b) 0 = x := rfl

@[simp] theorem byteAt_cons_succ (x : Byte) (b : Bytes) (i : Nat) : byteAt (x :: b) (i + 1) = byteAt b i := rfl

@[simp] theorem readAt_cons_succ (x : Byte) (b : Bytes) (off n : Nat) : readAt (x :: b) (off + 1) n = readAt b off n :=
  readAt_cons x b off n

@[simp] theorem field_cons_succ (w : Nat) (x : Byte) (b : Bytes) (off n : Nat) :
    field w (x :: b) (off + 1) n = field w b off n :=
  congrArg (fun r => BitVec.ofNat w (beNat r)) (readAt_cons x b off n)

section Prefix

variable {u : Nat} (m : Nat) (v : BitVec u) (b : Bytes)

@[simp] theorem byteAt_be_append {i : Nat} (h : m ≤ i) : byteAt (be m v ++ b) i = byteAt b (i - m) := by
  rw [byteAt_append_right _ _ _ (by simpa using h), be_length]

@[simp] theorem readAt_be_append {off : Nat} (n : Nat) (h : m ≤ off) :
    readAt (be m v ++ b) off n = readAt b (off - m) n := by
  rw [readAt_append_right _ _ _ _ (by simpa using h), be_length]

@[simp] theorem field_be_append (w : Nat) {off : Nat} (n : Nat) (h : m ≤ off) :
    field w (be m v ++ b) off n = field w b (off - m) n :=
  congrArg (fun r => BitVec.ofNat w (beNat r)) (readAt_be_append m v b n h)

/-- The value whose bytes stand first is read back, if they are enough to hold it. -/
@[simp] theorem field_be_first (h : 2 ^ u ≤ 256 ^ m) : field u (be m v ++ b) 0 m = v := by
  apply field_of_readAt h
  rw [readAt_append_left _ _ _ _ (by simp)]
  simpa using readAt_self (be m v)

@[simp] theorem field_be_only (h : 2 ^ u ≤ 256 ^ m) : field u (be m v) 0 m = v := by
  simpa using field_be_first m v [] h

end Prefix

/-- The data that stands first, whatever follows, is read back by its length. -/
theorem readAt_first {d : Bytes} {n : Nat} (h : d.length = n) : readAt d 0 n = d := by
  rw [← h, readAt_self]

/-- The two-byte length of at most 65535 bytes of data is read back. -/
theorem dlen_read {d : Bytes} (h : d.length < 65536) (b : Bytes) :
    beNat (readAt (beBytes 2 d.length ++ b) 0 2) = d.length := by
  rw [readAt_append_left _ _ _ _ (by simp), readAt_first (by simp), beNat_beBytes]
  exact Nat.mod_eq_of_lt h

/-! ## Every command is read back from its bytes -/

/-- A command of the length its format gives is the instruction its bytes then are. -/
theorem decode_of_layoutOf {K : Cfg} {b : Bytes} {n : Nat} {i : Instr} (h : layoutOf K b = some (n, i))
    (hlen : b.length = n) : decode K b = .ok i := by
  unfold decode
  rw [h]
  exact if_pos hlen

/-- A command of another length is refused (R266 (2)). -/
theorem decode_eq_badLen {K : Cfg} {b : Bytes} {n : Nat} {i : Instr} (h : layoutOf K b = some (n, i))
    (hlen : b.length ≠ n) : decode K b = .error .badLen := by
  unfold decode
  rw [h]
  exact if_neg hlen

/-- A reserved operation code is refused (R266 (1)). -/
theorem decode_eq_badOp {K : Cfg} {b : Bytes} (h : layoutOf K b = none) : decode K b = .error .badOp := by
  unfold decode
  rw [h]

/-- What the decoder accepts is the instruction of the layout, at the layout's length. -/
theorem decode_eq_ok_iff {K : Cfg} {b : Bytes} {i : Instr} :
    decode K b = .ok i ↔ ∃ n, layoutOf K b = some (n, i) ∧ b.length = n := by
  constructor
  · intro h
    cases hlayout : layoutOf K b with
    | none => rw [decode_eq_badOp hlayout] at h; cases h
    | some layout =>
      obtain ⟨n, j⟩ := layout
      by_cases hlen : b.length = n
      · rw [decode_of_layoutOf hlayout hlen] at h
        cases h
        exact ⟨n, rfl, hlen⟩
      · rw [decode_eq_badLen hlayout hlen] at h; cases h
  · rintro ⟨n, hlayout, hlen⟩
    exact decode_of_layoutOf hlayout hlen

@[simp] theorem encodeEvent_length (ev : RxEvent) : (encodeEvent ev).length = 26 := by
  delta encodeEvent
  simp

/-- The registers of an event are read back from formats FRXP and FRXD; its data is what stands at its offset. -/
theorem eventOf_encodeEvent (op : Byte) (ev : RxEvent) (rest : Bytes) (off n : Nat) :
    eventOf (op :: (encodeEvent ev ++ rest)) off n =
      { ev with data := readAt (op :: (encodeEvent ev ++ rest)) off n } := by
  delta eventOf encodeEvent
  simp

/-- Behind the event's bytes stands what was put there. -/
theorem byteAt_encodeEvent (op : Byte) (ev : RxEvent) (rest : Bytes) (i : Nat) :
    byteAt (op :: (encodeEvent ev ++ rest)) (27 + i) = byteAt rest i := by
  rw [show 27 + i = 26 + i + 1 by omega, byteAt_cons_succ, byteAt_append_right _ _ _ (by simp)]
  simp

theorem readAt_encodeEvent (op : Byte) (ev : RxEvent) (rest : Bytes) (off n : Nat) :
    readAt (op :: (encodeEvent ev ++ rest)) (27 + off) n = readAt rest off n := by
  rw [show 27 + off = 26 + off + 1 by omega, readAt_cons_succ, readAt_append_right _ _ _ _ (by simp)]
  simp

theorem encodeRxp_eq (kind : Byte) (ev : RxEvent) :
    encodeRxp kind ev = 0x30 :: (encodeEvent ev ++ (kind :: (beBytes 2 ev.data.length ++ ev.data))) := rfl

theorem encodeRxd_eq (kind slot : Byte) (ev : RxEvent) :
    encodeRxd kind slot ev =
      0x31 :: (encodeEvent ev ++ (kind :: slot :: (beBytes 2 ev.data.length ++ ev.data))) := rfl

theorem layoutOf_encodeRxp (K : Cfg) (kind : Byte) (ev : RxEvent) (h : ev.data.length < 65536) :
    layoutOf K (encodeRxp kind ev) = some (30 + ev.data.length, rxp25Of kind ev) := by
  have hkind : byteAt (encodeRxp kind ev) 27 = kind := byteAt_encodeEvent 0x30 ev _ 0
  have hdlen : beNat (readAt (encodeRxp kind ev) 28 2) = ev.data.length := by
    rw [encodeRxp_eq, readAt_encodeEvent 0x30 ev _ 1 2, readAt_cons_succ, dlen_read h]
  have hdata : readAt (encodeRxp kind ev) 30 ev.data.length = ev.data := by
    rw [encodeRxp_eq, readAt_encodeEvent 0x30 ev _ 3, readAt_cons_succ, readAt_append_right _ _ _ _ (by simp)]
    exact readAt_first rfl
  have hevent : eventOf (encodeRxp kind ev) 30 ev.data.length = ev := by
    rw [encodeRxp_eq, eventOf_encodeEvent, ← encodeRxp_eq, hdata]
  calc layoutOf K (encodeRxp kind ev)
      = some (30 + beNat (readAt (encodeRxp kind ev) 28 2), rxp25Of (byteAt (encodeRxp kind ev) 27)
          (eventOf (encodeRxp kind ev) 30 (beNat (readAt (encodeRxp kind ev) 28 2)))) := rfl
    _ = some (30 + ev.data.length, rxp25Of kind ev) := by rw [hdlen, hkind, hevent]

theorem layoutOf_encodeRxd (K : Cfg) (kind slot : Byte) (ev : RxEvent) (h : ev.data.length < 65536) :
    layoutOf K (encodeRxd kind slot ev) = some (31 + ev.data.length, rxdmrOf kind slot ev) := by
  have hkind : byteAt (encodeRxd kind slot ev) 27 = kind := byteAt_encodeEvent 0x31 ev _ 0
  have hslot : byteAt (encodeRxd kind slot ev) 28 = slot := byteAt_encodeEvent 0x31 ev _ 1
  have hdlen : beNat (readAt (encodeRxd kind slot ev) 29 2) = ev.data.length := by
    rw [encodeRxd_eq, readAt_encodeEvent 0x31 ev _ 2 2, readAt_cons_succ, readAt_cons_succ, dlen_read h]
  have hdata : readAt (encodeRxd kind slot ev) 31 ev.data.length = ev.data := by
    rw [encodeRxd_eq, readAt_encodeEvent 0x31 ev _ 4, readAt_cons_succ, readAt_cons_succ,
      readAt_append_right _ _ _ _ (by simp)]
    exact readAt_first rfl
  have hevent : eventOf (encodeRxd kind slot ev) 31 ev.data.length = ev := by
    rw [encodeRxd_eq, eventOf_encodeEvent, ← encodeRxd_eq, hdata]
  calc layoutOf K (encodeRxd kind slot ev)
      = some (31 + beNat (readAt (encodeRxd kind slot ev) 29 2), rxdmrOf (byteAt (encodeRxd kind slot ev) 27)
          (byteAt (encodeRxd kind slot ev) 28)
          (eventOf (encodeRxd kind slot ev) 31 (beNat (readAt (encodeRxd kind slot ev) 29 2)))) := rfl
    _ = some (31 + ev.data.length, rxdmrOf kind slot ev) := by rw [hdlen, hkind, hslot, hevent]

/-- An RXP25 command is the row that its class number selects. -/
theorem decode_encodeRxp (K : Cfg) (kind : Byte) (ev : RxEvent) (h : dataFits ev = true) :
    decode K (encodeRxp kind ev) = .ok (rxp25Of kind ev) := by
  refine decode_of_layoutOf (layoutOf_encodeRxp K kind ev (of_decide_eq_true h)) ?_
  simp [encodeRxp_eq]
  omega

/-- An RXDMR command is the row that its class number selects. -/
theorem decode_encodeRxd (K : Cfg) (kind slot : Byte) (ev : RxEvent) (h : dataFits ev = true) :
    decode K (encodeRxd kind slot ev) = .ok (rxdmrOf kind slot ev) := by
  refine decode_of_layoutOf (layoutOf_encodeRxd K kind slot ev (of_decide_eq_true h)) ?_
  simp [encodeRxd_eq]
  omega

/-- Each class number selects the row that is written with it; from 3 on that is OTHER. -/
theorem rxp25Of_cases (kind : Byte) (ev : RxEvent) :
    (kind = 0 ∧ rxp25Of kind ev = .rxp25Ldu1 ev) ∨ (kind = 1 ∧ rxp25Of kind ev = .rxp25Ldu2 ev) ∨
      (kind = 2 ∧ rxp25Of kind ev = .rxp25Term ev) ∨
        (3 ≤ kind.toNat ∧ rxp25Of kind ev = .rxp25Other kind ev) := by
  delta rxp25Of
  split
  case h_1 h => exact .inl ⟨BitVec.eq_of_toNat_eq h, rfl⟩
  case h_2 h => exact .inr (.inl ⟨BitVec.eq_of_toNat_eq h, rfl⟩)
  case h_3 h => exact .inr (.inr (.inl ⟨BitVec.eq_of_toNat_eq h, rfl⟩))
  case h_4 h0 h1 h2 =>
    have hne : kind.toNat ≠ 0 ∧ kind.toNat ≠ 1 ∧ kind.toNat ≠ 2 := ⟨h0, h1, h2⟩
    exact .inr (.inr (.inr ⟨by omega, rfl⟩))

theorem rxdmrOf_cases (kind slot : Byte) (ev : RxEvent) :
    (kind = 0 ∧ rxdmrOf kind slot ev = .rxdmrVoice slot ev) ∨ (kind = 1 ∧ rxdmrOf kind slot ev = .rxdmrVhdr slot ev) ∨
      (kind = 2 ∧ rxdmrOf kind slot ev = .rxdmrPihdr slot ev) ∨
        (kind = 3 ∧ rxdmrOf kind slot ev = .rxdmrTerm slot ev) ∨
          (4 ≤ kind.toNat ∧ rxdmrOf kind slot ev = .rxdmrOther kind slot ev) := by
  delta rxdmrOf
  split
  case h_1 h => exact .inl ⟨BitVec.eq_of_toNat_eq h, rfl⟩
  case h_2 h => exact .inr (.inl ⟨BitVec.eq_of_toNat_eq h, rfl⟩)
  case h_3 h => exact .inr (.inr (.inl ⟨BitVec.eq_of_toNat_eq h, rfl⟩))
  case h_4 h => exact .inr (.inr (.inr (.inl ⟨BitVec.eq_of_toNat_eq h, rfl⟩)))
  case h_5 h0 h1 h2 h3 =>
    have hne : kind.toNat ≠ 0 ∧ kind.toNat ≠ 1 ∧ kind.toNat ≠ 2 ∧ kind.toNat ≠ 3 := ⟨h0, h1, h2, h3⟩
    exact .inr (.inr (.inr (.inr ⟨by omega, rfl⟩)))

theorem rxp25Of_other {kind : Byte} (ev : RxEvent) (h : 3 ≤ kind.toNat) : rxp25Of kind ev = .rxp25Other kind ev := by
  rcases rxp25Of_cases kind ev with ⟨rfl, -⟩ | ⟨rfl, -⟩ | ⟨rfl, -⟩ | ⟨-, hrow⟩
  · exact absurd h (by decide)
  · exact absurd h (by decide)
  · exact absurd h (by decide)
  · exact hrow

theorem rxdmrOf_other {kind : Byte} (slot : Byte) (ev : RxEvent) (h : 4 ≤ kind.toNat) :
    rxdmrOf kind slot ev = .rxdmrOther kind slot ev := by
  rcases rxdmrOf_cases kind slot ev with ⟨rfl, -⟩ | ⟨rfl, -⟩ | ⟨rfl, -⟩ | ⟨rfl, -⟩ | ⟨-, hrow⟩
  · exact absurd h (by decide)
  · exact absurd h (by decide)
  · exact absurd h (by decide)
  · exact absurd h (by decide)
  · exact hrow

/-- The one-byte length of a key of at most 255 bytes is read back. -/
theorem klen_read {key : Bytes} (h : key.length < 256) : (BitVec.ofNat 8 key.length).toNat = key.length := by
  rw [BitVec.toNat_ofNat]
  exact Nat.mod_eq_of_lt h

/-- Where the layout's instruction is the given one, a command of the layout's length decodes to it. -/
theorem decode_of_layout_eq {K : Cfg} {b : Bytes} {n : Nat} {i j : Instr} (h : layoutOf K b = some (n, j))
    (hlen : b.length = n) (hj : j = i) : decode K b = .ok i :=
  decode_of_layoutOf (h.trans (congrArg (fun k => some (n, k)) hj)) hlen

theorem decode_encode (K : Cfg) (i : Instr) (h : i.encodable K = true) : decode K (encode i) = .ok i := by
  cases i with
  | keyload algId keyId key =>
    have hlen : key.length < 256 := of_decide_eq_true h
    refine decode_of_layout_eq rfl ?_ ?_ <;> delta encode
    · simp [Nat.mod_eq_of_lt hlen]
      omega
    · simp [Nat.mod_eq_of_lt hlen, readAt_first]
  | cprep ch algId keyId mi =>
    have hlen : mi.length = 9 := of_decide_eq_true h
    refine decode_of_layout_eq rfl ?_ ?_ <;> delta encode
    · simp [hlen]
    · simp [readAt_first hlen]
  | cproc ch role cw =>
    have hlen : cw.length = K.imbeLen := of_decide_eq_true h
    refine decode_of_layout_eq rfl ?_ ?_ <;> delta encode
    · simp [hlen]
      omega
    · simp [readAt_first hlen]
  | txp25 ch cw =>
    have hlen : cw.length = K.imbeLen := of_decide_eq_true h
    refine decode_of_layout_eq rfl ?_ ?_ <;> delta encode
    · simp [hlen]
      omega
    · simp [readAt_first hlen]
  | txdmr ch cw =>
    have hlen : cw.length = K.ambeLen := of_decide_eq_true h
    refine decode_of_layout_eq rfl ?_ ?_ <;> delta encode
    · simp [hlen]
      omega
    · simp [readAt_first hlen]
  | rxp25Ldu1 ev => exact decode_encodeRxp K 0 ev h
  | rxp25Ldu2 ev => exact decode_encodeRxp K 1 ev h
  | rxp25Term ev => exact decode_encodeRxp K 2 ev h
  | rxp25Other kind ev =>
    obtain ⟨hkind, hfits⟩ := Bool.and_eq_true_iff.mp h
    exact (decode_encodeRxp K kind ev hfits).trans (congrArg _ (rxp25Of_other ev (of_decide_eq_true hkind)))
  | rxdmrVoice slot ev => exact decode_encodeRxd K 0 slot ev h
  | rxdmrVhdr slot ev => exact decode_encodeRxd K 1 slot ev h
  | rxdmrPihdr slot ev => exact decode_encodeRxd K 2 slot ev h
  | rxdmrTerm slot ev => exact decode_encodeRxd K 3 slot ev h
  | rxdmrOther kind slot ev =>
    obtain ⟨hkind, hfits⟩ := Bool.and_eq_true_iff.mp h
    exact (decode_encodeRxd K kind slot ev hfits).trans
      (congrArg _ (rxdmrOf_other slot ev (of_decide_eq_true hkind)))
  | reset => exact decode_of_layout_eq rfl rfl rfl
  | chinit | chcfg | chfree | ccycle | txstart | txendp | txendd | tick =>
    refine decode_of_layout_eq rfl rfl ?_
    delta encode
    simp

/-- Settles O1: a command's bytes have the length its format gives, and each field of it is read where it was put. -/
theorem decodeOfEncode : Obligations.DecodeOfEncode := decode_encode params

/-! ## No byte of an accepted command is ignored -/

/-- A value read from the bytes it fills is written back as those bytes. -/
theorem be_field_16 (b : Bytes) (off : Nat) : be 2 (field 16 b off 2) = readAt b off 2 := be_field b off (by decide)

theorem be_field_32 (b : Bytes) (off : Nat) : be 4 (field 32 b off 4) = readAt b off 4 := be_field b off (by decide)

theorem be_field_64 (b : Bytes) (off : Nat) : be 8 (field 64 b off 8) = readAt b off 8 := be_field b off (by decide)

/-- A first byte and a read behind it join up. -/
theorem byteAt_cons_readAt (b : Bytes) (off n : Nat) : byteAt b off :: readAt b (off + 1) n = readAt b off (n + 1) := rfl

theorem singleton_eq_readAt (b : Bytes) (off : Nat) : [byteAt b off] = readAt b off 1 := rfl

/-- Two reads, one behind the other, join up. -/
theorem readAt_append_readAt (b : Bytes) {off m off' : Nat} (n : Nat) (h : off' = off + m) :
    readAt b off m ++ readAt b off' n = readAt b off (m + n) := by
  rw [h, readAt_add]

/-- Bytes 1 to 26 of an event's command are written back as they were read. -/
theorem encodeEvent_eventOf (b : Bytes) (off dlen : Nat) : encodeEvent (eventOf b off dlen) = readAt b 1 26 := by
  delta encodeEvent eventOf
  simp only [be_field_16, be_field_32, be_field_64, readAt_append_readAt]

/-- The two bytes of a length field are written back as they were read. -/
theorem beBytes_dlen (b : Bytes) (off : Nat) : beBytes 2 (beNat (readAt b off 2)) = readAt b off 2 := by
  simpa using beBytes_beNat (readAt b off 2)

theorem dlen_lt (b : Bytes) (off : Nat) : beNat (readAt b off 2) < 65536 := by
  simpa using beNat_lt (readAt b off 2)

theorem encodeRxp_eventOf {b : Bytes} (h : byteAt b 0 = 0x30) :
    encodeRxp (byteAt b 27) (eventOf b 30 (beNat (readAt b 28 2))) = readAt b 0 (30 + beNat (readAt b 28 2)) := by
  have hdata : (eventOf b 30 (beNat (readAt b 28 2))).data = readAt b 30 (beNat (readAt b 28 2)) := rfl
  rw [encodeRxp_eq, encodeEvent_eventOf, hdata, readAt_length, beBytes_dlen, readAt_append_readAt b _ rfl, ← h,
    byteAt_cons_readAt b 27, readAt_append_readAt b _ rfl, byteAt_cons_readAt b 0]
  congr 1
  omega

theorem encodeRxd_eventOf {b : Bytes} (h : byteAt b 0 = 0x31) :
    encodeRxd (byteAt b 27) (byteAt b 28) (eventOf b 31 (beNat (readAt b 29 2))) =
      readAt b 0 (31 + beNat (readAt b 29 2)) := by
  have hdata : (eventOf b 31 (beNat (readAt b 29 2))).data = readAt b 31 (beNat (readAt b 29 2)) := rfl
  rw [encodeRxd_eq, encodeEvent_eventOf, hdata, readAt_length, beBytes_dlen, readAt_append_readAt b _ rfl, ← h,
    byteAt_cons_readAt b 28, byteAt_cons_readAt b 27, readAt_append_readAt b _ rfl, byteAt_cons_readAt b 0]
  congr 1
  omega

/-- The row selected by a class number is written with that number, and has a byte form if its data fits. -/
theorem rxp25Of_form (K : Cfg) (kind : Byte) {ev : RxEvent} (h : dataFits ev = true) :
    (rxp25Of kind ev).encodable K = true ∧ encode (rxp25Of kind ev) = encodeRxp kind ev := by
  rcases rxp25Of_cases kind ev with ⟨rfl, hrow⟩ | ⟨rfl, hrow⟩ | ⟨rfl, hrow⟩ | ⟨hkind, hrow⟩ <;> rw [hrow]
  · exact ⟨h, rfl⟩
  · exact ⟨h, rfl⟩
  · exact ⟨h, rfl⟩
  · exact ⟨Bool.and_eq_true_iff.mpr ⟨decide_eq_true hkind, h⟩, rfl⟩

theorem rxdmrOf_form (K : Cfg) (kind slot : Byte) {ev : RxEvent} (h : dataFits ev = true) :
    (rxdmrOf kind slot ev).encodable K = true ∧ encode (rxdmrOf kind slot ev) = encodeRxd kind slot ev := by
  rcases rxdmrOf_cases kind slot ev with
    ⟨rfl, hrow⟩ | ⟨rfl, hrow⟩ | ⟨rfl, hrow⟩ | ⟨rfl, hrow⟩ | ⟨hkind, hrow⟩ <;> rw [hrow]
  · exact ⟨h, rfl⟩
  · exact ⟨h, rfl⟩
  · exact ⟨h, rfl⟩
  · exact ⟨h, rfl⟩
  · exact ⟨Bool.and_eq_true_iff.mpr ⟨decide_eq_true hkind, h⟩, rfl⟩

/-- The operation code and the reads behind it join up to the command. -/
theorem op_cons_readAt {b : Bytes} {v m n : Nat} (hop : (byteAt b 0).toNat = v) (hn : n = m + 1) :
    BitVec.ofNat 8 v :: readAt b 1 m = readAt b 0 n := by
  rw [← hop, hn, BitVec.ofNat_toNat, BitVec.setWidth_eq, byteAt_cons_readAt b 0]

/-- What a layout says of a command: its length is the one the statements give, and the instruction it reads has a byte
form and is written back as the bytes it was read from. -/
theorem layoutOf_spec {b : Bytes} {n : Nat} {i : Instr} (h : layoutOf params b = some (n, i)) :
    commandLength b = some n ∧ i.encodable params = true ∧ encode i = readAt b 0 n := by
  delta layoutOf at h
  delta commandLength
  split at h
  case h_17 => cases h
  all_goals
    rename_i hop
    obtain ⟨rfl, rfl⟩ := Prod.mk.inj (Option.some.inj h)
    simp only [hop]
  case h_1 => exact ⟨rfl, rfl, op_cons_readAt (m := 0) hop rfl⟩
  case h_5 =>
    refine ⟨rfl, decide_eq_true (by simpa using (byteAt b 4).isLt), ?_⟩
    delta encode
    simp only [be_field_16, readAt_length, BitVec.ofNat_toNat, BitVec.setWidth_eq, byteAt_cons_readAt,
      readAt_append_readAt]
    exact op_cons_readAt hop (by omega)
  case h_14 =>
    have hdlen : beNat (readAt b 28 2) = 256 * (byteAt b 28).toNat + (byteAt b 29).toNat := by simp [beNat, readAt]
    obtain ⟨hform, hbytes⟩ := rxp25Of_form params (byteAt b 27) (ev := eventOf b 30 (beNat (readAt b 28 2)))
      (decide_eq_true (by simpa [eventOf] using dlen_lt b 28))
    exact ⟨by rw [hdlen]; rfl, hform, hbytes.trans (encodeRxp_eventOf (BitVec.eq_of_toNat_eq hop))⟩
  case h_15 =>
    have hdlen : beNat (readAt b 29 2) = 256 * (byteAt b 29).toNat + (byteAt b 30).toNat := by simp [beNat, readAt]
    obtain ⟨hform, hbytes⟩ := rxdmrOf_form params (byteAt b 27) (byteAt b 28)
      (ev := eventOf b 31 (beNat (readAt b 29 2))) (decide_eq_true (by simpa [eventOf] using dlen_lt b 29))
    exact ⟨by rw [hdlen]; rfl, hform, hbytes.trans (encodeRxd_eventOf (BitVec.eq_of_toNat_eq hop))⟩
  case h_6 | h_7 | h_10 | h_11 =>
    refine ⟨rfl, ?_, ?_⟩
    · delta Instr.encodable
      exact decide_eq_true (readAt_length ..)
    delta encode
    simp only [be_field_16, byteAt_cons_readAt, readAt_append_readAt]
    exact op_cons_readAt hop (by omega)
  all_goals
    refine ⟨rfl, rfl, ?_⟩
    delta encode
    simp only [be_field_16, be_field_32, be_field_64, byteAt_cons_readAt, readAt_append_readAt, singleton_eq_readAt]
    exact op_cons_readAt hop rfl

/-- Settles O2: each field is put back where it was read, so the reads join up to the bytes the command has. -/
theorem encodeOfDecode : Obligations.EncodeOfDecode := by
  intro b i h
  obtain ⟨n, hlayout, hlen⟩ := decode_eq_ok_iff.mp h
  obtain ⟨-, hform, hbytes⟩ := layoutOf_spec hlayout
  exact ⟨hform, by rw [hbytes, ← hlen, readAt_self]⟩

/-! ## The operation code, then the length (60_exceptions.md R266) -/

/-- A command with an operation code the decoder has a layout for is not without one. -/
theorem op_ne_of_reserved {b : Bytes} (h : layoutOf params b = none) :
    ∀ v ∈ [0x00, 0x01, 0x02, 0x03, 0x04, 0x10, 0x11, 0x12, 0x20, 0x21, 0x22, 0x23, 0x24, 0x30, 0x31, 0x40],
      (byteAt b 0).toNat ≠ v := by
  intro v hv hop
  delta layoutOf at h
  rw [hop] at h
  fin_cases hv <;> cases h

/-- Where the decoder has no layout, the statements give no length either. -/
theorem commandLength_of_reserved {b : Bytes} (h : layoutOf params b = none) : commandLength b = none := by
  have hop := op_ne_of_reserved h
  simp only [List.forall_mem_cons] at hop
  obtain ⟨h0, h1, h2, h3, h4, h10, h11, h12, h20, h21, h22, h23, h24, h30, h31, h40, -⟩ := hop
  delta commandLength
  simp only [h0, h1, h2, h3, h4, h10, h11, h12, h20, h21, h22, h23, h24, h30, h31, h40, if_false, or_false]

/-- Settles O4: the decoder tests exactly what the layout says of the operation code and the length. -/
theorem decodeTestsCodeThenLength : Obligations.DecodeTestsCodeThenLength := by
  intro b
  cases hlayout : layoutOf params b with
  | none =>
    rw [commandLength_of_reserved hlayout]
    exact decode_eq_badOp hlayout
  | some layout =>
    obtain ⟨n, i⟩ := layout
    obtain ⟨hlength, -, -⟩ := layoutOf_spec hlayout
    rw [hlength]
    exact ⟨fun hlen => ⟨i, decode_of_layoutOf hlayout hlen⟩, decode_eq_badLen hlayout⟩

/-! ## Commands written out -/

/-- Settles O3: the decoder is run on the bytes of the vectors. -/
theorem decodesWrittenCommands : Obligations.DecodesWrittenCommands :=
  ⟨rfl, rfl, rfl, rfl, rfl, rfl, rfl⟩

end Sys2Proof.Proofs
end

