-- ==== Sys2Proof/Proofs/InboundSteps.lean ====
section
/-! PROOFS. The step of an inbound command on one channel (42_p25_framer.md R170, 43_dmr_framer.md R200, 45_call_tracker.md
R240), rule by rule: the event does not reach the channel, its frame is malformed, the filter drops it, or it is
accepted. -/

namespace Sys2Proof.Proofs

open Sys2Proof Sys2Proof.Machine Sys2Proof.Claims

/-! ## The dispatch -/

theorem exec_rxp25 (cls : P25Class) (kind : BitVec 8) (ev : RxEvent) (s : State) :
    exec (rxp25 cls kind ev) s = .next (rxP25 params cls ev s) := by
  cases cls <;> rfl

theorem exec_rxdmr (cls : DmrClass) (kind slot : BitVec 8) (ev : RxEvent) (s : State) :
    exec (rxdmr cls kind slot ev) s = .next (rxDmr params cls slot ev s) := by
  cases cls <;> rfl

theorem exec_tick (now : BitVec 64) (s : State) :
    exec (.tick now) s = .next (nextTurn s (tickStep params now s.turn s)) := rfl

theorem slotLegal_iff (slot : BitVec 8) : slotLegal slot = true ↔ slot = 1 ∨ slot = 2 :=
  Bool.or_eq_true_iff.trans (or_congr beq_iff_eq beq_iff_eq)

/-- An RXP25 command takes its step on channel `turn`. -/
theorem rxP25_of_fits (cls : P25Class) {ev : RxEvent} (s : State) (hfits : ev.data.length < 65536) :
    rxP25 params cls ev s = nextTurn s (rxP25Step params cls ev s.turn s) :=
  guarded_cons_pass _ _ _ _ _ _ (decide_eq_true hfits)

/-- An RXDMR command with a legal timeslot takes its step on channel `turn`. -/
theorem rxDmr_of_fits (cls : DmrClass) {slot : BitVec 8} {ev : RxEvent} (s : State) (hfits : ev.data.length < 65536)
    (hlegal : slot = 1 ∨ slot = 2) : rxDmr params cls slot ev s = nextTurn s (rxDmrStep params cls slot ev s.turn s) :=
  (guarded_cons_pass _ _ _ _ _ _ (decide_eq_true hfits)).trans
    (guarded_cons_pass _ _ _ _ _ _ ((slotLegal_iff slot).mpr hlegal))

/-- An RXDMR command with an illegal timeslot is refused. -/
theorem rxDmr_of_illegal (cls : DmrClass) {slot : BitVec 8} {ev : RxEvent} (s : State) (hfits : ev.data.length < 65536)
    (hillegal : ¬(slot = 1 ∨ slot = 2)) :
    rxDmr params cls slot ev s = { refusedAs s .badArg 0xFFFF 0x31 with turn := 0 } :=
  (guarded_cons_pass _ _ _ _ _ _ (decide_eq_true hfits)).trans
    (guarded_cons_fail _ _ _ _ _ _ (Bool.eq_false_iff.mpr (mt (slotLegal_iff slot).mp hillegal)))

/-! ## The four cases of a step on a channel -/

theorem monitored_iff (x : Chan) : x.monitored = true ↔ x.valid = true ∧ x.cfg.set = true := Bool.and_eq_true_iff

theorem matchesP25_iff (x : Chan) (ev : RxEvent) : x.matchesP25 ev = true ↔ ReachesP25 x ev := by
  delta Chan.matchesP25 ReachesP25
  simp only [Bool.and_eq_true, monitored_iff, beq_iff_eq, and_assoc]

theorem matchesDmr_iff (x : Chan) (slot : BitVec 8) (ev : RxEvent) :
    x.matchesDmr slot ev = true ↔ ReachesDmr x slot ev := by
  delta Chan.matchesDmr ReachesDmr
  simp only [Bool.and_eq_true, matchesP25_iff, beq_iff_eq]

section P25

variable {cls : P25Class} {ev : RxEvent} {c : Nat} {s : State}

theorem rxP25Step_of_unreached (h : ¬ReachesP25 (s.chan params c) ev) : rxP25Step params cls ev c s = s := by
  rw [← matchesP25_iff] at h
  exact if_neg (by simp [h])

theorem rxP25Step_of_malformed (h : p25Accepts params cls ev.data = false) : rxP25Step params cls ev c s = s :=
  if_neg (by simp [h])

theorem rxP25Step_of_wellFormed (hreach : ReachesP25 (s.chan params c) ev) (hform : p25Accepts params cls ev.data = true) :
    rxP25Step params cls ev c s =
      match dupCheck s.chans ev c (s.chan params c) with
      | some r => s.dropFrame c r ev.streamId
      | none => s.commit params c (p25Accepted params s.keys cls ev c (s.work params c)) :=
  if_pos (Bool.and_eq_true_iff.mpr ⟨(matchesP25_iff _ ev).mpr hreach, hform⟩)

theorem rxP25Step_of_filtered {r : DropReason} (hreach : ReachesP25 (s.chan params c) ev)
    (hform : p25Accepts params cls ev.data = true) (hdup : dupCheck s.chans ev c (s.chan params c) = some r) :
    rxP25Step params cls ev c s = s.dropFrame c r ev.streamId := by
  rw [rxP25Step_of_wellFormed hreach hform, hdup]

theorem rxP25Step_of_accepted (hreach : ReachesP25 (s.chan params c) ev)
    (hform : p25Accepts params cls ev.data = true) (hdup : dupCheck s.chans ev c (s.chan params c) = none) :
    rxP25Step params cls ev c s = s.commit params c (p25Accepted params s.keys cls ev c (s.work params c)) := by
  rw [rxP25Step_of_wellFormed hreach hform, hdup]

end P25

section Dmr

variable {cls : DmrClass} {slot : BitVec 8} {ev : RxEvent} {c : Nat} {s : State}

theorem rxDmrStep_of_unreached (h : ¬ReachesDmr (s.chan params c) slot ev) :
    rxDmrStep params cls slot ev c s = s := by
  rw [← matchesDmr_iff] at h
  exact if_neg (by simp [h])

theorem rxDmrStep_of_malformed (h : dmrValid params cls ev.data = false) : rxDmrStep params cls slot ev c s = s :=
  if_neg (by simp [h])

theorem rxDmrStep_of_wellFormed (hreach : ReachesDmr (s.chan params c) slot ev)
    (hform : dmrValid params cls ev.data = true) :
    rxDmrStep params cls slot ev c s =
      match dupCheck s.chans ev c (s.chan params c) with
      | some r => s.dropFrame c r ev.streamId
      | none => s.commit params c (dmrAccepted params s.keys cls slot ev c (s.work params c)) :=
  if_pos (Bool.and_eq_true_iff.mpr ⟨(matchesDmr_iff _ slot ev).mpr hreach, hform⟩)

theorem rxDmrStep_of_filtered {r : DropReason} (hreach : ReachesDmr (s.chan params c) slot ev)
    (hform : dmrValid params cls ev.data = true) (hdup : dupCheck s.chans ev c (s.chan params c) = some r) :
    rxDmrStep params cls slot ev c s = s.dropFrame c r ev.streamId := by
  rw [rxDmrStep_of_wellFormed hreach hform, hdup]

theorem rxDmrStep_of_accepted (hreach : ReachesDmr (s.chan params c) slot ev)
    (hform : dmrValid params cls ev.data = true) (hdup : dupCheck s.chans ev c (s.chan params c) = none) :
    rxDmrStep params cls slot ev c s =
      s.commit params c (dmrAccepted params s.keys cls slot ev c (s.work params c)) := by
  rw [rxDmrStep_of_wellFormed hreach hform, hdup]

end Dmr

/-! ## What turns a frame away -/

/-- Settles O33: part 1 of the step is the first thing it tests. -/
theorem unreachedChannelUntouched : Obligations.UnreachedChannelUntouched := by
  intro s ev hfits
  constructor
  · intro cls kind h
    rw [exec_rxp25, rxP25_of_fits cls s hfits, rxP25Step_of_unreached h]
  · intro cls kind slot hlegal h
    rw [exec_rxdmr, rxDmr_of_fits cls s hfits hlegal, rxDmrStep_of_unreached h]

/-- Settles O34: a frame that fails the structural test writes nothing, wherever its step is. -/
theorem malformedFrameChangesNothing : Obligations.MalformedFrameChangesNothing := by
  intro s ev hfits
  have hp25 (cls : P25Class) (h : p25Accepts params cls ev.data = false) :
      exec (rxp25 cls 0 ev) s = .next (nextTurn s s) := by
    rw [exec_rxp25, rxP25_of_fits cls s hfits, rxP25Step_of_malformed h]
  have hdmr (cls : DmrClass) (slot : BitVec 8) (hlegal : slot = 1 ∨ slot = 2)
      (h : dmrValid params cls ev.data = false) : exec (rxdmr cls 0 slot ev) s = .next (nextTurn s s) := by
    rw [exec_rxdmr, rxDmr_of_fits cls s hfits hlegal, rxDmrStep_of_malformed h]
  refine ⟨hp25 .ldu1, hp25 .ldu2, fun hshort slot hlegal => ?_⟩
  have hbody : decide (params.dmrBodyOff + dmrBodyLen ≤ ev.data.length) = false :=
    decide_eq_false (Nat.not_le_of_lt hshort)
  exact ⟨hdmr .voice slot hlegal hbody, hdmr .vhdr slot hlegal hbody, hdmr .pihdr slot hlegal hbody⟩

/-- Settles O35: the filter comes after the structural test and before the tracker, whatever the class. -/
theorem filteredFrameOnlyLogged : Obligations.FilteredFrameOnlyLogged := by
  intro s ev r hfits c x hdup dropped
  constructor
  · intro cls kind hreach hform
    rw [exec_rxp25, rxP25_of_fits cls s hfits, rxP25Step_of_filtered hreach hform hdup]
    rfl
  · intro cls kind slot hlegal hreach hform
    rw [exec_rxdmr, rxDmr_of_fits cls s hfits hlegal, rxDmrStep_of_filtered hreach hform hdup]
    rfl

/-- Settles O37: the operand is tested before any channel is looked at. -/
theorem illegalSlotRefused : Obligations.IllegalSlotRefused := by
  intro s cls kind slot ev hfits h1 h2
  rw [exec_rxdmr, rxDmr_of_illegal cls s hfits (not_or_intro h1 h2)]

/-! ## The filter (45_call_tracker.md R232) -/

theorem dupCross_iff (chans : List (Nat × Chan)) (ev : RxEvent) (c : Nat) :
    dupCross chans ev c = true ↔
      ∃ p ∈ chans, p.1 ≠ c ∧ p.2.valid = true ∧ p.2.cfg.set = true ∧ p.2.cs.rxStreamId = ev.streamId := by
  delta dupCross
  simp only [monitored_iff, List.any_eq_true, Bool.and_eq_true, bne_iff_ne, beq_iff_eq, and_assoc]

theorem dupStale_iff (x : Chan) (ev : RxEvent) :
    dupStale x ev = true ↔ x.cs.rxStreamId = ev.streamId ∧ ev.peerId ≠ x.cs.peerId := by
  delta dupStale
  simp only [Bool.and_eq_true, bne_iff_ne, beq_iff_eq]

theorem loopback_iff (chans : List (Nat × Chan)) (ev : RxEvent) :
    loopback chans ev = true ↔
      ∃ p ∈ chans, p.2.valid = true ∧ p.2.cfg.set = true ∧ p.2.cs.txStreamId = ev.streamId := by
  delta loopback
  simp only [monitored_iff, List.any_eq_true, Bool.and_eq_true, beq_iff_eq, and_assoc]

/-- Settles O36: in each of the five cases of the filter, exactly one of the four right-hand sides holds. -/
theorem filterReportsFirstReason : Obligations.FilterReportsFirstReason := by
  intro s ev c x cross stale loop
  have hcross : cross ↔ dupCross s.chans ev c = true := (dupCross_iff s.chans ev c).symm
  have hstale : stale ↔ dupStale x ev = true := (dupStale_iff x ev).symm
  have hloop : loop ↔ loopback s.chans ev = true := (loopback_iff s.chans ev).symm
  rw [hcross, hstale, hloop]
  unfold dupCheck
  cases dupCross s.chans ev c with
  | true => simp
  | false =>
    cases dupStale x ev with
    | true => simp
    | false => cases loopback s.chans ev <;> simp

end Sys2Proof.Proofs
end

