-- ==== Sys2Proof/Proofs/Effects.lean ====
section
/-! PROOFS. Everything an instruction can do, said once (30_encoding.md R91, 20_memory.md R70): it is refused, it writes
a slot or a key, it does its work on the channel it names, or it takes its step on channel `turn`. The frame statements,
the invariant and the runs are read off `exec_effect`. -/

namespace Sys2Proof.Proofs

open Sys2Proof Sys2Proof.Machine Sys2Proof.Claims

/-! ## What remains when the next turn is set -/

@[simp] theorem nextTurn_keys (s t : State) : (nextTurn s t).keys = t.keys := rfl

@[simp] theorem nextTurn_netout (s t : State) : (nextTurn s t).netout = t.netout := rfl

@[simp] theorem nextTurn_vocout (s t : State) : (nextTurn s t).vocout = t.vocout := rfl

@[simp] theorem nextTurn_evt (s t : State) : (nextTurn s t).evt = t.evt := rfl

@[simp] theorem nextTurn_rsp (s t : State) : (nextTurn s t).rsp = t.rsp := rfl

@[simp] theorem nextTurn_chan (s t : State) (c : Nat) : (nextTurn s t).chan params c = t.chan params c := rfl

/-! ## The effects -/

/-- The work of a command behind its checks, on the channel its operand names, one line per operation. -/
def CommandWork (s : State) (ch : BitVec 16) (i : Instr) (w : Work) : Prop :=
  (∃ algId keyId mi, mi.length = 9 ∧ i = .cprep ch algId keyId mi ∧
    w = cprepWork params s.keys ch.toNat algId keyId mi (s.work params ch.toNat)) ∨
  (∃ role cw, i = .cproc ch role cw ∧ w = cprocWork params ch.toNat role cw (s.work params ch.toNat)) ∨
  (i = .ccycle ch ∧ w = ccycleWork params s.keys ch.toNat (s.work params ch.toNat)) ∨
  (Configured s ch ∧ (s.chan params ch.toNat).cs.txStreamId = 0 ∧ i = .txstart ch ∧
    w = txstartWork params (s.work params ch.toNat)) ∨
  (∃ cw, InCall s ch ∧ i = .txp25 ch cw ∧ w = txp25Work params s.keys ch.toNat cw (s.work params ch.toNat)) ∨
  (∃ cw, InCall s ch ∧ i = .txdmr ch cw ∧ w = txdmrWork params ch.toNat cw (s.work params ch.toNat)) ∨
  (∃ cause, InCall s ch ∧ i = .txendp ch cause ∧ w = txendpWork params ch.toNat (s.work params ch.toNat)) ∨
  (∃ cause, InCall s ch ∧ i = .txendd ch cause ∧ w = txenddWork params ch.toNat (s.work params ch.toNat))

/-- The work of an inbound command's step on a channel that lets its event through, or whose call has timed out. -/
def InboundWork (s : State) (c : Nat) (i : Instr) (w : Work) : Prop :=
  (∃ cls kind ev, ReachesP25 (s.chan params c) ev ∧ i = rxp25 cls kind ev ∧
    w = p25Accepted params s.keys cls ev c (s.work params c)) ∨
  (∃ cls kind slot ev, ReachesDmr (s.chan params c) slot ev ∧ i = rxdmr cls kind slot ev ∧
    w = dmrAccepted params s.keys cls slot ev c (s.work params c)) ∨
  (∃ now, (s.chan params c).valid = true ∧ i = .tick now ∧ w = callEnd c now .timedOut (s.work params c))

/-- What CHINIT, CHFREE and CHCFG write of the slot they name. -/
def SlotWrite (s : State) (ch : BitVec 16) (i : Instr) (x : Chan) : Prop :=
  (ch.toNat < params.nch ∧ i = .chinit ch ∧ x = Chan.init params) ∨
  (ChannelOk s ch ∧ i = .chfree ch ∧ x = Chan.reset params) ∨
  (∃ sys srcId dstId slot algoId keyId, (slot = 1 ∨ slot = 2) ∧ ChannelOk s ch ∧
    (s.chan params ch.toNat).inCall = false ∧ i = .chcfg ch sys srcId dstId slot algoId keyId ∧
    x = { s.chan params ch.toNat with
      cfg := { set := true, sys := sys, srcId := srcId, dstId := dstId, slot := slot.setWidth 2, algoId := algoId,
               keyId := keyId } })

/-- What an instruction that is no inbound command can do: it is refused, resets the block, loads a key, writes a slot,
or does its work on the channel it names. -/
def CommandEffect (s : State) (i : Instr) (t : State) : Prop :=
  (∃ r ch op, t = refusedAs s r ch op) ∨
  (i = .reset ∧ t = resetOp s) ∨
  (∃ algId keyId key, key ≠ [] ∧ key.length < 256 ∧ i = .keyload algId keyId key ∧
    t = { s with keys := mapPut s.keys (keyIx algId keyId) key }) ∨
  (∃ ch x, SlotWrite s ch i x ∧ t = s.setChan params ch.toNat x) ∨
  (∃ ch w, ChannelOk s ch ∧ CommandWork s ch i w ∧ t = s.commit params ch.toNat w)

/-- What an inbound command's step on channel `turn` can do: the event does not get through there, the filter logs it,
or the work of an accepted one is done. -/
def InboundStep (s : State) (i : Instr) (t : State) : Prop :=
  t = s ∨ (∃ r streamId, t = s.dropFrame s.turn r streamId) ∨
    ∃ w, InboundWork s s.turn i w ∧ t = s.commit params s.turn w

/-- What an inbound command can do: it is refused, or takes its step. -/
def InboundEffect (s : State) (i : Instr) (t : State) : Prop :=
  (∃ r op, t = { refusedAs s r 0xFFFF op with turn := 0 }) ∨ ∃ u, InboundStep s i u ∧ t = nextTurn s u

/-- A guarded command does what its effect does when every check passes, or is refused. -/
theorem guarded_effect {s : State} {i : Instr} {ch : BitVec 16} {op : BitVec 8} {checks : List (Bool × RefuseCode)}
    {effect : State} (heffect : (∀ p ∈ checks, p.1 = true) → CommandEffect s i effect) :
    CommandEffect s i (guarded s ch op checks effect) := by
  rcases guarded_cases s ch op checks effect with ⟨r, -, h⟩ | ⟨hpass, h⟩
  · exact .inl ⟨r, ch, op, h⟩
  · rw [h]
    exact heffect (firstFail_none.mp hpass)

theorem not_inbound_of_channelOf {i : Instr} {c : Nat} (h : channelOf i = some c) : ¬Inbound i := by
  rintro (⟨cls, kind, ev, rfl⟩ | ⟨cls, kind, slot, ev, rfl⟩ | ⟨now, rfl⟩)
  · cases cls <;> cases h
  · cases cls <;> cases h
  · cases h

/-! ## Inbound commands -/

theorem inbound_rxp25 (cls : P25Class) (kind : BitVec 8) (ev : RxEvent) : Inbound (rxp25 cls kind ev) :=
  .inl ⟨cls, kind, ev, rfl⟩

theorem inbound_rxdmr (cls : DmrClass) (kind slot : BitVec 8) (ev : RxEvent) : Inbound (rxdmr cls kind slot ev) :=
  .inr (.inl ⟨cls, kind, slot, ev, rfl⟩)

theorem inbound_tick (now : BitVec 64) : Inbound (.tick now) := .inr (.inr ⟨now, rfl⟩)

theorem rxP25Step_effect (cls : P25Class) (kind : BitVec 8) (ev : RxEvent) (s : State) :
    InboundStep s (rxp25 cls kind ev) (rxP25Step params cls ev s.turn s) := by
  by_cases hreach : ReachesP25 (s.chan params s.turn) ev
  · cases hform : p25Accepts params cls ev.data with
    | false => exact .inl (rxP25Step_of_malformed hform)
    | true =>
      cases hdup : dupCheck s.chans ev s.turn (s.chan params s.turn) with
      | some r => exact .inr (.inl ⟨r, _, rxP25Step_of_filtered hreach hform hdup⟩)
      | none => exact .inr (.inr ⟨_, .inl ⟨cls, kind, ev, hreach, rfl, rfl⟩, rxP25Step_of_accepted hreach hform hdup⟩)
  · exact .inl (rxP25Step_of_unreached hreach)

theorem rxDmrStep_effect (cls : DmrClass) (kind slot : BitVec 8) (ev : RxEvent) (s : State) :
    InboundStep s (rxdmr cls kind slot ev) (rxDmrStep params cls slot ev s.turn s) := by
  by_cases hreach : ReachesDmr (s.chan params s.turn) slot ev
  · cases hform : dmrValid params cls ev.data with
    | false => exact .inl (rxDmrStep_of_malformed hform)
    | true =>
      cases hdup : dupCheck s.chans ev s.turn (s.chan params s.turn) with
      | some r => exact .inr (.inl ⟨r, _, rxDmrStep_of_filtered hreach hform hdup⟩)
      | none =>
        exact .inr (.inr ⟨_, .inr (.inl ⟨cls, kind, slot, ev, hreach, rfl, rfl⟩),
          rxDmrStep_of_accepted hreach hform hdup⟩)
  · exact .inl (rxDmrStep_of_unreached hreach)

theorem tickStep_effect (now : BitVec 64) (s : State) : InboundStep s (.tick now) (tickStep params now s.turn s) := by
  by_cases hdue : ((s.chan params s.turn).monitored && (s.chan params s.turn).cs.isReceiving &&
      timedOut now (s.chan params s.turn).cs.lastPacketTime) = true
  · have hvalid : (s.chan params s.turn).valid = true := by
      simp only [Bool.and_eq_true, monitored_iff] at hdue
      exact hdue.1.1.1
    exact .inr (.inr ⟨_, .inr (.inr ⟨now, hvalid, rfl, rfl⟩), if_pos hdue⟩)
  · exact .inl (if_neg hdue)

theorem rxP25_effect (cls : P25Class) (kind : BitVec 8) (ev : RxEvent) (s : State) :
    InboundEffect s (rxp25 cls kind ev) (rxP25 params cls ev s) := by
  by_cases hfits : ev.data.length < 65536
  · exact .inr ⟨_, rxP25Step_effect cls kind ev s, rxP25_of_fits cls s hfits⟩
  · exact .inl ⟨.badLen, 0x30, guarded_cons_fail _ _ _ _ _ _ (decide_eq_false hfits)⟩

theorem rxDmr_effect (cls : DmrClass) (kind slot : BitVec 8) (ev : RxEvent) (s : State) :
    InboundEffect s (rxdmr cls kind slot ev) (rxDmr params cls slot ev s) := by
  by_cases hfits : ev.data.length < 65536
  · by_cases hlegal : slot = 1 ∨ slot = 2
    · exact .inr ⟨_, rxDmrStep_effect cls kind slot ev s, rxDmr_of_fits cls s hfits hlegal⟩
    · exact .inl ⟨.badArg, 0x31, rxDmr_of_illegal cls s hfits hlegal⟩
  · exact .inl ⟨.badLen, 0x31, guarded_cons_fail _ _ _ _ _ _ (decide_eq_false hfits)⟩

/-- An inbound command answers a next state, which is one of its effects. -/
theorem exec_inbound {i : Instr} (s : State) (h : Inbound i) : ∃ t, exec i s = .next t ∧ InboundEffect s i t := by
  rcases h with ⟨cls, kind, ev, rfl⟩ | ⟨cls, kind, slot, ev, rfl⟩ | ⟨now, rfl⟩
  · exact ⟨_, exec_rxp25 cls kind ev s, rxP25_effect cls kind ev s⟩
  · exact ⟨_, exec_rxdmr cls kind slot ev s, rxDmr_effect cls kind slot ev s⟩
  · exact ⟨_, exec_tick now s, .inr ⟨_, tickStep_effect now s, rfl⟩⟩

/-! ## Commands on one channel -/

/-- What the checks of the four commands that need a call say when they all pass; the first is their own. -/
theorem inCall_of_pass {s : State} {ch : BitVec 16} {p : Bool × RefuseCode}
    (hpass : ∀ q ∈ [p, (chOk params s ch, .badCh), (cfgOk params s ch, .noCfg), (callOpen params s ch, .noCall)],
      q.1 = true) : InCall s ch :=
  ⟨⟨(chOk_iff_ChannelOk s ch).mp (hpass (chOk params s ch, .badCh) (by simp)),
    hpass (cfgOk params s ch, .noCfg) (by simp)⟩,
    bne_iff_ne.mp (hpass (callOpen params s ch, .noCall) (by simp))⟩

/-- An instruction that is no inbound command does what its meaning under `params` says. -/
theorem effectOf_command {i : Instr} (s : State) (hnot : ¬Inbound i) : CommandEffect s i (effectOf params i s) := by
  have wrote {ch : BitVec 16} {x : Chan} (hwrite : SlotWrite s ch i x) :
      CommandEffect s i (s.setChan params ch.toNat x) := .inr (.inr (.inr (.inl ⟨ch, x, hwrite, rfl⟩)))
  have worked {ch : BitVec 16} {w : Work} (hok : ChannelOk s ch) (hwork : CommandWork s ch i w) :
      CommandEffect s i (s.commit params ch.toNat w) := .inr (.inr (.inr (.inr ⟨ch, w, hok, hwork, rfl⟩)))
  cases i with
  | reset => exact .inr (.inl ⟨rfl, rfl⟩)
  | chinit ch =>
    refine guarded_effect fun hpass => wrote (.inl ⟨?_, rfl, rfl⟩)
    exact of_decide_eq_true (hpass (decide (ch.toNat < params.nch), .badCh) (by simp))
  | chfree ch =>
    refine guarded_effect fun hpass => wrote (.inr (.inl ⟨?_, rfl, rfl⟩))
    exact (chOk_iff_ChannelOk s ch).mp (hpass (chOk params s ch, .badCh) (by simp))
  | chcfg ch sys srcId dstId slot algoId keyId =>
    refine guarded_effect fun hpass => ?_
    have hslot := hpass (slotLegal slot, .badArg) (by simp)
    have hch := hpass (chOk params s ch, .badCh) (by simp)
    have hfree := hpass (!(s.chan params ch.toNat).inCall, .busy) (by simp)
    exact wrote (.inr (.inr ⟨sys, srcId, dstId, slot, algoId, keyId, (slotLegal_iff slot).mp hslot,
      (chOk_iff_ChannelOk s ch).mp hch, (Bool.not_eq_true' _).mp hfree, rfl, rfl⟩))
  | keyload algId keyId key =>
    refine guarded_effect fun hpass => ?_
    have hlen := hpass (decide (key.length < 256), .badLen) (by simp)
    have hne := hpass (decide (key ≠ []), .badArg) (by simp)
    exact .inr (.inr (.inl ⟨algId, keyId, key, of_decide_eq_true hne, of_decide_eq_true hlen, rfl, rfl⟩))
  | cprep ch algId keyId mi =>
    refine guarded_effect fun hpass => ?_
    have hlen := hpass (decide (mi.length = miLen), .badLen) (by simp)
    have hok := (chOk_iff_ChannelOk s ch).mp (hpass (chOk params s ch, .badCh) (by simp))
    exact worked hok (.inl ⟨algId, keyId, mi, of_decide_eq_true hlen, rfl, rfl⟩)
  | cproc ch role cw =>
    refine guarded_effect fun hpass => ?_
    have hok := (chOk_iff_ChannelOk s ch).mp (hpass (chOk params s ch, .badCh) (by simp))
    exact worked hok (.inr (.inl ⟨role, cw, rfl, rfl⟩))
  | ccycle ch =>
    refine guarded_effect fun hpass => ?_
    have hok := (chOk_iff_ChannelOk s ch).mp (hpass (chOk params s ch, .badCh) (by simp))
    exact worked hok (.inr (.inr (.inl ⟨rfl, rfl⟩)))
  | txstart ch =>
    refine guarded_effect fun hpass => ?_
    have hok := (chOk_iff_ChannelOk s ch).mp (hpass (chOk params s ch, .badCh) (by simp))
    have hcfg := hpass (cfgOk params s ch, .noCfg) (by simp)
    have hidle := hpass (!callOpen params s ch, .busy) (by simp)
    exact worked hok (.inr (.inr (.inr (.inl
      ⟨⟨hok, hcfg⟩, bne_eq_false_iff_eq.mp ((Bool.not_eq_true' _).mp hidle), rfl, rfl⟩))))
  | txp25 ch cw =>
    refine guarded_effect fun hpass => ?_
    have hcall := inCall_of_pass hpass
    exact worked hcall.1.1 (.inr (.inr (.inr (.inr (.inl ⟨cw, hcall, rfl, rfl⟩)))))
  | txdmr ch cw =>
    refine guarded_effect fun hpass => ?_
    have hcall := inCall_of_pass hpass
    exact worked hcall.1.1 (.inr (.inr (.inr (.inr (.inr (.inl ⟨cw, hcall, rfl, rfl⟩))))))
  | txendp ch cause =>
    refine guarded_effect fun hpass => ?_
    have hcall := inCall_of_pass hpass
    exact worked hcall.1.1 (.inr (.inr (.inr (.inr (.inr (.inr (.inl ⟨cause, hcall, rfl, rfl⟩)))))))
  | txendd ch cause =>
    refine guarded_effect fun hpass => ?_
    have hcall := inCall_of_pass hpass
    exact worked hcall.1.1 (.inr (.inr (.inr (.inr (.inr (.inr (.inr ⟨cause, hcall, rfl, rfl⟩)))))))
  | rxp25Ldu1 ev => exact absurd (inbound_rxp25 .ldu1 0 ev) hnot
  | rxp25Ldu2 ev => exact absurd (inbound_rxp25 .ldu2 0 ev) hnot
  | rxp25Term ev => exact absurd (inbound_rxp25 .term 0 ev) hnot
  | rxp25Other kind ev => exact absurd (inbound_rxp25 .other kind ev) hnot
  | rxdmrVoice slot ev => exact absurd (inbound_rxdmr .voice 0 slot ev) hnot
  | rxdmrVhdr slot ev => exact absurd (inbound_rxdmr .vhdr 0 slot ev) hnot
  | rxdmrPihdr slot ev => exact absurd (inbound_rxdmr .pihdr 0 slot ev) hnot
  | rxdmrTerm slot ev => exact absurd (inbound_rxdmr .term 0 slot ev) hnot
  | rxdmrOther kind slot ev => exact absurd (inbound_rxdmr .other kind slot ev) hnot
  | tick now => exact absurd (inbound_tick now) hnot

/-! ## Every instruction -/

/-- What an instruction answers is one of its effects. -/
theorem exec_cases {i : Instr} {s t : State} (h : exec i s = .next t) :
    (Inbound i ∧ InboundEffect s i t) ∨ (¬Inbound i ∧ CommandEffect s i t) := by
  by_cases hin : Inbound i
  · obtain ⟨u, hu, heffect⟩ := exec_inbound s hin
    obtain rfl : u = t := Host.Outcome.next.inj (hu.symm.trans h)
    exact .inl ⟨hin, heffect⟩
  · obtain rfl : effectOf params i s = t := Host.Outcome.next.inj ((exec_eq_execOf i s).symm.trans h)
    exact .inr ⟨hin, effectOf_command s hin⟩

/-- Settles O8: `exec` answers a next state for every instruction, so a step does whether it waits, refuses at decode or
carries a command out. -/
theorem nothingStopsTheBlock : Obligations.NothingStopsTheBlock := by
  constructor
  · intro i s
    exact ⟨_, exec_eq_execOf i s⟩
  · intro s
    rcases step_cases s with ⟨-, h⟩ | ⟨k, e, s1, -, ⟨r, -, h⟩ | ⟨i, -, h⟩⟩
    · exact ⟨s, h⟩
    · exact ⟨_, h⟩
    · exact ⟨_, h _ (exec_eq_execOf i s1)⟩

/-- Settles O55: of the effects, only a key load and a reset write the key store. -/
theorem onlyKeyloadAndResetWriteKeys : Obligations.OnlyKeyloadAndResetWriteKeys := by
  intro i s t h hreset hkeyload
  rcases exec_cases h with ⟨-, ⟨r, op, rfl⟩ | ⟨u, hstep, rfl⟩⟩ | ⟨-, heffect⟩
  · rfl
  · rw [nextTurn_keys]
    rcases hstep with rfl | ⟨r, streamId, rfl⟩ | ⟨w, -, rfl⟩
    · rfl
    · exact State.dropFrame_keys ..
    · exact State.commit_keys ..
  · rcases heffect with ⟨r, ch, op, rfl⟩ | ⟨rfl, -⟩ | ⟨algId, keyId, key, -, -, rfl, -⟩ | ⟨ch, x, -, rfl⟩ |
      ⟨ch, w, -, -, rfl⟩
    · rfl
    · exact absurd rfl hreset
    · exact absurd rfl (hkeyload algId keyId key)
    · exact State.setChan_keys ..
    · exact State.commit_keys ..

end Sys2Proof.Proofs
end

