-- ==== Sys2Proof/Proofs/Runs.lean ====
section
/-! PROOFS. Runs of commands and of machine steps, cut into parts. -/

namespace Sys2Proof.Proofs

open Sys2Proof Sys2Proof.Machine Sys2Proof.Claims

@[simp] theorem runAll_nil (s : State) : runAll [] s = .next s := rfl

theorem runAll_cons {i : Instr} {s t : State} (is : List Instr) (h : exec i s = .next t) :
    runAll (i :: is) s = runAll is t := by
  simp only [runAll, h]

/-- A run goes on from where its first part ended. -/
theorem runAll_append {is : List Instr} {s t : State} (js : List Instr) (h : runAll is s = .next t) :
    runAll (is ++ js) s = runAll js t := by
  induction is generalizing s with
  | nil => cases h; rfl
  | cons i is ih =>
    have hexec := exec_eq_execOf i s
    rw [runAll_cons is hexec] at h
    rw [List.cons_append, runAll_cons _ hexec, ih h]

/-- One more step after m of them. -/
theorem run_succ {M : Host.Core} {m : Nat} {s t u : M.State} (h : M.run m s = .next t) (hstep : M.step t = .next u) :
    M.run (m + 1) s = .next u := by
  induction m generalizing s with
  | zero =>
    cases h
    simp only [Host.Core.run, hstep]
  | succ m ih =>
    rw [Host.Core.run] at h ⊢
    cases hs : M.step s with
    | next v => rw [hs] at h; exact ih h
    | fault r => rw [hs] at h; cases h
    | refused r => rw [hs] at h; cases h

end Sys2Proof.Proofs
end

