-- ==== Sys2Proof/Proofs/Port.lean ====
section
/-! PROOFS. The command port (20_memory.md R70 to R74): which command a step takes, in which order, and how many steps
an inbound command has. -/

namespace Sys2Proof.Proofs

open Sys2Proof Sys2Proof.Machine Sys2Proof.Claims

/-! ## A step, by what was taken -/

theorem step_of_decoded {s s1 t : State} {k : Nat} {e : PortEntry} {i : Instr} (hfetch : fetch params s = some (k, e, s1))
    (hdecode : decode params e.bytes = .ok i) (hexec : exec i s1 = .next t) :
    step s = .next (settle params k e i t) := by
  unfold step stepWith
  rw [hfetch]
  simp only [hdecode, hexec]

theorem step_of_undecoded {s s1 : State} {k : Nat} {e : PortEntry} {r : RefuseCode}
    (hfetch : fetch params s = some (k, e, s1)) (hdecode : decode params e.bytes = .error r) :
    step s = .next (refuseUndecoded r e s1) := by
  unfold step stepWith
  rw [hfetch]
  simp only [hdecode]

theorem step_of_empty {s : State} (h : s.port = []) : step s = .next s := by
  rcases step_cases s with ⟨-, hstep⟩ | ⟨k, e, s1, hfetch, -⟩
  · exact hstep
  · rcases fetch_cases params s with ⟨-, hnone⟩ | ⟨j, a, hj, -⟩
    · rw [hnone] at hfetch; cases hfetch
    · rw [h] at hj; cases hj

/-- With one command presented, that one is taken. -/
theorem fetch_of_one {s : State} {e : PortEntry} (h : s.port = [e]) :
    fetch params s = some (0, e, { s with port := [], turn := e.next, picks := s.picks + 1 }) := by
  rcases fetch_cases params s with ⟨hempty, -⟩ | ⟨k, a, hk, -, hfetch⟩
  · rw [h] at hempty; cases hempty
  · rw [h] at hk hfetch
    obtain ⟨rfl, rfl⟩ : k = 0 ∧ e = a := by simpa [List.getElem?_singleton] using hk
    exact hfetch

/-- Settles O5: the command taken is decoded, carried out and settled; of one command presented it is that one. -/
theorem stepRunsDecodedCommand : Obligations.StepRunsDecodedCommand :=
  ⟨fun _ _ _ _ hport hdecode hexec => step_of_decoded (fetch_of_one hport) hdecode hexec,
    fun _ _ _ _ _ _ hfetch hdecode hexec => step_of_decoded hfetch hdecode hexec⟩

/-- Settles O6: nothing is listed after RESET, and with nothing presented a step waits. -/
theorem blockWaitsAfterReset : Obligations.BlockWaitsAfterReset :=
  ⟨fun _ => rfl, rfl, rfl, rfl, rfl, rfl, step_of_empty rfl, fun _ h => step_of_empty h⟩

/-- Settles O7: a command that is refused at decode has left the port when its record is written. -/
theorem undecodableCommandRefused : Obligations.UndecodableCommandRefused := by
  intro s e r hport hdecode
  rw [step_of_undecoded (fetch_of_one hport) hdecode]
  rfl

/-! ## Which step comes first -/

/-- The scope of an instruction with a channel operand is that channel. -/
theorem scopeOf_chan {i : Instr} {c : Nat} (h : channelOf i = some c) : scopeOf i = .chan c := by
  cases i <;> cases h <;> rfl

/-- The operations with a step for every channel are the inbound ones. -/
theorem inbound_iff_perChannel (i : Instr) : Inbound i ↔ perChannel i = true := by
  constructor
  · rintro (⟨cls, kind, ev, rfl⟩ | ⟨cls, kind, slot, ev, rfl⟩ | ⟨now, rfl⟩)
    · cases cls <;> rfl
    · cases cls <;> rfl
    · rfl
  · intro h
    by_contra hnot
    cases i with
    | rxp25Ldu1 ev => exact hnot (inbound_rxp25 .ldu1 0 ev)
    | rxp25Ldu2 ev => exact hnot (inbound_rxp25 .ldu2 0 ev)
    | rxp25Term ev => exact hnot (inbound_rxp25 .term 0 ev)
    | rxp25Other kind ev => exact hnot (inbound_rxp25 .other kind ev)
    | rxdmrVoice slot ev => exact hnot (inbound_rxdmr .voice 0 slot ev)
    | rxdmrVhdr slot ev => exact hnot (inbound_rxdmr .vhdr 0 slot ev)
    | rxdmrPihdr slot ev => exact hnot (inbound_rxdmr .pihdr 0 slot ev)
    | rxdmrTerm slot ev => exact hnot (inbound_rxdmr .term 0 slot ev)
    | rxdmrOther kind slot ev => exact hnot (inbound_rxdmr .other kind slot ev)
    | tick now => exact hnot (inbound_tick now)
    | _ => cases h

/-- Of a command that is decoded, the scope is that of its instruction, unless it is refused without a channel. -/
theorem entryScope_of_ok {e : PortEntry} {i : Instr} (h : decode params e.bytes = .ok i) :
    entryScope params e = if perChannel i && !i.legal then .nothing else scopeOf i := by
  unfold entryScope
  rw [h]

theorem entryScope_of_error {e : PortEntry} {r : RefuseCode} (h : decode params e.bytes = .error r) :
    entryScope params e = .nothing := by
  unfold entryScope
  rw [h]

theorem not_inbound_reset : ¬Inbound .reset := fun h => Bool.false_ne_true ((inbound_iff_perChannel .reset).mp h)

theorem scopeOf_reset : scopeOf .reset = .block := rfl

theorem scopeOf_tick (now : BitVec 64) : scopeOf (.tick now) = .tick := rfl

theorem channelOf_tick (now : BitVec 64) : channelOf (.tick now) = none := rfl

theorem legal_tick (now : BitVec 64) : (Instr.tick now).legal = true := rfl

theorem networkEvent_of_rx {i : Instr} (h : NetworkEvent i) : scopeOf i = .inbound ∧ channelOf i = none := by
  obtain ⟨⟨cls, kind, ev, rfl⟩ | ⟨cls, kind, slot, ev, rfl⟩ | ⟨now, rfl⟩, hnot⟩ := h
  · cases cls <;> exact ⟨rfl, rfl⟩
  · cases cls <;> exact ⟨rfl, rfl⟩
  · exact absurd rfl (hnot now)

/-- An instruction that is no inbound command and has no channel operand is RESET or a key load. -/
theorem scopeOf_of_no_channel {i : Instr} (hnot : ¬Inbound i) (hch : channelOf i = none) :
    i = .reset ∨ (i ≠ .reset ∧ scopeOf i = .nothing) := by
  rw [inbound_iff_perChannel] at hnot
  cases i with
  | reset => exact .inl rfl
  | keyload => exact .inr ⟨by simp, rfl⟩
  | chinit | chcfg | chfree | cprep | cproc | ccycle | txstart | txp25 | txdmr | txendp | txendd => cases hch
  | _ => exact absurd rfl hnot

/-- The five kinds of presented commands: ordered with nothing, RESET, on one channel, a network event, TICK. -/
theorem entryScope_cases (e : PortEntry) :
    (entryScope params e = .nothing ∧ ∀ i, decode params e.bytes = .ok i →
      i ≠ .reset ∧ channelOf i = none ∧ ¬(Inbound i ∧ i.legal = true)) ∨
    (entryScope params e = .block ∧ decode params e.bytes = .ok .reset) ∨
    (∃ i d, entryScope params e = .chan d ∧ decode params e.bytes = .ok i ∧ i ≠ .reset ∧ channelOf i = some d ∧
      ¬Inbound i) ∨
    (∃ i, entryScope params e = .inbound ∧ decode params e.bytes = .ok i ∧ i ≠ .reset ∧ channelOf i = none ∧
      NetworkEvent i ∧ i.legal = true) ∨
    (∃ now, entryScope params e = .tick ∧ decode params e.bytes = .ok (.tick now)) := by
  cases hdecode : decode params e.bytes with
  | error r => exact .inl ⟨entryScope_of_error hdecode, fun i h => by cases h⟩
  | ok i =>
    rw [entryScope_of_ok hdecode]
    by_cases hin : Inbound i
    · have hper : perChannel i = true := (inbound_iff_perChannel i).mp hin
      have hne : i ≠ .reset := by rintro rfl; exact not_inbound_reset hin
      cases hlegal : i.legal with
      | false =>
        have hch : channelOf i = none := by
          cases hch : channelOf i with
          | none => rfl
          | some d => exact absurd hin (not_inbound_of_channelOf hch)
        refine .inl ⟨by simp [hper], fun j hj => ?_⟩
        obtain rfl := Except.ok.inj hj
        exact ⟨hne, hch, by simp [hlegal]⟩
      | true =>
        by_cases htick : ∃ now, i = .tick now
        · obtain ⟨now, rfl⟩ := htick
          exact .inr (.inr (.inr (.inr ⟨now, by simp [scopeOf_tick], rfl⟩)))
        · have hev : NetworkEvent i := ⟨hin, not_exists.mp htick⟩
          obtain ⟨hscope, hch⟩ := networkEvent_of_rx hev
          exact .inr (.inr (.inr (.inl ⟨i, by simp [hscope], rfl, hne, hch, hev, hlegal⟩)))
    · have hper : perChannel i = false := Bool.eq_false_iff.mpr (mt (inbound_iff_perChannel i).mpr hin)
      cases hch : channelOf i with
      | some d =>
        have hne : i ≠ .reset := by rintro rfl; cases hch
        exact .inr (.inr (.inl ⟨i, d, by simp [hper, scopeOf_chan hch], rfl, hne, hch, hin⟩))
      | none =>
        rcases scopeOf_of_no_channel hin hch with rfl | ⟨hne, hscope⟩
        · exact .inr (.inl ⟨by simp [hper, scopeOf_reset], rfl⟩)
        · refine .inl ⟨by simp [hper, hscope], fun j hj => ?_⟩
          obtain rfl := Except.ok.inj hj
          exact ⟨hne, hch, fun h => hin h.1⟩

section HasStep

variable (e : PortEntry) (c : Nat)

theorem hasStepOn_nothing : hasStepOn params e .nothing c = true ↔ False := iff_of_false Bool.false_ne_true id

theorem hasStepOn_block : hasStepOn params e .block c = true ↔ c < params.nch := decide_eq_true_iff

theorem hasStepOn_chan (d : Nat) : hasStepOn params e (.chan d) c = true ↔ d = c ∧ c < params.nch :=
  Bool.and_eq_true_iff.trans (and_congr beq_iff_eq decide_eq_true_iff)

theorem hasStepOn_inbound : hasStepOn params e .inbound c = true ↔ e.next ≤ c ∧ c < params.nch :=
  Bool.and_eq_true_iff.trans (and_congr decide_eq_true_iff decide_eq_true_iff)

theorem hasStepOn_tick : hasStepOn params e .tick c = true ↔ e.next ≤ c ∧ c < params.nch := hasStepOn_inbound e c

end HasStep

/-- The channels on which a command owes a step are those of its scope. -/
theorem owes_iff (e : PortEntry) (c : Nat) : Owes e c ↔ hasStepOn params e (entryScope params e) c = true := by
  unfold Owes
  rcases entryScope_cases e with ⟨hsc, hi⟩ | ⟨hsc, hd⟩ | ⟨i, d, hsc, hd, hne, hch, hin⟩ |
    ⟨i, hsc, hd, hne, hch, hev, hlegal⟩ | ⟨now, hsc, hd⟩ <;> rw [hsc]
  · rw [hasStepOn_nothing, iff_false]
    rintro ⟨-, i, hd, hkind⟩
    obtain ⟨hne, hch, hin⟩ := hi i hd
    rcases hkind with rfl | hkind | ⟨hinb, hlegal, -⟩
    · exact hne rfl
    · rw [hch] at hkind; cases hkind
    · exact hin ⟨hinb, hlegal⟩
  · simp [hd, hasStepOn_block]
  · simp [hd, hasStepOn_chan, hne, hch, hin, and_comm]
  · simp [hd, hasStepOn_inbound, hne, hch, hev.1, hlegal, and_comm]
  · simp [hd, hasStepOn_tick, channelOf_tick, inbound_tick, legal_tick, and_comm]

/-- The channels that the next step of a command may be on, by its scope. -/
def nextStepOn (e : PortEntry) (sc : Scope) (c : Nat) : Prop :=
  sc = .block ∨ sc = .chan c ∨ ((sc = .inbound ∨ sc = .tick) ∧ e.next = c)

theorem nextStepOn_iff (e : PortEntry) (sc : Scope) (c : Nat) :
    nextStepOn e sc c ↔ sc = .block ∨ sc = .chan c ∨ ((sc = .inbound ∨ sc = .tick) ∧ e.next = c) := Iff.rfl

theorem nextOn_iff (e : PortEntry) (c : Nat) : NextOn e c ↔ c < params.nch ∧ nextStepOn e (entryScope params e) c := by
  unfold NextOn
  rw [and_congr_right_iff, nextStepOn_iff]
  intro _
  rcases entryScope_cases e with ⟨hsc, hi⟩ | ⟨hsc, hd⟩ | ⟨i, d, hsc, hd, hne, hch, hin⟩ |
    ⟨i, hsc, hd, hne, hch, hev, hlegal⟩ | ⟨now, hsc, hd⟩ <;> rw [hsc]
  · simp only [reduceCtorEq, false_or, false_and, iff_false]
    rintro ⟨i, hd, hkind⟩
    obtain ⟨hne, hch, hin⟩ := hi i hd
    rcases hkind with rfl | hkind | ⟨hinb, hlegal, -⟩
    · exact hne rfl
    · rw [hch] at hkind; cases hkind
    · exact hin ⟨hinb, hlegal⟩
  · simp [hd]
  · simp [hd, hne, hch, hin]
  · simp [hd, hne, hch, hev.1, hlegal]
  · simp [hd, channelOf_tick, inbound_tick, legal_tick]

theorem isEvent_iff (e : PortEntry) : IsEvent e ↔ entryScope params e = .inbound := by
  unfold IsEvent
  rcases entryScope_cases e with ⟨hsc, hi⟩ | ⟨hsc, hd⟩ | ⟨i, d, hsc, hd, hne, hch, hin⟩ |
    ⟨i, hsc, hd, hne, hch, hev, hlegal⟩ | ⟨now, hsc, hd⟩ <;> rw [hsc]
  · simp only [reduceCtorEq, iff_false]
    rintro ⟨i, hd, hev, hlegal⟩
    obtain ⟨-, -, hin⟩ := hi i hd
    exact hin ⟨hev.1, hlegal⟩
  · simp [hd, NetworkEvent, not_inbound_reset]
  · simp [hd, NetworkEvent, hin]
  · simp [hd, hev, hlegal]
  · simp [hd, NetworkEvent]

theorem lt_of_hasStepOn {e : PortEntry} {sc : Scope} {c : Nat} (h : hasStepOn params e sc c = true) :
    c < params.nch := by
  cases sc with
  | nothing => exact ((hasStepOn_nothing e c).mp h).elim
  | block => exact (hasStepOn_block e c).mp h
  | chan d => exact ((hasStepOn_chan e c d).mp h).2
  | inbound => exact ((hasStepOn_inbound e c).mp h).2
  | tick => exact ((hasStepOn_tick e c).mp h).2

/-- A command has a step left if it has one on some channel. -/
theorem hasStep_iff (e : PortEntry) (sc : Scope) :
    hasStep params e sc = true ↔ ∃ c, hasStepOn params e sc c = true := by
  have hfrom : decide (e.next < params.nch) = true ↔ ∃ c, e.next ≤ c ∧ c < params.nch := by
    rw [decide_eq_true_iff]
    exact ⟨fun h => ⟨e.next, le_rfl, h⟩, fun ⟨_, hle, hlt⟩ => hle.trans_lt hlt⟩
  cases sc with
  | nothing => exact iff_of_false Bool.false_ne_true fun ⟨c, h⟩ => (hasStepOn_nothing e c).mp h
  | block => exact iff_of_true rfl ⟨0, (hasStepOn_block e 0).mpr (Nat.succ_pos _)⟩
  | chan d =>
    simp only [hasStepOn_chan, exists_eq_left']
    exact decide_eq_true_iff
  | inbound =>
    simp only [hasStepOn_inbound]
    exact hfrom
  | tick =>
    simp only [hasStepOn_tick]
    exact hfrom

section GoesBefore

variable (a : PortEntry) {b : PortEntry}

theorem goesBefore_of_nothing (h : entryScope params b = .nothing) : goesBefore params a b = false := by
  delta goesBefore
  rw [h]

theorem goesBefore_of_block (h : entryScope params b = .block) :
    goesBefore params a b = hasStep params a (entryScope params a) := by
  delta goesBefore
  rw [h]

theorem goesBefore_of_chan {d : Nat} (h : entryScope params b = .chan d) :
    goesBefore params a b = hasStepOn params a (entryScope params a) d := by
  delta goesBefore
  rw [h]

theorem goesBefore_of_inbound (h : entryScope params b = .inbound) :
    goesBefore params a b =
      (entryScope params a == .inbound || hasStepOn params a (entryScope params a) b.next) := by
  delta goesBefore
  rw [h]

theorem goesBefore_of_tick (h : entryScope params b = .tick) :
    goesBefore params a b = hasStepOn params a (entryScope params a) b.next := by
  delta goesBefore
  rw [h]

end GoesBefore

/-- The model's order of two presented commands is that of the statements. -/
theorem goesBefore_iff (a b : PortEntry) : goesBefore params a b = true ↔ Precedes a b := by
  have hlt {c : Nat} : hasStepOn params a (entryScope params a) c = true → c < params.nch := lt_of_hasStepOn
  unfold Precedes
  simp only [owes_iff, nextOn_iff, isEvent_iff, nextStepOn_iff]
  cases hb : entryScope params b with
  | nothing => simp [goesBefore_of_nothing a hb]
  | block =>
    rw [goesBefore_of_block a hb, hasStep_iff]
    simp only [true_or, and_true, reduceCtorEq, and_false, or_false]
    exact exists_congr fun c => ⟨fun h => ⟨h, hlt h⟩, And.left⟩
  | chan d =>
    rw [goesBefore_of_chan a hb]
    simp only [reduceCtorEq, Scope.chan.injEq, false_or, false_and, and_false, or_false]
    exact ⟨fun h => ⟨d, h, hlt h, rfl⟩, fun ⟨_, h, _, hd⟩ => hd ▸ h⟩
  | inbound =>
    rw [goesBefore_of_inbound a hb]
    simp only [reduceCtorEq, false_or, true_or, true_and, and_true, Bool.or_eq_true, beq_iff_eq,
      or_comm (b := entryScope params a = .inbound)]
    exact or_congr_right ⟨fun h => ⟨b.next, h, hlt h, rfl⟩, fun ⟨_, h, _, hd⟩ => hd ▸ h⟩
  | tick =>
    rw [goesBefore_of_tick a hb]
    simp only [reduceCtorEq, false_or, or_true, true_and, and_false, or_false]
    exact ⟨fun h => ⟨b.next, h, hlt h, rfl⟩, fun ⟨_, h, _, hd⟩ => hd ▸ h⟩

/-- The positions that may move, in a list behind the commands of `before`. -/
theorem mem_eligibleFrom_iff (before es : List PortEntry) (k j : Nat) :
    j ∈ eligibleFrom params before k es ↔
      ∃ i e, j = k + i ∧ es[i]? = some e ∧ ∀ a ∈ before ++ es.take i, goesBefore params a e = false := by
  refine ⟨mem_eligibleFrom, ?_⟩
  induction es generalizing before k with
  | nil => rintro ⟨i, e, -, he, -⟩; cases he
  | cons e es ih =>
    rintro ⟨i, b, rfl, hb, hbefore⟩
    simp only [eligibleFrom]
    cases i with
    | zero =>
      obtain rfl : e = b := by simpa using hb
      have hall : before.all (fun a => !goesBefore params a e) = true := by simpa using hbefore
      rw [if_pos hall]
      exact List.mem_cons_self
    | succ i =>
      have hrest : k + (i + 1) ∈ eligibleFrom params (before ++ [e]) (k + 1) es :=
        ih (before ++ [e]) (k + 1) ⟨i, b, by omega, by simpa using hb, by simpa using hbefore⟩
      split
      · exact List.mem_cons_of_mem _ hrest
      · exact hrest

/-- The commands presented before position k are those at the positions below it. -/
theorem forall_mem_take_iff {es : List PortEntry} {k : Nat} {P : PortEntry → Prop} :
    (∀ a ∈ es.take k, P a) ↔ ∀ j a, j < k → es[j]? = some a → P a := by
  constructor
  · intro h j a hj ha
    exact h a (List.mem_of_getElem? ((List.getElem?_take_of_lt hj).trans ha))
  · intro h a ha
    obtain ⟨j, hj⟩ := List.getElem?_of_mem ha
    rw [List.getElem?_take] at hj
    split at hj
    case isTrue hlt => exact h j a hlt hj
    case isFalse => cases hj

/-- Settles O9: what may move is what no earlier command precedes, and a step takes one of those. -/
theorem stepsKeepIssueOrder : Obligations.StepsKeepIssueOrder := by
  refine ⟨fun s hport => ?_, fun s s1 k e hfetch => ?_, fun s k => ?_⟩
  · rcases fetch_cases params s with ⟨hempty, -⟩ | ⟨k, e, -, -, hfetch⟩
    · exact absurd hempty hport
    · exact ⟨k, e, _, hfetch⟩
  · unfold fetch at hfetch
    cases hpick : pick params s with
    | none => rw [hpick] at hfetch; cases hfetch
    | some j =>
      rw [hpick] at hfetch
      cases he : s.port[j]? with
      | none => simp [he] at hfetch
      | some b =>
        simp only [he, Option.some.injEq, Prod.mk.injEq] at hfetch
        obtain ⟨rfl, rfl, -⟩ := hfetch
        exact ⟨pick_mem hpick, he⟩
  · unfold eligible
    rw [mem_eligibleFrom_iff]
    simp only [Nat.zero_add, List.nil_append, forall_mem_take_iff, ← Bool.not_eq_true, goesBefore_iff]
    exact ⟨fun ⟨_, e, hk, h⟩ => ⟨e, hk ▸ h⟩, fun ⟨e, h⟩ => ⟨k, e, rfl, h⟩⟩

/-! ## The steps of an inbound command -/

theorem data_fits_of_rxp25 {cls : P25Class} {kind : BitVec 8} {ev : RxEvent}
    (h : (rxp25 cls kind ev).encodable params = true) : ev.data.length < 65536 := by
  cases cls with
  | other => exact of_decide_eq_true (Bool.and_eq_true_iff.mp h).2
  | ldu1 | ldu2 | term => exact of_decide_eq_true h

theorem data_fits_of_rxdmr {cls : DmrClass} {kind slot : BitVec 8} {ev : RxEvent}
    (h : (rxdmr cls kind slot ev).encodable params = true) : ev.data.length < 65536 := by
  cases cls with
  | other => exact of_decide_eq_true (Bool.and_eq_true_iff.mp h).2
  | voice | vhdr | pihdr | term => exact of_decide_eq_true h

/-- A state with other values in the three fields that belong to the machine's own course, and not to the block. -/
def withCourse (s : State) (port : List PortEntry) (turn picks : Nat) : State :=
  { s with port := port, turn := turn, picks := picks }

section Course

variable (c : Nat) (s : State) (port : List PortEntry) (turn picks : Nat)

theorem rxP25Step_withCourse (cls : P25Class) (ev : RxEvent) :
    rxP25Step params cls ev c (withCourse s port turn picks) =
      withCourse (rxP25Step params cls ev c s) port turn picks := by
  by_cases hreach : ReachesP25 (s.chan params c) ev
  · cases hform : p25Accepts params cls ev.data with
    | false => rw [rxP25Step_of_malformed hform, rxP25Step_of_malformed hform]
    | true =>
      cases hdup : dupCheck s.chans ev c (s.chan params c) with
      | some r =>
        rw [rxP25Step_of_filtered hreach hform hdup,
          rxP25Step_of_filtered (s := withCourse s port turn picks) hreach hform hdup]
        rfl
      | none =>
        rw [rxP25Step_of_accepted hreach hform hdup,
          rxP25Step_of_accepted (s := withCourse s port turn picks) hreach hform hdup]
        rfl
  · rw [rxP25Step_of_unreached hreach, rxP25Step_of_unreached (s := withCourse s port turn picks) hreach]

theorem rxDmrStep_withCourse (cls : DmrClass) (slot : BitVec 8) (ev : RxEvent) :
    rxDmrStep params cls slot ev c (withCourse s port turn picks) =
      withCourse (rxDmrStep params cls slot ev c s) port turn picks := by
  by_cases hreach : ReachesDmr (s.chan params c) slot ev
  · cases hform : dmrValid params cls ev.data with
    | false => rw [rxDmrStep_of_malformed hform, rxDmrStep_of_malformed hform]
    | true =>
      cases hdup : dupCheck s.chans ev c (s.chan params c) with
      | some r =>
        rw [rxDmrStep_of_filtered hreach hform hdup,
          rxDmrStep_of_filtered (s := withCourse s port turn picks) hreach hform hdup]
        rfl
      | none =>
        rw [rxDmrStep_of_accepted hreach hform hdup,
          rxDmrStep_of_accepted (s := withCourse s port turn picks) hreach hform hdup]
        rfl
  · rw [rxDmrStep_of_unreached hreach, rxDmrStep_of_unreached (s := withCourse s port turn picks) hreach]

theorem tickStep_withCourse (now : BitVec 64) :
    tickStep params now c (withCourse s port turn picks) = withCourse (tickStep params now c s) port turn picks := by
  unfold tickStep
  rw [apply_ite (fun t => withCourse t port turn picks)]
  rfl

end Course

/-- The command takes the step `f c` on channel c, and that step reads nothing of the machine's course and leaves it as
it is. -/
def StepsBy (i : Instr) (f : Nat → State → State) : Prop :=
  (∀ s, exec i s = .next (nextTurn s (f s.turn s))) ∧
    ∀ c s port turn picks, f c (withCourse s port turn picks) = withCourse (f c s) port turn picks

theorem stepsBy_rxp25 (cls : P25Class) (kind : BitVec 8) {ev : RxEvent} (hfits : ev.data.length < 65536) :
    StepsBy (rxp25 cls kind ev) (rxP25Step params cls ev) :=
  ⟨fun s => by rw [exec_rxp25, rxP25_of_fits cls s hfits], fun c s port turn picks =>
    rxP25Step_withCourse c s port turn picks cls ev⟩

theorem stepsBy_rxdmr (cls : DmrClass) (kind : BitVec 8) {slot : BitVec 8} {ev : RxEvent}
    (hfits : ev.data.length < 65536) (hslot : slot = 1 ∨ slot = 2) :
    StepsBy (rxdmr cls kind slot ev) (rxDmrStep params cls slot ev) :=
  ⟨fun s => by rw [exec_rxdmr, rxDmr_of_fits cls s hfits hslot], fun c s port turn picks =>
    rxDmrStep_withCourse c s port turn picks cls slot ev⟩

/-- An inbound command with a byte form and legal operands takes a step on every channel. -/
theorem exists_stepsBy {i : Instr} (hin : Inbound i) (hform : i.encodable params = true) (hlegal : i.legal = true) :
    ∃ f, StepsBy i f := by
  rcases hin with ⟨cls, kind, ev, rfl⟩ | ⟨cls, kind, slot, ev, rfl⟩ | ⟨now, rfl⟩
  · exact ⟨_, stepsBy_rxp25 cls kind (data_fits_of_rxp25 hform)⟩
  · have hslot : slot = 1 ∨ slot = 2 := by
      rw [← slotLegal_iff]
      cases cls <;> exact hlegal
    exact ⟨_, stepsBy_rxdmr cls kind (data_fits_of_rxdmr hform) hslot⟩
  · exact ⟨tickStep params now, exec_tick now, fun c s port turn picks => tickStep_withCourse c s port turn picks now⟩

/-- The steps of an inbound command on channels 0 to m - 1. -/
def stepsBelow (f : Nat → State → State) (m : Nat) (s : State) : State := (List.range m).foldl (fun t c => f c t) s

@[simp] theorem stepsBelow_zero (f : Nat → State → State) (s : State) : stepsBelow f 0 s = s := rfl

theorem stepsBelow_succ (f : Nat → State → State) (m : Nat) (s : State) :
    stepsBelow f (m + 1) s = f m (stepsBelow f m s) := by
  simp [stepsBelow, List.range_succ]

section Steps

variable {i : Instr} {f : Nat → State → State} (hsteps : StepsBy i f)
include hsteps

theorem exec_withCourse (s : State) (port : List PortEntry) (c picks : Nat) :
    exec i (withCourse s port c picks) = .next (withCourse (f c s) port (c + 1) picks) := by
  obtain ⟨hexec, hcourse⟩ := hsteps
  rw [hexec]
  exact congrArg (fun t => Host.Outcome.next (nextTurn (withCourse s port c picks) t)) (hcourse c s port c picks)

theorem stepsBelow_withCourse (m : Nat) (s : State) (port : List PortEntry) (turn picks : Nat) :
    stepsBelow f m (withCourse s port turn picks) = withCourse (stepsBelow f m s) port turn picks := by
  obtain ⟨-, hcourse⟩ := hsteps
  induction m with
  | zero => rfl
  | succ m ih => rw [stepsBelow_succ, ih, hcourse, stepsBelow_succ]

/-- A command carried out at a stretch is its steps on the channels below NCH. -/
theorem runAll_replicate (s : State) (port : List PortEntry) (picks m : Nat) :
    runAll (List.replicate m i) (withCourse s port 0 picks) = .next (withCourse (stepsBelow f m s) port m picks) := by
  induction m with
  | zero => rfl
  | succ m ih =>
    rw [List.replicate_succ', runAll_append _ ih, runAll_cons [] (exec_withCourse hsteps _ port m picks), runAll_nil,
      stepsBelow_succ]

theorem deliver_eq (s : State) : deliver i s = .next (withCourse (stepsBelow f params.nch s) s.port 0 s.picks) := by
  have hrun := runAll_replicate hsteps s s.port s.picks params.nch
  unfold deliver
  rw [show { s with turn := 0 } = withCourse s s.port 0 s.picks from rfl, hrun]
  rfl

/-- With the command alone on the port, one machine step is its step on the channel it names, after which it stands
there with the next channel, or has left. -/
theorem step_of_alone {s : State} {b : Bytes} {m : Nat} (hport : s.port = [{ bytes := b, next := m }])
    (hdecode : decode params b = .ok i) (hper : perChannel i = true) :
    step s = .next (withCourse (f m s) (if m + 1 < params.nch then [{ bytes := b, next := m + 1 }] else []) 0
      (s.picks + 1)) := by
  have hexec : exec i { s with port := [], turn := m, picks := s.picks + 1 } =
      .next (withCourse (f m s) [] (m + 1) (s.picks + 1)) := exec_withCourse hsteps s [] m (s.picks + 1)
  rw [step_of_decoded (fetch_of_one hport) hdecode hexec]
  rcases settle_cases params 0 { bytes := b, next := m } i (withCourse (f m s) [] (m + 1) (s.picks + 1)) with
    ⟨-, -, hlt, hsettle⟩ | ⟨hlast, hsettle⟩
  · have hnext : m + 1 < params.nch := hlt
    rw [hsettle, if_pos hnext]
    rfl
  · have hge : ¬m + 1 < params.nch := by
      rcases hlast with h | h | h
      · rw [hper] at h; cases h
      · exact absurd h (Nat.succ_ne_zero m)
      · exact Nat.not_lt_of_le h
    rw [hsettle, if_neg hge]
    rfl

/-- After m + 1 machine steps, at most NCH, the command has taken its steps on channels 0 to m. -/
theorem run_of_alone {s : State} {b : Bytes} (hport : s.port = [{ bytes := b, next := 0 }])
    (hdecode : decode params b = .ok i) (hper : perChannel i = true) (m : Nat) (hm : m < params.nch) :
    Host.Core.run Sys2Proof.core (m + 1) s = .next (withCourse (stepsBelow f (m + 1) s)
      (if m + 1 < params.nch then [{ bytes := b, next := m + 1 }] else []) 0 (s.picks + (m + 1))) := by
  induction m with
  | zero => exact run_succ (m := 0) rfl (step_of_alone hsteps hport hdecode hper)
  | succ m ih =>
    refine run_succ (ih (by omega)) ((step_of_alone hsteps (m := m + 1) (b := b) ?_ hdecode hper).trans ?_)
    · exact if_pos hm
    · rw [hsteps.2, stepsBelow_succ f (m + 1)]
      rfl

end Steps

/-- Settles O10: each machine step is the command's step on the next channel; after the last one it has left, and the
block is as the command carried out at a stretch leaves it. -/
theorem inboundCommandFinishes : Obligations.InboundCommandFinishes := by
  intro s b i hport hdecode hin hlegal
  obtain ⟨hform, -⟩ := encodeOfDecode b i hdecode
  obtain ⟨f, hsteps⟩ := exists_stepsBy hin hform hlegal
  have hper : perChannel i = true := (inbound_iff_perChannel i).mp hin
  constructor
  · intro m hm
    cases m with
    | zero => exact ⟨s, rfl, hport⟩
    | succ m => exact ⟨_, run_of_alone hsteps hport hdecode hper m (by omega), if_pos hm⟩
  · refine ⟨_, deliver_eq hsteps _, ?_⟩
    have hnch : params.nch = params.nch - 1 + 1 := (Nat.succ_pred_eq_of_pos (Nat.succ_pos _)).symm
    have hrun := run_of_alone hsteps hport hdecode hper (params.nch - 1) (by omega)
    rw [← hnch, if_neg (lt_irrefl _)] at hrun
    rw [hrun, show { s with port := [] } = withCourse s [] s.turn s.picks from rfl, stepsBelow_withCourse hsteps]
    rfl

end Sys2Proof.Proofs
end

