-- ==== Sys2Proof/Proofs/Commands.lean ====
section
/-! PROOFS. The commands RESET, CHCFG, CPROC, TXENDP and TXENDD (40_config_and_ports.md R120, R123, 41_crypto.md R151,
44_sequencer.md R218, R219), and the pseudo-operations (30_encoding.md R113). -/

namespace Sys2Proof.Proofs

open Sys2Proof Sys2Proof.Machine Sys2Proof.Claims

/-! ## RESET (R120) and the pseudo-operations (R113) -/

/-- Settles O11: no slot is listed, and a slot that is not listed holds the values of the table. -/
theorem resetClearsBlock : Obligations.ResetClearsBlock :=
  ⟨fun s => ⟨resetOp s, rfl, fun _ => rfl, rfl, rfl, rfl, rfl, rfl, rfl, rfl, rfl, rfl⟩, fun _ => rfl⟩

/-- Settles O52: with nothing listed, loaded or presented there is nothing to check. -/
theorem resetHasInvariant : Obligations.ResetHasInvariant := rfl

/-- Settles O59: the pieces of a codeword group lie one behind the other. -/
theorem pseudoOperationsExpand : Obligations.PseudoOperationsExpand := fun _ _ => ⟨rfl, rfl, rfl, rfl⟩

/-! ## CHCFG (R123) -/

theorem exec_chcfg (ch sys : BitVec 16) (srcId dstId : BitVec 32) (slot algoId : BitVec 8) (keyId : BitVec 16)
    (s : State) : exec (.chcfg ch sys srcId dstId slot algoId keyId) s =
      .next (chcfg params ch sys srcId dstId slot algoId keyId s) := rfl

theorem slotLegal_eq_false {slot : BitVec 8} (h : slot ≠ 1 ∧ slot ≠ 2) : slotLegal slot = false := by
  rw [← Bool.not_eq_true, slotLegal_iff]
  exact not_or_intro h.1 h.2

theorem inCall_iff (x : Chan) : x.inCall = true ↔ x.cs.txStreamId ≠ 0 ∨ x.cs.isReceiving = true := by
  delta Chan.inCall
  simp only [Bool.or_eq_true, bne_iff_ne]

/-- The two legal timeslots keep their value in the two-bit register. -/
theorem slot_setWidth {slot : BitVec 8} (h : slot = 1 ∨ slot = 2) : slot.setWidth 2 = if slot = 1 then 1 else 2 := by
  rcases h with rfl | rfl <;> rfl

/-- Settles O14: the operand first, then the channel, then the call; behind the checks the registers are loaded. -/
theorem chcfgLoadsConfiguration : Obligations.ChcfgLoadsConfiguration := by
  intro s ch sys srcId dstId slot algoId keyId x i
  by_cases hslot : slot ≠ 1 ∧ slot ≠ 2
  · rw [if_pos hslot]
    exact congrArg _ (guarded_cons_fail _ _ _ _ _ _ (slotLegal_eq_false hslot))
  rw [if_neg hslot]
  have hlegal : slot = 1 ∨ slot = 2 := by
    by_cases h1 : slot = 1
    · exact .inl h1
    · exact .inr (not_not.mp fun h2 => hslot ⟨h1, h2⟩)
  have hpass : ∀ checks effect, guarded s ch 0x02 ((slotLegal slot, .badArg) :: checks) effect =
      guarded s ch 0x02 checks effect := fun _ _ => guarded_cons_pass _ _ _ _ _ _ ((slotLegal_iff slot).mpr hlegal)
  have hpassCh (h : ChannelOk s ch) : ∀ checks effect, guarded s ch 0x02
      ((slotLegal slot, .badArg) :: (chOk params s ch, .badCh) :: checks) effect = guarded s ch 0x02 checks effect :=
    fun _ _ => (hpass _ _).trans (guarded_cons_pass _ _ _ _ _ _ ((chOk_iff_ChannelOk s ch).mpr h))
  refine ⟨fun h => ?_, fun h hcall => ?_, fun h htx hrx => ?_⟩
  · exact congrArg _ ((hpass _ _).trans (guarded_cons_fail _ _ _ _ _ _ ((chOk_eq_false_iff s ch).mpr h)))
  · refine congrArg _ ((hpassCh h _ _).trans (guarded_cons_fail _ _ _ _ _ _ ?_))
    exact (Bool.not_eq_false' _).mpr ((inCall_iff x).mpr hcall)
  · have hidle : x.inCall = false := by
      rw [← Bool.not_eq_true, inCall_iff]
      simp [htx, hrx]
    refine congrArg _ ((hpassCh h _ _).trans ((guarded_cons_pass _ _ _ _ _ _ ((Bool.not_eq_true' _).mpr hidle)).trans ?_))
    rw [guarded_nil, slot_setWidth hlegal]
    exact setChan_eq_withSlot s _ h.2

/-! ## CPROC (R151) -/

theorem exec_cproc (ch : BitVec 16) (role : BitVec 8) (cw : Bytes) (s : State) :
    exec (.cproc ch role cw) s = .next (cproc params ch role cw s) := rfl

/-- What a codeword leaves on channel c: the engine's move, and the answer on RSP. -/
def cprocEnds (s : State) (c : Nat) (role : Role) (cw : Bytes) : Work :=
  { advanced (applied (s.chan params c).eng role s.draws cw) (s.work params c) with
    rsp := [{ ch := chId c, op := 0x11, bytes := (applied (s.chan params c).eng role s.draws cw).out }] }

theorem cprocWork_eq (s : State) (c : Nat) (role : BitVec 8) (cw : Bytes) :
    cprocWork params c role cw (s.work params c) = cprocEnds s c (roleOf role) cw := by
  delta cprocWork
  rw [process_eq_advanced]
  rfl

/-- The role operand is tested as a number. -/
theorem role_le_one_iff (role : BitVec 8) : role.toNat ≤ 1 ↔ role = 0 ∨ role = 1 := by
  bv_omega

theorem cproc_of_ChannelOk {s : State} {ch : BitVec 16} {role : BitVec 8} {cw : Bytes} (hlen : cw.length = params.imbeLen)
    (hrole : role = 0 ∨ role = 1) (h : ChannelOk s ch) :
    cproc params ch role cw s = stepEnds s ch.toNat (cprocEnds s ch.toNat (roleOf role) cw) :=
  calc cproc params ch role cw s
      = guarded s ch 0x11 [(decide (role.toNat ≤ 1), .badArg), (chOk params s ch, .badCh)] _ :=
        guarded_cons_pass _ _ _ _ _ _ (decide_eq_true hlen)
    _ = guarded s ch 0x11 [(chOk params s ch, .badCh)] _ :=
        guarded_cons_pass _ _ _ _ _ _ (decide_eq_true ((role_le_one_iff role).mpr hrole))
    _ = s.commit params ch.toNat (cprocWork params ch.toNat role cw (s.work params ch.toNat)) :=
        guarded_cons_pass _ _ _ _ _ _ ((chOk_iff_ChannelOk s ch).mpr h)
    _ = stepEnds s ch.toNat (cprocEnds s ch.toNat (roleOf role) cw) := by
        rw [cprocWork_eq]
        exact commit_eq_stepEnds s _ h.2

/-- Settles O17: the role first, then the channel; behind the checks the codeword goes through the engine. -/
theorem cprocAppliesKeystream : Obligations.CprocAppliesKeystream := by
  intro s ch role cw hlen x p
  have hpass : ∀ checks effect, guarded s ch 0x11 ((decide (cw.length = params.imbeLen), .badLen) :: checks) effect =
      guarded s ch 0x11 checks effect := fun _ _ => guarded_cons_pass _ _ _ _ _ _ (decide_eq_true hlen)
  by_cases hrole : role ≠ 0 ∧ role ≠ 1
  · rw [if_pos hrole]
    refine congrArg _ ((hpass _ _).trans (guarded_cons_fail _ _ _ _ _ _ (decide_eq_false ?_)))
    rw [role_le_one_iff]
    exact not_or_intro hrole.1 hrole.2
  · rw [if_neg hrole]
    have hlegal : role = 0 ∨ role = 1 := by
      by_cases h0 : role = 0
      · exact .inl h0
      · exact .inr (not_not.mp fun h1 => hrole ⟨h0, h1⟩)
    refine ⟨fun h => ?_, fun h => ?_⟩
    · exact congrArg _ ((hpass _ _).trans ((guarded_cons_pass _ _ _ _ _ _
        (decide_eq_true ((role_le_one_iff role).mpr hlegal))).trans
          (guarded_cons_fail _ _ _ _ _ _ ((chOk_eq_false_iff s ch).mpr h))))
    · rw [exec_cproc, cproc_of_ChannelOk hlen hlegal h]
      delta cprocEnds
      rw [chId_toNat]
      rfl

/-! ## TXENDP and TXENDD (R218, R219) -/

theorem exec_txendp (ch : BitVec 16) (cause : BitVec 8) (s : State) :
    exec (.txendp ch cause) s = .next (txendp params ch cause s) := rfl

theorem exec_txendd (ch : BitVec 16) (cause : BitVec 8) (s : State) :
    exec (.txendd ch cause) s = .next (txendd params ch cause s) := rfl

/-- A command with a cause operand tests it before its channel. -/
theorem guarded_of_illegal_cause (s : State) (ch : BitVec 16) (op : BitVec 8) {cause : BitVec 8}
    (checks : List (Bool × RefuseCode)) (effect : State) (h : cause ≠ 0 ∧ cause ≠ 1) :
    guarded s ch op ((decide (cause.toNat ≤ 1), .badArg) :: checks) effect = refusedAs s .badArg ch op := by
  refine guarded_cons_fail _ _ _ _ _ _ (decide_eq_false ?_)
  rw [role_le_one_iff]
  exact not_or_intro h.1 h.2

/-- Behind a legal cause the checks are those of a call, and the effect is the step's work. -/
theorem guarded_of_legal_cause (s : State) (ch : BitVec 16) (op : BitVec 8) {cause : BitVec 8} {w : Work}
    (hw : w.ch.valid = (s.chan params ch.toNat).valid) (h : ¬(cause ≠ 0 ∧ cause ≠ 1)) :
    let t := guarded s ch op [(decide (cause.toNat ≤ 1), .badArg), (chOk params s ch, .badCh),
      (cfgOk params s ch, .noCfg), (callOpen params s ch, .noCall)] (s.commit params ch.toNat w)
    (¬ChannelOk s ch → t = refusedAs s .badCh ch op) ∧
    (ChannelOk s ch → (s.chan params ch.toNat).cfg.set = false → t = refusedAs s .noCfg ch op) ∧
    (Configured s ch → (s.chan params ch.toNat).cs.txStreamId = 0 → t = refusedAs s .noCall ch op) ∧
    (InCall s ch → t = stepEnds s ch.toNat w) := by
  intro t
  have hlegal : cause.toNat ≤ 1 := by
    rw [role_le_one_iff]
    by_contra hnot
    exact h (not_or.mp hnot)
  have hpass : t = _ := guarded_cons_pass _ _ _ _ _ _ (decide_eq_true hlegal)
  obtain ⟨hbadCh, hnoCfg, hnoCall, heffect⟩ := guarded_callChecks s ch op (s.commit params ch.toNat w)
  rw [hpass]
  refine ⟨hbadCh, hnoCfg, hnoCall, fun hcall => (heffect hcall).trans ?_⟩
  obtain ⟨⟨⟨-, hvalid⟩, -⟩, -⟩ := hcall
  exact commit_eq_stepEnds s _ (hw.trans hvalid)

/-- Settles O21: behind its checks TXENDP puts out its record and resets the call's registers. -/
theorem txendpEndsCall : Obligations.TxendpEndsCall := by
  intro s ch cause x i
  have hwork : (txendpWork params ch.toNat (s.work params ch.toNat)).ch.valid = x.valid := rfl
  by_cases hcause : cause ≠ 0 ∧ cause ≠ 1
  · rw [if_pos hcause]
    exact congrArg _ (guarded_of_illegal_cause s ch 0x23 _ _ hcause)
  · rw [if_neg hcause]
    obtain ⟨hbadCh, hnoCfg, hnoCall, heffect⟩ := guarded_of_legal_cause s ch 0x23 hwork hcause
    exact ⟨fun h => congrArg _ (hbadCh h), fun h hset => congrArg _ (hnoCfg h hset),
      fun h hidle => congrArg _ (hnoCall h hidle), fun h => congrArg _ (heffect h)⟩

/-- Settles O22: behind its checks TXENDD puts out its record and resets the call's registers. -/
theorem txenddEndsCall : Obligations.TxenddEndsCall := by
  intro s ch cause x i
  have hwork : (txenddWork params ch.toNat (s.work params ch.toNat)).ch.valid = x.valid := rfl
  by_cases hcause : cause ≠ 0 ∧ cause ≠ 1
  · rw [if_pos hcause]
    exact congrArg _ (guarded_of_illegal_cause s ch 0x24 _ _ hcause)
  · rw [if_neg hcause]
    obtain ⟨hbadCh, hnoCfg, hnoCall, heffect⟩ := guarded_of_legal_cause s ch 0x24 hwork hcause
    exact ⟨fun h => congrArg _ (hbadCh h), fun h hset => congrArg _ (hnoCfg h hset),
      fun h hidle => congrArg _ (hnoCall h hidle), fun h => congrArg _ (heffect h)⟩

end Sys2Proof.Proofs
end

