-- ==== Sys2Proof/Proofs/Tracker.lean ====
section
/-! PROOFS. The call tracker (45_call_tracker.md R233 to R237, R240): what part 4 and part 6 of an inbound step leave, and
the time-out. -/

namespace Sys2Proof.Proofs

open Sys2Proof Sys2Proof.Machine Sys2Proof.Claims

/-! ## SlotStatus records -/

theorem Chan.setStatus_status_self (x : Chan) (r : SlotRef) : x.setStatus r (x.status r) = x := by cases r <;> rfl

theorem Chan.callRef_setStatus (x : Chan) (r : SlotRef) (v : SlotStatus) :
    (x.setStatus r v).callRef = x.callRef := by
  cases r <;> rfl

/-- That a record is referenced does not show in any start time. -/
theorem startTime_created (x : Chan) (r q : SlotRef) :
    ((x.setStatus r { x.status r with created := true }).status q).startTime = (x.status q).startTime := by
  cases r <;> cases q <;> rfl

/-- The SlotStatus of the call in progress is the one that `callRef` names. -/
theorem status_callRef (x : Chan) : x.status x.callRef = callStatus x := by
  delta Chan.callRef callStatus
  cases x.cs.rxProto with
  | p25 => rfl
  | dmr =>
    by_cases hslot : x.cfg.slot = 2
    · rw [if_neg (by decide), if_pos hslot, hslot]
      rfl
    · have hnat : x.cfg.slot.toNat ≠ 2 := fun h => hslot (BitVec.eq_of_toNat_eq h)
      rw [if_neg (by decide), if_neg hslot]
      exact congrArg x.status (if_neg hnat)

/-- The record that a legal timeslot names. -/
theorem dmrRef_eq_dmrSlot (slot : BitVec 8) : dmrRef slot.toNat = dmrSlot slot := by
  by_cases hslot : slot = 2
  · rw [hslot]
    rfl
  · have hnat : slot.toNat ≠ 2 := fun h => hslot (BitVec.eq_of_toNat_eq h)
    exact (if_neg hnat).trans (if_neg hslot).symm

theorem proto_dmrSlot (slot : BitVec 8) : (dmrSlot slot).proto = .dmr := by
  delta dmrSlot
  split <;> rfl

/-! ## The start of a call (R234) -/

/-- The default parameters of a call start, in the words of the statements. -/
theorem defaultParams_eq (cs : ChannelState) :
    defaultParams params cs =
      (if cs.algId = 0 then params.algUnencrypted else cs.algId, if cs.algId = 0 then 0 else cs.keyId) := by
  delta defaultParams
  by_cases h : cs.algId = 0
  · rw [if_pos h, if_pos h, if_pos h]
  · rw [if_neg h, if_neg h, if_neg h]

/-- What a call start, and the time of its frame, leave on a channel whose SlotStatus has been referenced. -/
theorem callStart_eq_started (s : State) (c : Nat) (ev : RxEvent) (r : SlotRef) :
    let x := s.chan params c
    let v := callStart params s.keys c ev r
      ((s.work params c).setStatus r { x.status r with created := true })
    v.setCs { v.ch.cs with lastPacketTime := ev.now } =
      quiet s (started s c x ev r r.proto).ch (started s c x ev r r.proto).evt := by
  delta callStart started
  simp only [defaultParams_eq, prep_eq_seeded]
  cases r <;> rfl

/-! ## Part 4 (R233, R237) -/

theorem tracked_of_known {s : State} {c : Nat} {x : Chan} {ev : RxEvent} {r : SlotRef} {proto : Proto}
    (h : ev.streamId = (x.status r).streamId) :
    tracked s c x ev r proto =
      { ch := { x with cs := { x.cs with lastPacketTime := ev.now } }.setStatus r { x.status r with created := true }
        evt := [] } :=
  if_pos h

theorem tracked_of_new {s : State} {c : Nat} {x : Chan} {ev : RxEvent} {r : SlotRef} {proto : Proto}
    (h : ev.streamId ≠ (x.status r).streamId) : tracked s c x ev r proto = started s c x ev r proto :=
  if_neg h

/-- Part 4 keeps the slot and its configuration. -/
theorem tracked_valid (s : State) (c : Nat) (x : Chan) (ev : RxEvent) (r : SlotRef) (proto : Proto) :
    (tracked s c x ev r proto).ch.valid = x.valid ∧ (tracked s c x ev r proto).ch.cfg = x.cfg := by
  by_cases h : ev.streamId = (x.status r).streamId
  · rw [tracked_of_known h]
    exact ⟨Chan.setStatus_valid .., Chan.setStatus_cfg ..⟩
  · rw [tracked_of_new h]
    exact ⟨Chan.setStatus_valid .., Chan.setStatus_cfg ..⟩

/-- Part 4 for a frame that is no terminator. -/
theorem track_eq_tracked (s : State) (c : Nat) (ev : RxEvent) (r : SlotRef) {kind : FrameType}
    (hkind : kind.isTerm = false) :
    let k := tracked s c (s.chan params c) ev r r.proto
    track params s.keys c ev r kind (s.work params c) = quiet s k.ch k.evt := by
  intro k
  rw [track_voice params s.keys c ev r kind (s.work params c) hkind]
  by_cases h : ev.streamId = ((s.chan params c).status r).streamId
  · have hsame : (ev.streamId != (((s.work params c).ch).status r).streamId) = false := bne_eq_false_iff_eq.mpr h
    simp only [hsame, Bool.false_eq_true, if_false]
    rw [show k = _ from tracked_of_known h]
    cases r <;> rfl
  · have hnew : (ev.streamId != (((s.work params c).ch).status r).streamId) = true := bne_iff_ne.mpr h
    simp only [hnew, if_true]
    rw [show k = _ from tracked_of_new h]
    exact callStart_eq_started s c ev r

/-- What a terminator makes of the call in progress: it ends, if the last recorded class is no terminator. -/
def stopped (c : Nat) (x : Chan) (ev : RxEvent) (r : SlotRef) : Tracked :=
  if x.cs.isReceiving = true ∧ (x.status r).frameType.isTerm = false
    then ended c x (callStatus x) ev.now .terminated else { ch := x, evt := [] }

theorem stopped_valid (c : Nat) (x : Chan) (ev : RxEvent) (r : SlotRef) : (stopped c x ev r).ch.valid = x.valid := by
  delta stopped
  split <;> rfl

theorem callEnd_eq_ended (c : Nat) (now : BitVec 64) (cause : EndCause) (w : Work) :
    callEnd c now cause w =
      { w with
        ch := (ended c w.ch (callStatus w.ch) now cause).ch
        evt := w.evt ++ (ended c w.ch (callStatus w.ch) now cause).evt } := by
  delta callEnd ended
  rw [status_callRef]
  rfl

/-- The end of a call is the same whether or not the frame's SlotStatus has been referenced. -/
theorem ended_created (c : Nat) (x : Chan) (r : SlotRef) (now : BitVec 64) (cause : EndCause) :
    ended c (x.setStatus r { x.status r with created := true })
        (callStatus (x.setStatus r { x.status r with created := true })) now cause =
      { ch := (ended c x (callStatus x) now cause).ch.setStatus r { x.status r with created := true }
        evt := (ended c x (callStatus x) now cause).evt } := by
  delta ended
  rw [← status_callRef, ← status_callRef, Chan.callRef_setStatus, startTime_created]
  cases r <;> rfl

/-- Part 4 for a terminator. -/
theorem track_eq_stopped (s : State) (c : Nat) (ev : RxEvent) (r : SlotRef) {kind : FrameType}
    (hkind : kind.isTerm = true) :
    let x := s.chan params c
    let k := stopped c x ev r
    track params s.keys c ev r kind (s.work params c) =
      quiet s ({ k.ch with cs := { k.ch.cs with lastPacketTime := ev.now } }.setStatus r
        { x.status r with created := true }) k.evt := by
  intro x k
  rw [track_term params s.keys c ev r kind (s.work params c) hkind]
  by_cases h : x.cs.isReceiving = true ∧ (x.status r).frameType.isTerm = false
  · obtain ⟨hrx, hterm⟩ := h
    have hends : ((s.work params c).ch.cs.isReceiving && !((s.work params c).ch.status r).frameType.isTerm) = true :=
      Bool.and_eq_true_iff.mpr ⟨hrx, (Bool.not_eq_true' _).mpr hterm⟩
    have hk : k = ended c x (callStatus x) ev.now .terminated := if_pos ⟨hrx, hterm⟩
    simp only [hends, if_true]
    rw [callEnd_eq_ended, hk]
    simp only [Work.setStatus, State.work_ch, ended_created]
    cases r <;> rfl
  · have hgoes : ((s.work params c).ch.cs.isReceiving && !((s.work params c).ch.status r).frameType.isTerm) = false := by
      rw [← Bool.not_eq_true, Bool.and_eq_true, Bool.not_eq_true']
      exact h
    have hk : k = { ch := x, evt := [] } := if_neg h
    simp only [hgoes, Bool.false_eq_true, if_false]
    rw [hk]
    cases r <;> rfl

/-! ## The step of an accepted frame -/

/-- Part 6 writes the last-observed attributes. -/
theorem observe_eq_observed (ev : RxEvent) (r : SlotRef) (kind : FrameType) (w : Work) :
    observe ev r kind w = { w with ch := observed w.ch ev r kind } := rfl

theorem observed_valid (x : Chan) (ev : RxEvent) (r : SlotRef) (kind : FrameType) :
    (observed x ev r kind).valid = x.valid := Chan.setStatus_valid ..

/-- An RXP25 frame that the channel accepts ends its step with the work of parts 4 to 6. -/
theorem exec_rxp25_of_accepted {s : State} {c : Nat} {x : Chan} {cls : P25Class} {ev : RxEvent} {w : Work}
    (kind : BitVec 8) (h : AcceptedP25 s c x ev) (hform : p25Accepts params cls ev.data = true)
    (hwork : p25Accepted params s.keys cls ev c (s.work params c) = w) (hvalid : w.ch.valid = true) :
    exec (rxp25 cls kind ev) s = .next (nextTurn s (stepEnds s c w)) := by
  obtain ⟨hfits, rfl, rfl, hreach, hfilter⟩ := h
  rw [exec_rxp25, rxP25_of_fits cls s hfits, rxP25Step_of_accepted hreach hform hfilter, hwork,
    commit_eq_stepEnds s _ hvalid]

/-- An RXDMR frame that the channel accepts ends its step with the work of parts 4 to 6. -/
theorem exec_rxdmr_of_accepted {s : State} {c : Nat} {x : Chan} {cls : DmrClass} {slot : BitVec 8} {ev : RxEvent}
    {w : Work} (kind : BitVec 8) (h : AcceptedDmr s c x slot ev) (hform : dmrValid params cls ev.data = true)
    (hwork : dmrAccepted params s.keys cls slot ev c (s.work params c) = w) (hvalid : w.ch.valid = true) :
    exec (rxdmr cls kind slot ev) s = .next (nextTurn s (stepEnds s c w)) := by
  obtain ⟨hfits, hlegal, rfl, rfl, hreach, hfilter⟩ := h
  rw [exec_rxdmr, rxDmr_of_fits cls s hfits hlegal, rxDmrStep_of_accepted hreach hform hfilter, hwork,
    commit_eq_stepEnds s _ hvalid]

/-- Parts 4 to 6 of a DMR step on the SlotStatus that the statements name. -/
theorem dmrAccepted_eq (keys : List (Nat × Bytes)) (cls : DmrClass) (slot : BitVec 8) (ev : RxEvent) (c : Nat)
    (w : Work) :
    dmrAccepted params keys cls slot ev c w =
      observe ev (dmrSlot slot) (.dmr cls) (dmrPayloadPart params c (dmrSlot slot) cls ev
        (track params keys c ev (dmrSlot slot) (.dmr cls) w)) := by
  rw [← dmrRef_eq_dmrSlot]
  rfl

/-! ## Frames without voice -/

/-- A P25 frame of another class has no part 5, receiving or not. -/
theorem p25PayloadPart_other (c : Nat) (keys : List (Nat × Bytes)) (ev : RxEvent) (w : Work) :
    p25PayloadPart params keys c .other ev w = w := ite_self _

theorem p25PayloadPart_term (c : Nat) (keys : List (Nat × Bytes)) (ev : RxEvent) (w : Work) :
    p25PayloadPart params keys c .term ev w = w := ite_self _

/-- Settles O41: parts 4 and 6 alone. -/
theorem p25OtherFrameTracks : Obligations.P25OtherFrameTracks := by
  intro s c x kind ev h k
  have hx : s.chan params c = x := h.held
  refine exec_rxp25_of_accepted (cls := .other) kind h rfl ?_ ?_
  · delta p25Accepted
    rw [track_eq_tracked s c ev .p25 rfl, p25PayloadPart_other, hx]
    rfl
  · exact (observed_valid ..).trans ((tracked_valid ..).1.trans h.reach.1)

/-- Settles O46: parts 4 and 6 alone. -/
theorem dmrOtherFrameTracks : Obligations.DmrOtherFrameTracks := by
  intro s c x kind slot ev h r k
  have hx : s.chan params c = x := h.held
  refine exec_rxdmr_of_accepted (cls := .other) kind h rfl ?_ ?_
  · rw [dmrAccepted_eq, track_eq_tracked s c ev _ rfl, proto_dmrSlot, hx]
    rfl
  · exact (observed_valid ..).trans ((tracked_valid ..).1.trans h.reach.1.1)

/-- Settles O40: part 4 ends the call, and part 6 records the terminator, so that the next one ends none. -/
theorem p25TerminatorEndsCall : Obligations.P25TerminatorEndsCall := by
  intro s c x ev h k
  have hx : s.chan params c = x := h.held
  refine exec_rxp25_of_accepted (cls := .term) 0 h rfl ?_ ?_
  · delta p25Accepted
    rw [track_eq_stopped s c ev .p25 rfl, p25PayloadPart_term, hx]
    rfl
  · exact (stopped_valid c x ev .p25).trans h.reach.1

/-- Settles O45: part 4 ends the call, and part 6 records the terminator in the timeslot's SlotStatus. -/
theorem dmrTerminatorEndsCall : Obligations.DmrTerminatorEndsCall := by
  intro s c x slot ev h r k
  have hx : s.chan params c = x := h.held
  refine exec_rxdmr_of_accepted (cls := .term) 0 h rfl ?_ ?_
  · rw [dmrAccepted_eq, track_eq_stopped s c ev _ rfl, hx]
    change observe ev r _ (quiet s ({ k.ch with cs := { k.ch.cs with lastPacketTime := ev.now } }.setStatus r
        { x.status r with created := true }) k.evt) = _
    rw [observe_eq_observed]
    delta observed
    simp only [quiet, Chan.status_setStatus_same, Chan.setStatus_setStatus]
  · exact (Chan.setStatus_valid ..).trans ((stopped_valid c x ev r).trans h.reach.1.1)

/-! ## The time-out (R240) -/

/-- A frame is older than the limit exactly if its time and 2000 ms lie before now. -/
theorem timedOut_iff (now last : BitVec 64) : timedOut now last = true ↔ last.toNat + 2000 < now.toNat := by
  delta timedOut elapsed rxTimeoutMs
  rw [decide_eq_true_iff]
  by_cases h : last ≤ now
  · rw [if_pos h, BitVec.toNat_sub_of_le h]
    exact Nat.lt_sub_iff_add_lt'
  · rw [if_neg h]
    have hlt : now.toNat < last.toNat := Nat.lt_of_not_le h
    exact iff_of_false (Nat.not_lt_zero _) (by omega)

/-- The channel is monitored and receiving, and its last frame too old. -/
def Due (x : Chan) (now : BitVec 64) : Prop :=
  x.valid = true ∧ x.cfg.set = true ∧ x.cs.isReceiving = true ∧ x.cs.lastPacketTime.toNat + 2000 < now.toNat

theorem due_iff (x : Chan) (now : BitVec 64) :
    (x.monitored && x.cs.isReceiving && timedOut now x.cs.lastPacketTime) = true ↔ Due x now := by
  rw [Bool.and_eq_true, timedOut_iff]
  delta Chan.monitored Due
  simp only [Bool.and_eq_true, and_assoc]

theorem tickStep_of_not_due {s : State} {c : Nat} {now : BitVec 64} (h : ¬Due (s.chan params c) now) :
    tickStep params now c s = s := if_neg (mt (due_iff _ _).mp h)

theorem tickStep_of_due {s : State} {c : Nat} {now : BitVec 64} (h : Due (s.chan params c) now) :
    let k := ended c (s.chan params c) (callStatus (s.chan params c)) now .timedOut
    tickStep params now c s = stepEnds s c (quiet s k.ch k.evt) := by
  intro k
  have hstep : tickStep params now c s = s.commit params c (callEnd c now .timedOut (s.work params c)) :=
    if_pos ((due_iff _ _).mpr h)
  rw [hstep, callEnd_eq_ended]
  exact commit_eq_stepEnds s c h.1

/-- Settles O49: the step is its one test and the end of a call. -/
theorem tickEndsStaleCall : Obligations.TickEndsStaleCall := by
  intro s now c x due
  refine ⟨fun h => ?_, fun h => ?_⟩
  · rw [exec_tick, tickStep_of_due h]
  · rw [exec_tick, tickStep_of_not_due h]

/-- The slot of the step's channel after the step. -/
@[simp] theorem chan_stepEnds_same (s : State) (c : Nat) (w : Work) : (stepEnds s c w).chan params c = w.ch := by
  delta stepEnds withSlot State.chan
  simp only [mapGet_mapPut, if_true, Option.getD_some]

/-- Settles O50: the channel is no longer receiving, so no later TICK finds it due. -/
theorem timeoutReportedOnce : Obligations.TimeoutReportedOnce := by
  intro s now later c x hvalid hset hrx hold
  have hdue : Due (s.chan params c) now := ⟨hvalid, hset, hrx, hold⟩
  refine ⟨_, by rw [exec_tick, tickStep_of_due hdue], List.length_append, ?_, ?_⟩
  · rw [nextTurn_chan, chan_stepEnds_same]
    rfl
  · rw [exec_tick, tickStep_of_not_due]
    · rfl
    · rintro ⟨-, -, hreceiving, -⟩
      exact Bool.false_ne_true ((congrArg (·.cs.isReceiving) (chan_stepEnds_same s c _)).symm.trans hreceiving)

end Sys2Proof.Proofs
end

