-- ==== Sys2Proof/Proofs/Decoding.lean ====
section
/-! PROOFS. What an accepted frame with a payload leaves (42_p25_framer.md R172 to R177, 43_dmr_framer.md R203 to
R205): the decode pass of an LDU, the two kinds of LDU, and the three DMR payloads. -/

namespace Sys2Proof.Proofs

open Sys2Proof Sys2Proof.Machine Sys2Proof.Claims

/-! ## The decode pass (R172) -/

/-- A step's work after a decode pass whose codewords went to the vocoder. -/
def passed (c : Nat) (p : Pass) (w : Work) : Work :=
  { w with ch := { w.ch with eng := p.eng }, draws := p.draws, voc := w.voc ++ vocOf c w.ch .p25 p.out }

theorem passOf_nil (c : Nat) (enc : Bool) (role : Role) (e : Engine) (draws total : Nat) :
    passOf c enc role [] e draws total = { out := [], eng := e, draws := draws, total := total } := rfl

theorem passOf_cons (c : Nat) (enc : Bool) (role : Role) (cw : Bytes) (cws : List Bytes) (e : Engine)
    (draws total : Nat) :
    passOf c enc role (cw :: cws) e draws total =
      (let p : Applied := if enc then applied e role draws cw else { out := cw, eng := e, draws := draws }
       let rest := passOf c enc role cws p.eng (p.draws + 1) (total + params.vocErrs p.draws c p.out)
       { rest with out := p.out :: rest.out }) := rfl

/-- A pass hands out as many codewords as it takes. -/
theorem passOf_out_length (c : Nat) (enc : Bool) (role : Role) (cws : List Bytes) (e : Engine) (draws total : Nat) :
    (passOf c enc role cws e draws total).out.length = cws.length := by
  induction cws generalizing e draws total with
  | nil => rfl
  | cons cw cws ih =>
    rw [passOf_cons]
    exact congrArg (· + 1) (ih ..)

/-- One codeword of the model's pass, in the words of the statements. -/
theorem decodeOne_eq (c : Nat) (role : Role) (enc : Bool) (buf : Bytes) (total : Nat) (w : Work) (k : Nat) :
    decodeOne params c role enc buf (total, w) k =
      (let cw := codewordAt params buf k
       let p : Applied :=
         if enc then applied w.ch.eng role w.draws cw else { out := cw, eng := w.ch.eng, draws := w.draws }
       (total + params.vocErrs p.draws c p.out, ((advanced p w).emitVoc c .p25 p.out).draw)) := by
  delta decodeOne
  simp only [process_eq_advanced]
  cases enc <;> rfl

/-- The codewords that are left of the model's pass make the pass of the statements. -/
theorem foldl_decodeOne (c : Nat) (role : Role) (enc : Bool) (buf : Bytes) (ks : List Nat) (total : Nat) (w : Work) :
    ks.foldl (decodeOne params c role enc buf) (total, w) =
      (let p := passOf c enc role (ks.map (codewordAt params buf)) w.ch.eng w.draws total
       (p.total, passed c p w)) := by
  induction ks generalizing total w with
  | nil =>
    have hvoc : w.voc ++ vocOf c w.ch .p25 [] = w.voc := List.append_nil w.voc
    rw [List.map_nil, passOf_nil]
    simp only [List.foldl_nil, passed, hvoc]
  | cons k ks ih =>
    rw [List.foldl_cons, decodeOne_eq, ih, List.map_cons, passOf_cons]
    simp only [passed, Work.draw_voc, Work.emitVoc_voc, List.append_assoc]
    rfl

/-- The model's decode pass, in the words of the statements. -/
theorem decodePass_eq (c : Nat) (buf : Bytes) (role : Role) (w : Work) :
    decodePass params c buf role w =
      (let p := passOf c (!clear w.ch.cs.algId w.ch.cs.keyId) role (codewordsOf buf) w.ch.eng w.draws 0
       passed c p (w.setCs { w.ch.cs with p25Errs := BitVec.ofNat 32 (min p.total 4294967295) })) := by
  have hcws : (List.range lduCw).map (codewordAt params buf) = codewordsOf buf := rfl
  delta decodePass
  simp only [foldl_decodeOne, hcws]
  rfl

/-! ## LDU1 and LDU2 (R173, R175 to R177) -/

/-- The step's work after a pass over the buffer `buf` on channel c with slot y, after the records evt. -/
def passEnds (s : State) (c : Nat) (y : Chan) (evt : List EvtRec) (role : Role) (buf : Bytes) : Work :=
  let pass := passOf c (!clear y.cs.algId y.cs.keyId) role (codewordsOf buf) y.eng s.draws 0
  { ch := { y with eng := pass.eng, cs := { y.cs with p25Errs := BitVec.ofNat 32 (min pass.total 4294967295) } }
    draws := pass.draws
    net := []
    voc := vocOf c y .p25 pass.out
    evt := evt
    rsp := [] }

theorem decodePass_quiet (s : State) (c : Nat) (y : Chan) (evt : List EvtRec) (role : Role) (buf : Bytes) :
    decodePass params c buf role (quiet s y evt) = passEnds s c y evt role buf := by
  rw [decodePass_eq]
  rfl

section Ldu

variable (s : State) (c : Nat) (y : Chan) (evt : List EvtRec) (ev : RxEvent)

/-- The payload of an LDU as an LDU buffer. -/
theorem p25Unpack_p25Payload : p25Unpack params (p25Payload params ev.data) =
    p25Unpack params (readAt ev.data params.p25PayloadOff params.p25PayloadLen) := rfl

/-- The channel after the header's parameters are taken and the engine is seeded with them, and the seed's records. -/
def hduTaken (s : State) (c : Nat) (y : Chan) (data : Bytes) : Tracked :=
  let alg := hduAlg params data
  let kid := hduKid params data
  let mi := hduMi params data
  let seed := seedOf s c alg kid mi y.eng y.cs.noKey
  { ch := { y with eng := seed.eng, cs := { y.cs with algId := alg, keyId := kid, mi := mi, noKey := seed.noKey } }
    evt := seed.evt }

theorem takeHdu_quiet (data : Bytes) :
    takeHdu params s.keys c data (quiet s y evt) =
      quiet s (hduTaken s c y data).ch (evt ++ (hduTaken s c y data).evt) :=
  prep_eq_seeded s c _ _ _ _

/-- An LDU1 with header data takes the header's parameters and seeds the engine before its pass. -/
theorem rxLdu1_of_hdu (h : hasHdu params ev.data = true) :
    let image := p25Unpack params (p25Payload params ev.data)
    let k := hduTaken s c { y with cs := { y.cs with netLdu1 := image } } ev.data
    rxLdu1 params s.keys c ev (quiet s y evt) = passEnds s c k.ch (evt ++ k.evt) .ldu1 image := by
  intro image k
  have htake := takeHdu_quiet s c { y with cs := { y.cs with netLdu1 := image } } evt ev.data
  delta rxLdu1
  rw [h]
  change decodePass params c
    (takeHdu params s.keys c ev.data (quiet s { y with cs := { y.cs with netLdu1 := image } } evt)).ch.cs.netLdu1 _
    (takeHdu params s.keys c ev.data (quiet s { y with cs := { y.cs with netLdu1 := image } } evt)) = _
  rw [htake, decodePass_quiet]
  rfl

/-- One without keeps the channel's parameters and its engine. -/
theorem rxLdu1_of_plain (h : hasHdu params ev.data = false) :
    let image := p25Unpack params (p25Payload params ev.data)
    rxLdu1 params s.keys c ev (quiet s y evt) =
      passEnds s c { y with cs := { y.cs with netLdu1 := image } } evt .ldu1 image := by
  intro image
  delta rxLdu1
  rw [h]
  exact decodePass_quiet s c { y with cs := { y.cs with netLdu1 := image } } evt .ldu1 image

/-- The payload of an LDU1, in the words of the statements. -/
theorem rxLdu1_eq_ldu1Ends :
    observe ev .p25 (.p25 .ldu1) (rxLdu1 params s.keys c ev (quiet s y evt)) = ldu1Ends s c y evt ev := by
  delta ldu1Ends
  rw [← p25Unpack_p25Payload]
  cases h : hasHdu params ev.data with
  | true =>
    rw [rxLdu1_of_hdu s c y evt ev h]
    generalize p25Unpack params (p25Payload params ev.data) = image
    rfl
  | false =>
    rw [rxLdu1_of_plain s c y evt ev h]
    generalize p25Unpack params (p25Payload params ev.data) = image
    simp only [Bool.false_eq_true, if_false, unseeded_evt, List.append_nil]
    rfl

/-- The MI of an LDU2: the one received, or the channel's own cycled, by the errors of the pass before. -/
theorem chooseMi_eq (cs : ChannelState) (newMi : Bytes) :
    chooseMi params cs newMi = if cs.p25Errs = 0 then newMi else params.miCycle cs.mi := by
  delta chooseMi
  by_cases h : cs.p25Errs = 0
  · rw [if_neg (by simp [h]), if_pos h]
  · rw [if_pos (bne_iff_ne.mpr h), if_neg h]

/-- The three fragments of the received MI, put together. -/
theorem essMi_eq (image : Bytes) :
    essMi params image = [0, 1, 2].flatMap fun j =>
      readAt image (params.recBufOff.getD (params.essMiRec.getD j 0) 0 + params.essFieldOff) 3 := by
  simp only [List.flatMap_cons, List.flatMap_nil, List.append_nil]
  rfl

/-- The channel after an LDU2's parameters are taken and before its pass. -/
def ldu2Taken (y : Chan) (image : Bytes) : Chan :=
  { y with cs := { y.cs with
    netLdu2 := image
    algId := essAlg params image
    keyId := essKid params image
    mi := chooseMi params y.cs (essMi params image) } }

/-- The MI that is chosen, in the words of the statements. -/
theorem ldu2Taken_mi (y : Chan) (image : Bytes) :
    (ldu2Taken y image).cs.mi =
      if y.cs.p25Errs = 0 then [0, 1, 2].flatMap fun j =>
        readAt image (params.recBufOff.getD (params.essMiRec.getD j 0) 0 + params.essFieldOff) 3
      else params.miCycle y.cs.mi :=
  (chooseMi_eq y.cs _).trans (by rw [essMi_eq])

/-- An LDU2 takes its parameters, decodes with the engine as it was, and seeds it anew. -/
theorem rxLdu2_quiet {image : Bytes} (himage : p25Unpack params (p25Payload params ev.data) = image) :
    rxLdu2 params s.keys c ev (quiet s y evt) =
      (let v := passEnds s c (ldu2Taken y image) evt .ldu2 image
       prep params s.keys c v.ch.cs.algId v.ch.cs.keyId v.ch.cs.mi v) := by
  delta rxLdu2
  rw [himage]
  exact congrArg (fun v : Work => prep params s.keys c v.ch.cs.algId v.ch.cs.keyId v.ch.cs.mi v)
    (decodePass_quiet s c (ldu2Taken y image) evt .ldu2 image)

/-- The payload of an LDU2, in the words of the statements. -/
theorem rxLdu2_eq_ldu2Ends :
    observe ev .p25 (.p25 .ldu2) (rxLdu2 params s.keys c ev (quiet s y evt)) = ldu2Ends s c y evt ev := by
  have hpos : params.recBufOff.getD params.essAlgRec 0 + params.essFieldOff = essOff params params.essAlgRec := rfl
  delta ldu2Ends
  rw [← p25Unpack_p25Payload]
  generalize himage : p25Unpack params (p25Payload params ev.data) = image
  rw [rxLdu2_quiet s c y evt ev himage, prep_eq_seeded]
  simp only [← ldu2Taken_mi, hpos]
  rfl

theorem ldu1Ends_valid : (ldu1Ends s c y evt ev).ch.valid = y.valid := rfl

theorem ldu2Ends_valid : (ldu2Ends s c y evt ev).ch.valid = y.valid := rfl

end Ldu

/-- Part 5 of a P25 step on a receiving channel. -/
theorem p25PayloadPart_of_receiving (keys : List (Nat × Bytes)) (c : Nat) (ev : RxEvent) {w : Work}
    (h : w.ch.cs.isReceiving = true) :
    p25PayloadPart params keys c .ldu1 ev w = rxLdu1 params keys c ev w ∧
      p25PayloadPart params keys c .ldu2 ev w = rxLdu2 params keys c ev w :=
  ⟨if_pos h, if_pos h⟩

/-- A channel that is not receiving takes no payload. -/
theorem p25PayloadPart_of_idle (keys : List (Nat × Bytes)) (c : Nat) (cls : P25Class) (ev : RxEvent) {w : Work}
    (h : w.ch.cs.isReceiving = false) : p25PayloadPart params keys c cls ev w = w :=
  if_neg (ne_true_of_eq_false h)

/-- Settles O38: part 4, then the payload of an LDU1 while receiving, then part 6. -/
theorem ldu1IsDecoded : Obligations.Ldu1IsDecoded := by
  intro s c x ev h hform k
  have hx : s.chan params c = x := h.held
  have hvalid : k.ch.valid = true := (tracked_valid ..).1.trans h.reach.1
  have htrack : track params s.keys c ev .p25 (.p25 .ldu1) (s.work params c) = quiet s k.ch k.evt := by
    rw [track_eq_tracked s c ev .p25 rfl, hx]
    rfl
  refine ⟨fun hrx => ?_, fun hrx => ?_⟩
  · refine exec_rxp25_of_accepted (cls := .ldu1) 0 h hform ?_ ((ldu1Ends_valid ..).trans hvalid)
    delta p25Accepted
    rw [htrack, (p25PayloadPart_of_receiving s.keys c ev (w := quiet s k.ch k.evt) hrx).1, rxLdu1_eq_ldu1Ends]
  · refine exec_rxp25_of_accepted (cls := .ldu1) 0 h hform ?_ ((observed_valid ..).trans hvalid)
    delta p25Accepted
    rw [htrack, p25PayloadPart_of_idle s.keys c _ ev (w := quiet s k.ch k.evt) hrx]
    rfl

/-- Settles O39: part 4, then the payload of an LDU2 while receiving, then part 6. -/
theorem ldu2IsDecodedThenReseeds : Obligations.Ldu2IsDecodedThenReseeds := by
  intro s c x ev h hform k
  have hx : s.chan params c = x := h.held
  have hvalid : k.ch.valid = true := (tracked_valid ..).1.trans h.reach.1
  have htrack : track params s.keys c ev .p25 (.p25 .ldu2) (s.work params c) = quiet s k.ch k.evt := by
    rw [track_eq_tracked s c ev .p25 rfl, hx]
    rfl
  refine ⟨fun hrx => ?_, fun hrx => ?_⟩
  · refine exec_rxp25_of_accepted (cls := .ldu2) 0 h hform ?_ ((ldu2Ends_valid ..).trans hvalid)
    delta p25Accepted
    rw [htrack, (p25PayloadPart_of_receiving s.keys c ev (w := quiet s k.ch k.evt) hrx).2, rxLdu2_eq_ldu2Ends]
  · refine exec_rxp25_of_accepted (cls := .ldu2) 0 h hform ?_ ((observed_valid ..).trans hvalid)
    delta p25Accepted
    rw [htrack, p25PayloadPart_of_idle s.keys c _ ev (w := quiet s k.ch k.evt) hrx]
    rfl

/-- Settles O47: the frame starts a call, so the channel receives, and the header's parameters come after the start's. -/
theorem headerLdu1GivesFreshMi : Obligations.HeaderLdu1GivesFreshMi := by
  intro s c x ev h hform hhdu hnew
  have hstart : tracked s c x ev .p25 .p25 = started s c x ev .p25 .p25 := tracked_of_new hnew
  have hrx : (tracked s c x ev .p25 .p25).ch.cs.isReceiving = true := by
    rw [hstart]
    rfl
  have hexec := (ldu1IsDecoded s c x ev h hform).1 hrx
  rw [hstart] at hexec
  refine ⟨_, hexec, ?_, ?_⟩
  · rw [nextTurn_chan, chan_stepEnds_same]
    delta ldu1Ends
    rw [hhdu]
    exact ⟨rfl, rfl, rfl, rfl, rfl, rfl, rfl, rfl⟩
  · refine (List.length_append ..).trans (congrArg (s.vocout.length + ·) ?_)
    exact (List.length_map ..).trans (passOf_out_length ..)

/-! ## DMR payloads (R203 to R205) -/

/-- The three codewords of a frame's body go out one after another. -/
theorem rxDmrVoice_eq (c : Nat) (body : Bytes) (w : Work) :
    rxDmrVoice params c body w =
      (let a := dmrVoiceExtract body
       { w with voc := w.voc ++ vocOf c w.ch .dmr [readAt a 0 params.ambeLen, readAt a params.ambeLen params.ambeLen,
          readAt a (params.ambeLen * 2) params.ambeLen] }) := by
  change ((w.emitVoc _ _ _).emitVoc _ _ _).emitVoc _ _ _ = _
  delta Work.emitVoc
  simp only [List.append_assoc]
  rfl

theorem dmrPayloadPart_voice (c : Nat) (r : SlotRef) (ev : RxEvent) (w : Work) :
    dmrPayloadPart params c r .voice ev w =
      if w.ch.cs.isReceiving then rxDmrVoice params c (dmrBody params ev.data) w else w := rfl

/-- A voice header writes the Link Control of its SlotStatus, with itself where it does not parse. -/
theorem rxDmrVhdr_eq (s : State) (y : Chan) (evt : List EvtRec) (r : SlotRef) (body : Bytes) :
    rxDmrVhdr params r body (quiet s y evt) =
      quiet s (y.setStatus r { y.status r with lc := (params.dmrLcParse .vhdr body).orElse fun _ => (y.status r).lc })
        evt := by
  delta rxDmrVhdr
  cases params.dmrLcParse .vhdr body with
  | none => exact congrArg (quiet s · evt) (Chan.setStatus_status_self y r).symm
  | some lc => rfl

/-- A privacy header writes that of its SlotStatus in the same way. -/
theorem rxDmrPihdr_eq (s : State) (y : Chan) (evt : List EvtRec) (r : SlotRef) (body : Bytes) :
    rxDmrPihdr params r body (quiet s y evt) =
      quiet s (y.setStatus r { y.status r with pi := (params.dmrPiParse body).orElse fun _ => (y.status r).pi })
        evt := by
  delta rxDmrPihdr
  cases params.dmrPiParse body with
  | none => exact congrArg (quiet s · evt) (Chan.setStatus_status_self y r).symm
  | some p => rfl

section Dmr

variable {s : State} {c : Nat} {x : Chan} {slot : BitVec 8} {ev : RxEvent} (h : AcceptedDmr s c x slot ev)
include h

/-- Part 4 of a DMR step, for a frame that is no terminator. -/
theorem track_of_acceptedDmr (cls : DmrClass) (hcls : (FrameType.dmr cls).isTerm = false) :
    let k := tracked s c x ev (dmrSlot slot) .dmr
    track params s.keys c ev (dmrSlot slot) (.dmr cls) (s.work params c) = quiet s k.ch k.evt := by
  have hx : s.chan params c = x := h.held
  intro k
  rw [track_eq_tracked s c ev _ hcls, proto_dmrSlot, hx]

theorem tracked_valid_of_acceptedDmr : (tracked s c x ev (dmrSlot slot) .dmr).ch.valid = true :=
  (tracked_valid ..).1.trans h.reach.1.1

end Dmr

/-- Settles O42: part 4, then the three codewords while receiving, then part 6. -/
theorem dmrVoiceIsDecoded : Obligations.DmrVoiceIsDecoded := by
  intro s c x slot ev h hlen r k a
  refine exec_rxdmr_of_accepted (cls := .voice) 0 h (decide_eq_true hlen) ?_
    ((observed_valid ..).trans (tracked_valid_of_acceptedDmr h))
  have hcfg : k.ch.cfg = x.cfg := (tracked_valid ..).2
  rw [dmrAccepted_eq, track_of_acceptedDmr h .voice rfl, dmrPayloadPart_voice, rxDmrVoice_eq]
  change observe ev r _ (if k.ch.cs.isReceiving then _ else _) = _
  delta vocOf
  rw [← hcfg]
  cases k.ch.cs.isReceiving <;> rfl

/-- Settles O43: part 4, then the header's Link Control where it parses, then part 6. -/
theorem dmrVoiceHeaderIsKept : Obligations.DmrVoiceHeaderIsKept := by
  intro s c x slot ev h hlen r k lc
  refine exec_rxdmr_of_accepted (cls := .vhdr) 0 h (decide_eq_true hlen) ?_
    ((observed_valid ..).trans ((Chan.setStatus_valid ..).trans (tracked_valid_of_acceptedDmr h)))
  have hlc : (params.dmrLcParse .vhdr (dmrBody params ev.data)).orElse (fun _ => (k.ch.status r).lc) = lc := by
    change Option.orElse (params.dmrLcParse .vhdr (readAt ev.data params.dmrBodyOff 33)) _ = _
    simp only [lc]
    cases params.dmrLcParse .vhdr (readAt ev.data params.dmrBodyOff 33) <;> rfl
  rw [dmrAccepted_eq, track_of_acceptedDmr h .vhdr rfl, ← hlc]
  exact congrArg (observe ev r _) (rxDmrVhdr_eq s k.ch k.evt r (dmrBody params ev.data))

/-- Settles O44: part 4, then the privacy header where it parses, then part 6. -/
theorem dmrPrivacyHeaderIsKept : Obligations.DmrPrivacyHeaderIsKept := by
  intro s c x slot ev h hlen r k pi
  refine exec_rxdmr_of_accepted (cls := .pihdr) 0 h (decide_eq_true hlen) ?_
    ((observed_valid ..).trans ((Chan.setStatus_valid ..).trans (tracked_valid_of_acceptedDmr h)))
  have hpi : (params.dmrPiParse (dmrBody params ev.data)).orElse (fun _ => (k.ch.status r).pi) = pi := by
    change Option.orElse (params.dmrPiParse (readAt ev.data params.dmrBodyOff 33)) _ = _
    simp only [pi]
    cases params.dmrPiParse (readAt ev.data params.dmrBodyOff 33) <;> rfl
  rw [dmrAccepted_eq, track_of_acceptedDmr h .pihdr rfl, ← hpi]
  exact congrArg (observe ev r _) (rxDmrPihdr_eq s k.ch k.evt r (dmrBody params ev.data))

end Sys2Proof.Proofs
end

