-- ==== Sys2Proof/Proofs/Wellness.lean ====
section
/-! PROOFS. The parts of the invariant of a channel slot (10_state.md R22, R23, R25, R26): each as a proposition, and
what a seed, a codeword and a decode pass leave of the engine's. -/

namespace Sys2Proof.Proofs

open Sys2Proof Sys2Proof.Machine Sys2Proof.Claims

/-! ## The parts as propositions -/

theorem chan_ok_iff (x : Chan) :
    x.ok params = true ↔ x.valid = true ∧ x.cfg.ok = true ∧ x.eng.ok params = true ∧ x.cs.inRange params = true ∧
      x.cs.sized = true ∧ x.cs.txIdleOk = true ∧ x.cs.rxIdleOk = true := by
  delta Chan.ok
  simp only [Bool.and_eq_true]

theorem inRange_iff (cs : ChannelState) :
    cs.inRange params = true ↔ cs.p25FrameIndex.toNat < 18 ∧ cs.dmrFrameIndex.toNat < 6 ∧ cs.ambeCount.toNat < 3 ∧
      cs.pktSeq.toNat < params.seqMod := by
  delta ChannelState.inRange
  simp only [Bool.and_eq_true, decide_eq_true_iff]

theorem sized_iff (cs : ChannelState) :
    cs.sized = true ↔ cs.netLdu1.length = 225 ∧ cs.netLdu2.length = 225 ∧ cs.ambeBuffer.length = 27 ∧
      cs.mi.length = 9 := by
  delta ChannelState.sized
  simp only [Bool.and_eq_true, decide_eq_true_iff]

theorem txIdleOk_of_call {cs : ChannelState} (h : cs.txStreamId ≠ 0) : cs.txIdleOk = true :=
  Bool.or_eq_true_iff.mpr (.inl (bne_iff_ne.mpr h))

theorem rxIdleOk_of_receiving {cs : ChannelState} (h : cs.isReceiving = true) : cs.rxIdleOk = true :=
  Bool.or_eq_true_iff.mpr (.inl h)

/-- The transmit side's part of the invariant is read off the transmit registers. -/
theorem txOk_of_sameTransmit {x y : Chan} (h : SameTransmit x y) :
    y.cs.inRange params = x.cs.inRange params ∧ y.cs.txIdleOk = x.cs.txIdleOk := by
  obtain ⟨hstream, hseq, hp25Seq, hp25, hdmrSeq, hdmr, hcount, -, -⟩ := h
  delta ChannelState.inRange ChannelState.txIdleOk
  rw [hstream, hseq, hp25Seq, hp25, hdmrSeq, hdmr, hcount]
  exact ⟨rfl, rfl⟩

/-- The receive side's part is read off the receive registers. -/
theorem rxIdleOk_of_sameReceive {x y : Chan} (h : SameReceive x y) : y.cs.rxIdleOk = x.cs.rxIdleOk := by
  obtain ⟨hstream, hpeer, hreceiving, -⟩ := h
  delta ChannelState.rxIdleOk
  rw [hstream, hpeer, hreceiving]

/-! ## The engine (R26, 41_crypto.md R142, R144) -/

/-- Apart from the size of the MI and the range of the position, the invariant of an engine is that of its seed. -/
theorem engine_ok_iff (e : Engine) :
    e.ok params = true ↔ e.mi.length = 9 ∧ e.ksPos.toNat < 9 ∧
      ({ e with mi := zeros 9, ksPos := 0 } : Engine).ok params = true := by
  delta Engine.ok
  simp only [Bool.and_eq_true, decide_eq_true_iff]
  exact and_congr_right' (and_congr_right' ⟨fun h => ⟨rfl, by decide, h⟩, fun h => h.2.2⟩)

theorem nextKsPos_lt (p : BitVec 4) : (nextKsPos p).toNat < 9 := by
  have hlt : (p.toNat + 1) % lduCw < 9 := Nat.mod_lt _ (by decide)
  delta nextKsPos
  rw [BitVec.toNat_ofNat, Nat.mod_eq_of_lt (by omega)]
  exact hlt

theorem engine_ok_advance {e : Engine} (p : BitVec 4) (h : e.ok params = true) :
    ({ e with ksPos := nextKsPos p } : Engine).ok params = true := by
  obtain ⟨hmi, -, hseed⟩ := (engine_ok_iff e).mp h
  exact (engine_ok_iff _).mpr ⟨hmi, nextKsPos_lt p, hseed⟩

/-- A codeword moves the position and nothing else of the engine. -/
theorem applied_ok {e : Engine} (role : Role) (draws : Nat) (cw : Bytes) (h : e.ok params = true) :
    (applied e role draws cw).eng.ok params = true := by
  cases hclear : isClear params e.algoId e.keyId with
  | true =>
    rw [applied_of_clear role draws cw hclear]
    exact h
  | false =>
    cases hks : e.ks with
    | undef =>
      rw [applied_of_undef role draws cw hclear hks]
      exact engine_ok_advance e.ksPos h
    | bytes ks =>
      rw [applied_of_bytes role draws cw hclear hks]
      exact engine_ok_advance e.ksPos h

/-- A keystream has every window of its algorithm. -/
theorem ksNeed_le_keystream (alg : Byte) (key mi : Bytes) : params.ksNeed alg ≤ (params.keystream alg key mi).length := by
  delta Cfg.keystream
  rw [List.length_map, List.length_range]
  exact Nat.le_add_right ..

/-- A prepare with an MI of nine bytes leaves a well engine: the one before where it fails. -/
theorem seedOf_ok (s : State) (c : Nat) (algId : BitVec 8) (keyId : BitVec 16) {mi : Bytes} {e : Engine} (noKey : Bool)
    (hmi : mi.length = 9) (h : e.ok params = true) : (seedOf s c algId keyId mi e noKey).eng.ok params = true := by
  have hseed (ks : Keystream) (hwindows : (seedWith algId keyId (zeros 9) ks).ok params = true) :
      (seedWith algId keyId mi ks).ok params = true :=
    (engine_ok_iff _).mpr ⟨hmi, Nat.zero_lt_succ 8, hwindows⟩
  cases hclear : isClear params algId keyId with
  | true =>
    rw [seedOf_of_clear s c mi e noKey hclear]
    refine hseed (.bytes []) ?_
    delta Engine.ok seedWith
    simp only [hclear]
    rfl
  | false =>
    cases hsup : supported params algId with
    | false =>
      rw [seedOf_of_unsupported s c mi e noKey hclear hsup]
      exact h
    | true =>
      cases hkey : keyOf s.keys algId keyId with
      | none =>
        rw [seedOf_of_noKey s c mi e noKey hclear hsup hkey]
        refine hseed .undef ?_
        delta Engine.ok seedWith
        simp only [hclear, hsup]
        rfl
      | some key =>
        rw [seedOf_of_key s c mi e noKey hclear hsup hkey]
        refine hseed (.bytes (params.keystream algId key mi)) ?_
        delta Engine.ok seedWith
        simp only [hclear, hsup, ksNeed_le_keystream]
        rfl

/-- The engine after a prepare that takes place under a condition. -/
theorem seed_if_ok {p : Prop} [Decidable p] {seed : Seed} {e : Engine} {noKey : Bool} (hseed : seed.eng.ok params = true)
    (h : e.ok params = true) : (if p then seed else unseeded e noKey).eng.ok params = true := by
  split
  · exact hseed
  · exact h

/-- A decode pass only moves the position. -/
theorem passOf_ok (c : Nat) (enc : Bool) (role : Role) (cws : List Bytes) {e : Engine} (draws total : Nat)
    (h : e.ok params = true) : (passOf c enc role cws e draws total).eng.ok params = true := by
  induction cws generalizing e draws total with
  | nil => exact h
  | cons cw cws ih =>
    rw [passOf_cons]
    refine ih _ _ ?_
    cases enc with
    | true => exact applied_ok role draws cw h
    | false => exact h

/-! ## Lengths and ranges -/

@[simp] theorem p25Unpack_length (p : Bytes) : (p25Unpack params p).length = 225 := by
  have hfold (ks : List Nat) (b : Bytes) : (ks.foldl (fun b k => writeAt b (recOff params k)
      (readAt p (recNetOffAt params k) (recLenAt params k))) b).length = b.length := by
    induction ks generalizing b with
    | nil => rfl
    | cons k ks ih => rw [List.foldl_cons, ih, writeAt_length]
  exact (hfold (List.range lduCw) (zeros lduLen)).trans (zeros_length 225)

@[simp] theorem miCycle_length (mi : Bytes) : (params.miCycle mi).length = 9 := by
  delta Cfg.miCycle
  rw [List.length_map, List.length_range]
  rfl

@[simp] theorem miAt_length (d : Nat) : (params.miAt d).length = 9 := by
  delta Cfg.miAt
  rw [List.length_map, List.length_range]
  rfl

theorem seqMod_le : params.seqMod ≤ 65536 := Nat.add_le_add_right (Nat.le_of_lt_succ params.seqModLess2.isLt) 2

theorem seqMod_ge : 2 ≤ params.seqMod := Nat.le_add_left 2 _

/-- The sequence value after one is counted on modulo SEQ_MOD. -/
theorem seqAfter_toNat (v : BitVec 16) : (seqAfter v).toNat = (v.toNat + 1) % params.seqMod := by
  have hlt : (v.toNat + 1) % params.seqMod < params.seqMod := Nat.mod_lt _ (lt_of_lt_of_le two_pos seqMod_ge)
  delta seqAfter
  rw [BitVec.toNat_ofNat]
  exact Nat.mod_eq_of_lt (hlt.trans_le seqMod_le)

theorem seqAfter_lt (v : BitVec 16) : (seqAfter v).toNat < params.seqMod := by
  rw [seqAfter_toNat]
  exact Nat.mod_lt _ (lt_of_lt_of_le two_pos seqMod_ge)

end Sys2Proof.Proofs
end

