-- ==== Sys2Proof/Proofs/Frames.lean ====
section
/-! PROOFS. What a step leaves alone (70_reset_and_hazards.md R288, R297, 44_sequencer.md R223, 10_state.md R22, R27, R32,
60_exceptions.md R270): the work of an inbound command keeps the transmit side of its channel, the work of any other
command the receive side, and neither puts out a REFUSED record. Along with it, what each leaves of its own side's part
of the invariant. -/

namespace Sys2Proof.Proofs

open Sys2Proof Sys2Proof.Machine Sys2Proof.Claims

/-! ## Records that report no refusal -/

/-- None of the records is REFUSED. -/
def NoRefusal (evt : List EvtRec) : Prop := ∀ e ∈ evt, ∀ r op, e.info ≠ .refused r op

theorem noRefusal_nil : NoRefusal [] := fun _ he => absurd he List.not_mem_nil

theorem noRefusal_singleton {e : EvtRec} (h : ∀ r op, e.info ≠ .refused r op) : NoRefusal [e] := by
  intro f hf
  rw [List.mem_singleton.mp hf]
  exact h

theorem noRefusal_append {a b : List EvtRec} (ha : NoRefusal a) (hb : NoRefusal b) : NoRefusal (a ++ b) := by
  intro e he
  rcases List.mem_append.mp he with he | he
  · exact ha e he
  · exact hb e he

/-- A prepare reports a missing key or its failure, or nothing. -/
theorem seedOf_noRefusal (s : State) (c : Nat) (algId : BitVec 8) (keyId : BitVec 16) (mi : Bytes) (e : Engine)
    (noKey : Bool) : NoRefusal (seedOf s c algId keyId mi e noKey).evt := by
  cases hclear : isClear params algId keyId with
  | true =>
    rw [seedOf_of_clear s c mi e noKey hclear]
    exact noRefusal_nil
  | false =>
    cases hsup : supported params algId with
    | false =>
      rw [seedOf_of_unsupported s c mi e noKey hclear hsup]
      exact noRefusal_singleton fun _ _ => EvtInfo.noConfusion
    | true =>
      cases hkey : keyOf s.keys algId keyId with
      | none =>
        rw [seedOf_of_noKey s c mi e noKey hclear hsup hkey]
        exact noRefusal_singleton fun _ _ => EvtInfo.noConfusion
      | some key =>
        rw [seedOf_of_key s c mi e noKey hclear hsup hkey]
        exact noRefusal_nil

/-- The same of a prepare that takes place under a condition. -/
theorem seed_if_noRefusal {p : Prop} [Decidable p] {seed : Seed} {e : Engine} {noKey : Bool}
    (h : NoRefusal seed.evt) : NoRefusal (if p then seed else unseeded e noKey).evt := by
  split
  · exact h
  · exact noRefusal_nil

/-! ## The work of an inbound command -/

/-- The part of the invariant that an inbound command's work can touch. -/
def RxWell (x : Chan) : Prop := x.eng.ok params = true ∧ x.cs.sized = true ∧ x.cs.rxIdleOk = true

/-- From slot x, the work has written no register of the transmit side, no configuration and no `valid`, and has put out
nothing on NETOUT or RSP and no REFUSED record; and it keeps its part of the invariant. -/
def Received (x : Chan) (w : Work) : Prop :=
  SameTransmit x w.ch ∧ w.ch.cfg = x.cfg ∧ w.ch.valid = x.valid ∧ w.net = [] ∧ w.rsp = [] ∧ NoRefusal w.evt ∧
    (RxWell x → RxWell w.ch)

theorem sameTransmit_refl (x : Chan) : SameTransmit x x := ⟨rfl, rfl, rfl, rfl, rfl, rfl, rfl, rfl, rfl⟩

/-- The transmit registers all lie in ChannelState. -/
theorem sameTransmit_of_cs {x y z : Chan} (h : SameTransmit x y) (hcs : z.cs = y.cs) : SameTransmit x z := by
  delta SameTransmit
  rw [hcs]
  exact h

/-- A write of a SlotStatus is none of these. -/
theorem received_setStatus {x : Chan} {w : Work} (r : SlotRef) (v : SlotStatus) (h : Received x w) :
    Received x (w.setStatus r v) := by
  obtain ⟨htx, hcfg, hvalid, hnet, hrsp, hevt, hwell⟩ := h
  refine ⟨sameTransmit_of_cs htx (Chan.setStatus_cs ..), (Chan.setStatus_cfg ..).trans hcfg,
    (Chan.setStatus_valid ..).trans hvalid, hnet, hrsp, hevt, fun hx => ?_⟩
  cases r <;> exact hwell hx

theorem started_received (s : State) (c : Nat) (x : Chan) (ev : RxEvent) (r : SlotRef) (proto : Proto) :
    Received x (quiet s (started s c x ev r proto).ch (started s c x ev r proto).evt) := by
  delta started
  refine received_setStatus (w := quiet s _ _) r _ ⟨sameTransmit_refl x, rfl, rfl, rfl, rfl,
    noRefusal_append (seedOf_noRefusal _ _ _ _ _ _ _) (noRefusal_singleton fun _ _ => EvtInfo.noConfusion), ?_⟩
  rintro ⟨heng, hsized, -⟩
  obtain ⟨hldu1, hldu2, hambe, -⟩ := (sized_iff x.cs).mp hsized
  exact ⟨seedOf_ok _ _ _ _ _ (zeros_length 9) heng, (sized_iff _).mpr ⟨hldu1, hldu2, hambe, zeros_length 9⟩,
    rxIdleOk_of_receiving rfl⟩

theorem ended_received (s : State) (c : Nat) (x : Chan) (st : SlotStatus) (now : BitVec 64) (cause : EndCause) :
    Received x (quiet s (ended c x st now cause).ch (ended c x st now cause).evt) :=
  ⟨sameTransmit_refl x, rfl, rfl, rfl, rfl, noRefusal_singleton fun _ _ => EvtInfo.noConfusion,
    fun ⟨heng, hsized, _⟩ => ⟨heng, hsized, rfl⟩⟩

theorem tracked_received (s : State) (c : Nat) (x : Chan) (ev : RxEvent) (r : SlotRef) (proto : Proto) :
    Received x (quiet s (tracked s c x ev r proto).ch (tracked s c x ev r proto).evt) := by
  by_cases h : ev.streamId = (x.status r).streamId
  · rw [tracked_of_known h]
    exact received_setStatus (w := quiet s _ _) r _ ⟨sameTransmit_refl x, rfl, rfl, rfl, rfl, noRefusal_nil, id⟩
  · rw [tracked_of_new h]
    exact started_received s c x ev r proto

theorem stopped_received (s : State) (c : Nat) (x : Chan) (ev : RxEvent) (r : SlotRef) :
    Received x (quiet s (stopped c x ev r).ch (stopped c x ev r).evt) := by
  delta stopped
  split
  · exact ended_received ..
  · exact ⟨sameTransmit_refl x, rfl, rfl, rfl, rfl, noRefusal_nil, id⟩

/-- Part 4 of an inbound step, whatever the class. -/
theorem track_received (s : State) (c : Nat) (ev : RxEvent) (r : SlotRef) (kind : FrameType) :
    ∃ y evt, track params s.keys c ev r kind (s.work params c) = quiet s y evt ∧
      Received (s.chan params c) (quiet s y evt) := by
  cases hkind : kind.isTerm with
  | false => exact ⟨_, _, track_eq_tracked s c ev r hkind, tracked_received ..⟩
  | true =>
    obtain ⟨htx, hcfg, hvalid, hnet, hrsp, hevt, hwell⟩ := stopped_received s c (s.chan params c) ev r
    exact ⟨_, _, track_eq_stopped s c ev r hkind,
      received_setStatus (w := quiet s _ _) r _ ⟨htx, hcfg, hvalid, hnet, hrsp, hevt, hwell⟩⟩

/-- A prepare with an MI of nine bytes. -/
theorem received_prep {s : State} {x : Chan} {w : Work} (c : Nat) (algId : BitVec 8) (keyId : BitVec 16) {mi : Bytes}
    (hmi : RxWell x → mi.length = 9) (h : Received x w) :
    Received x (prep params s.keys c algId keyId mi w) := by
  obtain ⟨htx, hcfg, hvalid, hnet, hrsp, hevt, hwell⟩ := h
  rw [prep_eq_seeded]
  refine ⟨htx, hcfg, hvalid, hnet, hrsp, noRefusal_append hevt (seedOf_noRefusal _ _ _ _ _ _ _), fun hx => ?_⟩
  obtain ⟨heng, hsized, hidle⟩ := hwell hx
  exact ⟨seedOf_ok _ _ _ _ _ (hmi hx) heng, hsized, hidle⟩

section Payload

variable {s : State} {c : Nat} {x y : Chan} {evt : List EvtRec} (ev : RxEvent) (h : Received x (quiet s y evt))
include h

/-- A write of the parameters, of an LDU buffer and of the error total, all within their sizes. -/
theorem received_setCs {cs : ChannelState} (htx : SameTransmit y { y with cs := cs })
    (hidle : cs.rxIdleOk = y.cs.rxIdleOk) (hsized : y.cs.sized = true → cs.sized = true) :
    Received x (quiet s { y with cs := cs } evt) := by
  obtain ⟨hxy, hcfg, hvalid, hnet, hrsp, hevt, hwell⟩ := h
  refine ⟨?_, hcfg, hvalid, hnet, hrsp, hevt, fun hx => ?_⟩
  · obtain ⟨h1, h2, h3, h4, h5, h6, h7, h8, h9⟩ := htx
    obtain ⟨g1, g2, g3, g4, g5, g6, g7, g8, g9⟩ := hxy
    exact ⟨h1.trans g1, h2.trans g2, h3.trans g3, h4.trans g4, h5.trans g5, h6.trans g6, h7.trans g7, h8.trans g8,
      h9.trans g9⟩
  · obtain ⟨heng, hbefore, hrx⟩ := hwell hx
    exact ⟨heng, hsized hbefore, hidle.trans hrx⟩

theorem received_passEnds (role : Role) (buf : Bytes) : Received x (passEnds s c y evt role buf) := by
  obtain ⟨htx, hcfg, hvalid, -, -, hevt, hwell⟩ := h
  refine ⟨htx, hcfg, hvalid, rfl, rfl, hevt, fun hx => ?_⟩
  obtain ⟨heng, hsized, hidle⟩ := hwell hx
  exact ⟨passOf_ok _ _ _ _ _ _ heng, hsized, hidle⟩

theorem received_netLdu1 {image : Bytes} (hlen : image.length = 225) :
    Received x (quiet s { y with cs := { y.cs with netLdu1 := image } } evt) :=
  received_setCs h (sameTransmit_refl y) rfl fun hsized => by
    obtain ⟨-, hldu2, hambe, hmi⟩ := (sized_iff y.cs).mp hsized
    exact (sized_iff _).mpr ⟨hlen, hldu2, hambe, hmi⟩

theorem received_hduTaken (data : Bytes) :
    Received x (quiet s (hduTaken s c y data).ch (evt ++ (hduTaken s c y data).evt)) := by
  have hmi : (hduMi params data).length = 9 := readAt_length ..
  have htaken := received_setCs (cs := { y.cs with
      algId := hduAlg params data, keyId := hduKid params data, mi := hduMi params data }) h (sameTransmit_refl y) rfl
    fun hsized => by
      obtain ⟨hldu1, hldu2, hambe, -⟩ := (sized_iff y.cs).mp hsized
      exact (sized_iff _).mpr ⟨hldu1, hldu2, hambe, hmi⟩
  have hprep := received_prep (s := s) c (hduAlg params data) (hduKid params data) (fun _ => hmi) htaken
  rw [prep_eq_seeded] at hprep
  exact hprep

theorem rxLdu1_received : Received x (rxLdu1 params s.keys c ev (quiet s y evt)) := by
  cases hhdu : hasHdu params ev.data with
  | true =>
    rw [rxLdu1_of_hdu s c y evt ev hhdu]
    exact received_passEnds (received_hduTaken (received_netLdu1 h (p25Unpack_length _)) _) _ _
  | false =>
    rw [rxLdu1_of_plain s c y evt ev hhdu]
    exact received_passEnds (received_netLdu1 h (p25Unpack_length _)) _ _

theorem rxLdu2_received : Received x (rxLdu2 params s.keys c ev (quiet s y evt)) := by
  generalize himage : p25Unpack params (p25Payload params ev.data) = image
  have hmi : (ldu2Taken y image).cs.mi.length = 9 := by
    rw [ldu2Taken_mi]
    split
    · rfl
    · exact miCycle_length _
  have htaken : Received x (quiet s (ldu2Taken y image) evt) :=
    received_setCs h (sameTransmit_refl y) rfl fun hsized => by
      obtain ⟨hldu1, -, hambe, -⟩ := (sized_iff y.cs).mp hsized
      exact (sized_iff _).mpr ⟨hldu1, himage ▸ p25Unpack_length _, hambe, hmi⟩
  rw [rxLdu2_quiet s c y evt ev himage]
  exact received_prep c _ _ (fun _ => hmi) (received_passEnds htaken _ _)

/-- Parts 5 and 6 of the P25 step. -/
theorem p25Payload_received (cls : P25Class) :
    Received x (observe ev .p25 (.p25 cls) (p25PayloadPart params s.keys c cls ev (quiet s y evt))) := by
  cases hrx : y.cs.isReceiving with
  | false =>
    rw [p25PayloadPart_of_idle s.keys c cls ev (w := quiet s y evt) hrx]
    exact received_setStatus .p25 _ h
  | true =>
    obtain ⟨hldu1, hldu2⟩ := p25PayloadPart_of_receiving s.keys c ev (w := quiet s y evt) hrx
    cases cls with
    | ldu1 =>
      rw [hldu1]
      exact received_setStatus .p25 _ (rxLdu1_received ev h)
    | ldu2 =>
      rw [hldu2]
      exact received_setStatus .p25 _ (rxLdu2_received ev h)
    | term =>
      rw [p25PayloadPart_term]
      exact received_setStatus .p25 _ h
    | other =>
      rw [p25PayloadPart_other]
      exact received_setStatus .p25 _ h

/-- Part 5 of the DMR step. -/
theorem dmrPayload_received (r : SlotRef) (cls : DmrClass) :
    ∃ z voc, dmrPayloadPart params c r cls ev (quiet s y evt) = { quiet s z evt with voc := voc } ∧
      Received x (quiet s z evt) := by
  cases cls with
  | voice =>
    rw [dmrPayloadPart_voice, rxDmrVoice_eq]
    cases hrx : (quiet s y evt).ch.cs.isReceiving with
    | true => exact ⟨y, _, rfl, h⟩
    | false => exact ⟨y, [], rfl, h⟩
  | vhdr => exact ⟨_, [], rxDmrVhdr_eq s y evt r _, received_setStatus r _ h⟩
  | pihdr => exact ⟨_, [], rxDmrPihdr_eq s y evt r _, received_setStatus r _ h⟩
  | term => exact ⟨y, [], rfl, h⟩
  | other => exact ⟨y, [], rfl, h⟩

end Payload

theorem inboundWork_received {s : State} {c : Nat} {i : Instr} {w : Work} (h : InboundWork s c i w) :
    Received (s.chan params c) w := by
  rcases h with ⟨cls, kind, ev, -, -, rfl⟩ | ⟨cls, kind, slot, ev, -, -, rfl⟩ | ⟨now, -, -, rfl⟩
  · obtain ⟨y, evt, htrack, hy⟩ := track_received s c ev .p25 (.p25 cls)
    delta p25Accepted
    rw [htrack]
    exact p25Payload_received ev hy cls
  · obtain ⟨y, evt, htrack, hy⟩ := track_received s c ev (dmrSlot slot) (.dmr cls)
    rw [dmrAccepted_eq, htrack]
    obtain ⟨z, voc, hpayload, hz⟩ := dmrPayload_received (c := c) ev hy (dmrSlot slot) cls
    rw [hpayload]
    exact received_setStatus (dmrSlot slot) _ hz
  · rw [callEnd_eq_ended]
    exact ended_received ..

/-! ## The work of any other command -/

/-- The part of the invariant that the work of any other command can touch. -/
def TxWell (x : Chan) : Prop :=
  x.eng.ok params = true ∧ x.cs.inRange params = true ∧ x.cs.sized = true ∧ x.cs.txIdleOk = true

/-- From slot x, the work has written no register of the receive side, no SlotStatus, no configuration and no `valid`, and
has put out nothing on VOCOUT and no REFUSED record; and it keeps its part of the invariant. -/
def Transmitted (x : Chan) (w : Work) : Prop :=
  SameReceive x w.ch ∧ w.ch.cfg = x.cfg ∧ w.ch.valid = x.valid ∧ w.voc = [] ∧ NoRefusal w.evt ∧ (TxWell x → TxWell w.ch)

theorem sameReceive_refl (x : Chan) : SameReceive x x := ⟨rfl, rfl, rfl, rfl, rfl, rfl, rfl, rfl, rfl⟩

/-- A write of the live parameters with an MI of nine bytes, and a prepare with it. -/
theorem txWell_seeded {s : State} {c : Nat} {x : Chan} (algId : BitVec 8) (keyId : BitVec 16) {mi : Bytes}
    (a : BitVec 8) (k : BitVec 16) (hmi : mi.length = 9) (h : TxWell x) :
    let seed := seedOf s c algId keyId mi x.eng x.cs.noKey
    TxWell { x with eng := seed.eng, cs := { x.cs with algId := a, keyId := k, mi := mi, noKey := seed.noKey } } := by
  obtain ⟨heng, hrange, hsized, hidle⟩ := h
  obtain ⟨hldu1, hldu2, hambe, -⟩ := (sized_iff x.cs).mp hsized
  exact ⟨seedOf_ok _ _ _ _ _ hmi heng, hrange, (sized_iff _).mpr ⟨hldu1, hldu2, hambe, hmi⟩, hidle⟩

theorem ofNat_mod_toNat {m n : Nat} (w : Nat) (h : m ≤ 2 ^ w) (hm : 0 < m) :
    (BitVec.ofNat w (n % m)).toNat = n % m := by
  rw [BitVec.toNat_ofNat]
  exact Nat.mod_eq_of_lt ((Nat.mod_lt n hm).trans_le h)

/-- An LDU buffer that is cleared at a first position and written keeps its size. -/
theorem ldu_length {p : Prop} [Decidable p] {buf : Bytes} (h : buf.length = 225) (off : Nat) (cw : Bytes) :
    (writeAt (if p then zeros 225 else buf) off cw).length = 225 := by
  rw [writeAt_length]
  split
  · exact zeros_length 225
  · exact h

theorem length_if {p : Prop} [Decidable p] {a b : Bytes} {n : Nat} (ha : a.length = n) (hb : b.length = n) :
    (if p then a else b).length = n := by
  split
  · exact ha
  · exact hb

/-- A codeword that goes through the engine under a condition. -/
theorem applied_if_ok {p : Prop} [Decidable p] {e : Engine} (role : Role) (draws : Nat) (cw : Bytes)
    (h : e.ok params = true) :
    (if p then applied e role draws cw else { out := cw, eng := e, draws := draws }).eng.ok params = true := by
  split
  · exact applied_ok role draws cw h
  · exact h

/-- The work of TXP25 keeps the ranges and the sizes on a channel in a call. -/
theorem txp25Ends_well {s : State} {c : Nat} (cw : Bytes) (hcall : (s.chan params c).cs.txStreamId ≠ 0)
    (h : TxWell (s.chan params c)) : TxWell (txp25Ends s c cw).ch := by
  obtain ⟨heng, hrange, hsized, -⟩ := h
  obtain ⟨-, hframe, hfill, hseq⟩ := (inRange_iff _).mp hrange
  obtain ⟨hldu1, hldu2, hambe, hmi⟩ := (sized_iff _).mp hsized
  have hmi0 {p : Prop} [Decidable p] : (if p then params.miAt s.draws else (s.chan params c).cs.mi).length = 9 :=
    length_if (miAt_length _) hmi
  have hmi1 {p q : Prop} [Decidable p] [Decidable q] : (if p then params.miCycle
      (if q then params.miAt s.draws else (s.chan params c).cs.mi) else
      (if q then params.miAt s.draws else (s.chan params c).cs.mi)).length = 9 := length_if (miCycle_length _) hmi0
  refine ⟨?_, (inRange_iff _).mpr ⟨?_, hframe, hfill, ?_⟩, (sized_iff _).mpr ⟨?_, ?_, hambe, hmi1⟩,
    txIdleOk_of_call hcall⟩
  · have hseed0 {p : Prop} [Decidable p] {mi : Bytes} (hlen : mi.length = 9) :=
      seed_if_ok (p := p) (noKey := (s.chan params c).cs.noKey) (seedOf_ok s c (s.chan params c).cfg.algoId
        (s.chan params c).cfg.keyId (s.chan params c).cs.noKey hlen heng) heng
    exact seed_if_ok (seedOf_ok _ _ _ _ _ hmi1 (applied_if_ok _ _ _ (hseed0 hmi0))) (applied_if_ok _ _ _ (hseed0 hmi0))
  · exact (ofNat_mod_toNat 5 (by decide) (by decide)).trans_lt (Nat.mod_lt _ (by decide))
  · change (if _ then seqAfter _ else _ : BitVec 16).toNat < _
    split
    · exact seqAfter_lt _
    · exact hseq
  · exact length_if (ldu_length hldu1 _ _) hldu1
  · exact length_if hldu2 (ldu_length hldu2 _ _)

theorem txp25Ends_transmitted (s : State) (c : Nat) (cw : Bytes) (hcall : (s.chan params c).cs.txStreamId ≠ 0) :
    Transmitted (s.chan params c) (txp25Ends s c cw) :=
  ⟨sameReceive_refl _, rfl, rfl, rfl, noRefusal_append (seed_if_noRefusal (seedOf_noRefusal _ _ _ _ _ _ _))
    (seed_if_noRefusal (seedOf_noRefusal _ _ _ _ _ _ _)), txp25Ends_well cw hcall⟩

theorem txdmrEnds_transmitted (s : State) (c : Nat) (cw : Bytes) (hcall : (s.chan params c).cs.txStreamId ≠ 0) :
    Transmitted (s.chan params c) (txdmrEnds s c cw) := by
  by_cases hfill : (s.chan params c).cs.ambeCount.toNat < 2
  · have hends : txdmrEnds s c cw = _ := if_pos hfill
    rw [hends]
    refine ⟨sameReceive_refl _, rfl, rfl, rfl, noRefusal_nil, fun ⟨heng, hrange, hsized, _⟩ => ?_⟩
    obtain ⟨hp25, hframe, -, hseq⟩ := (inRange_iff _).mp hrange
    obtain ⟨hldu1, hldu2, hambe, hmi⟩ := (sized_iff _).mp hsized
    refine ⟨heng, (inRange_iff _).mpr ⟨hp25, hframe, ?_, hseq⟩,
      (sized_iff _).mpr ⟨hldu1, hldu2, (writeAt_length ..).trans hambe, hmi⟩, txIdleOk_of_call hcall⟩
    change ((s.chan params c).cs.ambeCount + 1).toNat < 3
    bv_omega
  · have hends : txdmrEnds s c cw = _ := if_neg hfill
    rw [hends]
    refine ⟨sameReceive_refl _, rfl, rfl, rfl, noRefusal_nil, fun ⟨heng, hrange, hsized, _⟩ => ?_⟩
    obtain ⟨hp25, -, -, -⟩ := (inRange_iff _).mp hrange
    obtain ⟨hldu1, hldu2, -, hmi⟩ := (sized_iff _).mp hsized
    exact ⟨heng, (inRange_iff _).mpr ⟨hp25, (ofNat_mod_toNat 3 (by decide) (by decide)).trans_lt
        (Nat.mod_lt _ (by decide)), Nat.zero_lt_succ 2, seqAfter_lt _⟩,
      (sized_iff _).mpr ⟨hldu1, hldu2, zeros_length 27, hmi⟩, txIdleOk_of_call hcall⟩

/-- The end of a call leaves the transmit registers at zero. -/
theorem txIdle_well {x : Chan} (h : TxWell x) : TxWell { x with cs := txIdle x.cs } := by
  obtain ⟨heng, -, hsized, -⟩ := h
  obtain ⟨hldu1, hldu2, -, hmi⟩ := (sized_iff _).mp hsized
  exact ⟨heng, (inRange_iff _).mpr ⟨Nat.zero_lt_succ _, Nat.zero_lt_succ _, Nat.zero_lt_succ _, Nat.zero_lt_succ _⟩,
    (sized_iff _).mpr ⟨hldu1, hldu2, zeros_length 27, hmi⟩, rfl⟩

theorem commandWork_transmitted {s : State} {ch : BitVec 16} {i : Instr} {w : Work} (h : CommandWork s ch i w) :
    Transmitted (s.chan params ch.toNat) w := by
  rcases h with ⟨algId, keyId, mi, hmi, -, rfl⟩ | ⟨role, cw, -, rfl⟩ | ⟨-, rfl⟩ | ⟨-, -, -, rfl⟩ |
    ⟨cw, ⟨-, hcall⟩, -, rfl⟩ | ⟨cw, ⟨-, hcall⟩, -, rfl⟩ | ⟨cause, -, -, rfl⟩ | ⟨cause, -, -, rfl⟩
  · rw [cprepWork_eq]
    exact ⟨sameReceive_refl _, rfl, rfl, rfl, noRefusal_append noRefusal_nil (seedOf_noRefusal _ _ _ _ _ _ _),
      txWell_seeded algId keyId algId keyId hmi⟩
  · rw [cprocWork_eq]
    exact ⟨sameReceive_refl _, rfl, rfl, rfl, noRefusal_nil, fun ⟨heng, hrange, hsized, hidle⟩ =>
      ⟨applied_ok _ _ _ heng, hrange, hsized, hidle⟩⟩
  · rw [ccycleWork_eq]
    exact ⟨sameReceive_refl _, rfl, rfl, rfl, noRefusal_append noRefusal_nil (seedOf_noRefusal _ _ _ _ _ _ _),
      txWell_seeded _ _ _ _ (miCycle_length _)⟩
  · refine ⟨sameReceive_refl _, rfl, rfl, rfl, noRefusal_nil, fun ⟨heng, hrange, hsized, _⟩ => ?_⟩
    obtain ⟨hp25, hframe, hfill, -⟩ := (inRange_iff _).mp hrange
    exact ⟨heng, (inRange_iff _).mpr ⟨hp25, hframe, hfill, Nat.zero_lt_succ _⟩, hsized,
      txIdleOk_of_call (streamIdAt_ne_zero params s.draws)⟩
  · rw [txp25Work_eq]
    exact txp25Ends_transmitted s _ cw hcall
  · rw [txdmrWork_eq]
    exact txdmrEnds_transmitted s _ cw hcall
  · exact ⟨sameReceive_refl _, rfl, rfl, rfl, noRefusal_nil, txIdle_well⟩
  · exact ⟨sameReceive_refl _, rfl, rfl, rfl, noRefusal_nil, txIdle_well⟩

/-- A command's work is on the channel that its operand names. -/
theorem channelOf_of_commandWork {s : State} {ch : BitVec 16} {i : Instr} {w : Work} (h : CommandWork s ch i w) :
    channelOf i = some ch.toNat := by
  rcases h with ⟨_, _, _, -, rfl, -⟩ | ⟨_, _, rfl, -⟩ | ⟨rfl, -⟩ | ⟨-, -, rfl, -⟩ | ⟨_, -, rfl, -⟩ |
    ⟨_, -, rfl, -⟩ | ⟨_, -, rfl, -⟩ | ⟨_, -, rfl, -⟩ <;> rfl

theorem channelOf_of_slotWrite {s : State} {ch : BitVec 16} {i : Instr} {x : Chan} (h : SlotWrite s ch i x) :
    channelOf i = some ch.toNat := by
  rcases h with ⟨-, rfl, -⟩ | ⟨-, rfl, -⟩ | ⟨_, _, _, _, _, _, -, -, -, rfl, -⟩ <;> rfl

theorem manages_of_slotWrite {s : State} {ch : BitVec 16} {i : Instr} {x : Chan} (h : SlotWrite s ch i x) :
    Manages i := by
  rcases h with ⟨-, rfl, -⟩ | ⟨-, rfl, -⟩ | ⟨sys, srcId, dstId, slot, algoId, keyId, -, -, -, rfl, -⟩
  · exact .inr (.inl ⟨ch, rfl⟩)
  · exact .inr (.inr (.inl ⟨ch, rfl⟩))
  · exact .inr (.inr (.inr ⟨ch, sys, srcId, dstId, slot, algoId, keyId, rfl⟩))

/-! ## The frame statements -/

/-- What holds of a slot that is as before, and of the step's slot after its work, holds of every slot. -/
theorem forall_chan_commit (P : Chan → Chan → Prop) {s : State} {c : Nat} {w : Work} (hrefl : ∀ x, P x x)
    (h : P (s.chan params c) w.ch) (d : Nat) : P (s.chan params d) ((s.commit params c w).chan params d) := by
  rw [State.chan_commit]
  split
  case isTrue hd => exact hd ▸ h
  case isFalse => exact hrefl _

/-- Settles O53: the work of an inbound command keeps the transmit side of its channel, and no other channel is
written. -/
theorem receiveLeavesTransmitSide : Obligations.ReceiveLeavesTransmitSide := by
  intro i s t hin hexec
  have hrefl (x : Chan) : SameTransmit x x ∧ x.cfg = x.cfg ∧ x.valid = x.valid := ⟨sameTransmit_refl x, rfl, rfl⟩
  rcases exec_cases hexec with ⟨-, ⟨r, op, rfl⟩ | ⟨u, hstep, rfl⟩⟩ | ⟨hnot, -⟩
  · exact ⟨rfl, rfl, rfl, fun d => hrefl _⟩
  · rcases hstep with rfl | ⟨r, streamId, rfl⟩ | ⟨w, hwork, rfl⟩
    · exact ⟨rfl, rfl, rfl, fun d => hrefl _⟩
    · exact ⟨rfl, rfl, rfl, fun d => hrefl _⟩
    · obtain ⟨htx, hcfg, hvalid, hnet, hrsp, -, -⟩ := inboundWork_received hwork
      refine ⟨?_, ?_, rfl, forall_chan_commit
        (fun x y => SameTransmit x y ∧ y.cfg = x.cfg ∧ y.valid = x.valid) hrefl ⟨htx, hcfg, hvalid⟩⟩
      · rw [nextTurn_netout, State.commit_netout, hnet, List.append_nil]
      · exact (congrArg (s.rsp ++ ·) hrsp).trans (List.append_nil _)
  · exact absurd hin hnot

/-- Settles O54: the work of a transmit or crypto command keeps the receive side of its channel, and no other channel is
written. -/
theorem transmitLeavesReceiveSide : Obligations.TransmitLeavesReceiveSide := by
  intro i s t hexec hnot hmanages
  have hrefl (x : Chan) : SameReceive x x ∧ x.cfg = x.cfg ∧ x.valid = x.valid := ⟨sameReceive_refl x, rfl, rfl⟩
  rcases exec_cases hexec with ⟨hin, -⟩ | ⟨-, ⟨r, ch, op, rfl⟩ | ⟨rfl, -⟩ | ⟨algId, keyId, key, -, -, -, rfl⟩ |
    ⟨ch, x, hwrite, -⟩ | ⟨ch, w, -, hwork, rfl⟩⟩
  · exact absurd hin hnot
  · exact ⟨rfl, fun d => hrefl _⟩
  · exact (hmanages (.inl rfl)).elim
  · exact ⟨rfl, fun d => hrefl _⟩
  · exact absurd (manages_of_slotWrite hwrite) hmanages
  · obtain ⟨hrx, hcfg, hvalid, hvoc, -, -⟩ := commandWork_transmitted hwork
    refine ⟨?_, forall_chan_commit
      (fun x y => SameReceive x y ∧ y.cfg = x.cfg ∧ y.valid = x.valid) hrefl ⟨hrx, hcfg, hvalid⟩⟩
    rw [State.commit_vocout, hvoc, List.append_nil]

/-- Settles O56: a write of a slot and a step's work are on the channel that the operand names. -/
theorem otherChannelsUntouched : Obligations.OtherChannelsUntouched := by
  intro i s t c d hch hexec hd
  rcases exec_cases hexec with ⟨hin, -⟩ | ⟨-, ⟨r, ch, op, rfl⟩ | ⟨rfl, -⟩ | ⟨algId, keyId, key, -, -, rfl, -⟩ |
    ⟨ch, x, hwrite, rfl⟩ | ⟨ch, w, -, hwork, rfl⟩⟩
  · exact absurd hin (not_inbound_of_channelOf hch)
  · exact ⟨rfl, rfl, rfl, rfl, rfl⟩
  · cases hch
  · cases hch
  · obtain rfl : ch.toNat = c := Option.some.inj ((channelOf_of_slotWrite hwrite).symm.trans hch)
    refine ⟨?_, rfl, rfl, rfl, rfl⟩
    rw [State.chan_setChan, if_neg hd]
  · obtain rfl : ch.toNat = c := Option.some.inj ((channelOf_of_commandWork hwork).symm.trans hch)
    refine ⟨?_, rfl, rfl, rfl, rfl⟩
    rw [State.chan_commit, if_neg hd]

/-- A commit appends to each of the four traces. -/
theorem traces_prefix_commit (s : State) (c : Nat) (w : Work) :
    s.netout <+: (s.commit params c w).netout ∧ s.vocout <+: (s.commit params c w).vocout ∧
      s.evt <+: (s.commit params c w).evt ∧ s.rsp <+: (s.commit params c w).rsp :=
  ⟨List.prefix_append .., List.prefix_append .., List.prefix_append .., List.prefix_append ..⟩

/-- Settles O57: of the effects only a reset does not append to the traces or leave them. -/
theorem tracesOnlyGrow : Obligations.TracesOnlyGrow := by
  intro i s t hreset hexec
  have hsame {u : List EvtRec} (h : s.evt <+: u) :
      s.netout <+: s.netout ∧ s.vocout <+: s.vocout ∧ s.evt <+: u ∧ s.rsp <+: s.rsp :=
    ⟨List.prefix_rfl, List.prefix_rfl, h, List.prefix_rfl⟩
  rcases exec_cases hexec with ⟨-, ⟨r, op, rfl⟩ | ⟨u, hstep, rfl⟩⟩ | ⟨-, ⟨r, ch, op, rfl⟩ | ⟨rfl, -⟩ |
    ⟨algId, keyId, key, -, -, -, rfl⟩ | ⟨ch, x, -, rfl⟩ | ⟨ch, w, -, -, rfl⟩⟩
  · exact hsame (List.prefix_append ..)
  · rcases hstep with rfl | ⟨r, streamId, rfl⟩ | ⟨w, -, rfl⟩
    · exact hsame List.prefix_rfl
    · exact hsame (List.prefix_append ..)
    · exact traces_prefix_commit s s.turn w
  · exact hsame (List.prefix_append ..)
  · exact absurd rfl hreset
  · exact hsame List.prefix_rfl
  · exact hsame List.prefix_rfl
  · exact traces_prefix_commit ..

/-- Records of which none is REFUSED are not one REFUSED record. -/
theorem ne_append_refused {evt new : List EvtRec} (h : NoRefusal new) (ch : BitVec 16) (r : RefuseCode)
    (op : BitVec 8) : evt ++ new ≠ evt ++ [{ ch := ch, info := .refused r op }] := by
  intro heq
  rw [List.append_cancel_left heq] at h
  exact h _ (List.mem_singleton.mpr rfl) r op rfl

/-- Settles O58: a refusal's own record is read off the trace; no other effect appends one REFUSED record. -/
theorem refusalWritesNothing : Obligations.RefusalWritesNothing := by
  intro i s t ch r op hexec hevt
  have hfresh {new : List EvtRec} (h : NoRefusal new) (heq : t.evt = s.evt ++ new) : False :=
    ne_append_refused h ch r op (heq.symm.trans hevt)
  have hkept (heq : t.evt = s.evt) : False := hfresh noRefusal_nil (heq.trans (List.append_nil _).symm)
  rcases exec_cases hexec with ⟨-, ⟨r', op', rfl⟩ | ⟨u, hstep, rfl⟩⟩ | ⟨-, ⟨r', ch', op', rfl⟩ | ⟨-, rfl⟩ |
    ⟨algId, keyId, key, -, -, -, rfl⟩ | ⟨ch', x, -, rfl⟩ | ⟨ch', w, -, hwork, rfl⟩⟩
  · exact congrArg (fun e => { s with evt := e, turn := 0 }) hevt
  · rcases hstep with rfl | ⟨r', streamId, rfl⟩ | ⟨w, hwork, rfl⟩
    · exact absurd rfl hkept
    · exact (hfresh (noRefusal_singleton fun _ _ => EvtInfo.noConfusion) rfl).elim
    · obtain ⟨-, -, -, -, -, hnone, -⟩ := inboundWork_received hwork
      exact (hfresh hnone rfl).elim
  · exact congrArg (fun e => { s with evt := e }) hevt
  · exact absurd hevt.symm (List.append_ne_nil_of_right_ne_nil _ (List.cons_ne_nil _ _))
  · exact absurd rfl hkept
  · exact absurd rfl hkept
  · obtain ⟨-, -, -, -, hnone, -⟩ := commandWork_transmitted hwork
    exact (hfresh hnone rfl).elim

end Sys2Proof.Proofs
end

