-- ==== Sys2Proof/Proofs/Invariant.lean ====
section
/-! PROOFS. The invariant of the block between steps (10_state.md R22 to R28). A step's work keeps its own side's part of
the slot it is on (Frames), so every effect keeps the channel array and the key store in order; the port and `turn` are
the machine's own and are seen to when the command is taken and settled. -/

namespace Sys2Proof.Proofs

open Sys2Proof Sys2Proof.Machine Sys2Proof.Claims

/-! ## Slots -/

theorem ok_of_received {x : Chan} {w : Work} (hx : x.ok params = true) (h : Received x w) :
    w.ch.ok params = true := by
  obtain ⟨hvalid, hcfg, heng, hrange, hsized, htx, hrx⟩ := (chan_ok_iff x).mp hx
  obtain ⟨hsame, hcfg', hvalid', -, -, -, hwell⟩ := h
  obtain ⟨heng', hsized', hrx'⟩ := hwell ⟨heng, hsized, hrx⟩
  obtain ⟨hrange', htx'⟩ := txOk_of_sameTransmit hsame
  exact (chan_ok_iff _).mpr ⟨hvalid'.trans hvalid, hcfg'.symm ▸ hcfg, heng', hrange'.trans hrange, hsized',
    htx'.trans htx, hrx'⟩

theorem ok_of_transmitted {x : Chan} {w : Work} (hx : x.ok params = true) (h : Transmitted x w) :
    w.ch.ok params = true := by
  obtain ⟨hvalid, hcfg, heng, hrange, hsized, htx, hrx⟩ := (chan_ok_iff x).mp hx
  obtain ⟨hsame, hcfg', hvalid', -, -, hwell⟩ := h
  obtain ⟨heng', hrange', hsized', htx'⟩ := hwell ⟨heng, hrange, hsized, htx⟩
  exact (chan_ok_iff _).mpr ⟨hvalid'.trans hvalid, hcfg'.symm ▸ hcfg, heng', hrange', hsized', htx',
    (rxIdleOk_of_sameReceive hsame).trans hrx⟩

theorem init_ok : (Chan.init params).ok params = true :=
  (chan_ok_iff _).mpr ⟨rfl, rfl, rfl,
    (inRange_iff _).mpr ⟨Nat.zero_lt_succ _, Nat.zero_lt_succ _, Nat.zero_lt_succ _, Nat.zero_lt_succ _⟩,
    (sized_iff _).mpr ⟨zeros_length 225, zeros_length 225, zeros_length 27, zeros_length 9⟩, rfl, rfl⟩

/-- A slot that is valid is one of the array's. -/
theorem ok_of_valid {s : State} {c : Nat} (h : chansOk params s.chans = true) (hvalid : (s.chan params c).valid = true) :
    c < params.nch ∧ (s.chan params c).ok params = true :=
  chansOk_listed h (State.listed_of_valid hvalid)

/-- A write of a well slot below NCH. -/
theorem chansOk_setChan {s : State} {c : Nat} {x : Chan} (h : chansOk params s.chans = true) (hc : c < params.nch)
    (hx : x.ok params = true) : chansOk params (s.setChan params c x).chans = true := by
  rw [State.setChan_valid ((chan_ok_iff x).mp hx).1]
  exact chansOk_mapPut h hc hx

/-- What CHINIT, CHFREE and CHCFG write keeps the array in order; CHFREE takes the slot out of it. -/
theorem chansOk_slotWrite {s : State} {ch : BitVec 16} {i : Instr} {x : Chan} (h : chansOk params s.chans = true)
    (hwrite : SlotWrite s ch i x) : chansOk params (s.setChan params ch.toNat x).chans = true := by
  rcases hwrite with ⟨hch, -, rfl⟩ | ⟨-, -, rfl⟩ | ⟨sys, srcId, dstId, slot, algoId, keyId, hslot, ⟨hch, hvalid⟩, -, -,
    rfl⟩
  · exact chansOk_setChan h hch init_ok
  · have hchans : (s.setChan params ch.toNat (Chan.reset params)).chans = mapDel s.chans ch.toNat := by
      delta State.setChan
      dsimp only
      rw [if_pos rfl]
    rw [hchans]
    exact chansOk_mapDel h
  · refine chansOk_setChan h hch ((chan_ok_iff _).mpr ?_)
    obtain ⟨-, -, hrest⟩ := (chan_ok_iff _).mp (ok_of_valid h hvalid).2
    refine ⟨hvalid, ?_, hrest⟩
    rcases hslot with rfl | rfl <;> rfl

/-- The work that an instruction commits on a valid slot. -/
theorem chansOk_commit {s : State} {c : Nat} {w : Work} (h : chansOk params s.chans = true)
    (hvalid : (s.chan params c).valid = true)
    (hw : Received (s.chan params c) w ∨ Transmitted (s.chan params c) w) :
    chansOk params (s.commit params c w).chans = true := by
  obtain ⟨hc, hok⟩ := ok_of_valid h hvalid
  refine chansOk_setChan h hc ?_
  rcases hw with hw | hw
  · exact ok_of_received hok hw
  · exact ok_of_transmitted hok hw

theorem valid_of_inboundWork {s : State} {c : Nat} {i : Instr} {w : Work} (h : InboundWork s c i w) :
    (s.chan params c).valid = true := by
  rcases h with ⟨_, _, _, hreach, -, -⟩ | ⟨_, _, _, _, hreach, -, -⟩ | ⟨_, hvalid, -, -⟩
  · exact hreach.1
  · exact hreach.1.1
  · exact hvalid

/-! ## Instructions -/

/-- The channel array and the key store are in order, and every presented command's next channel exists. -/
def StoresOk (s : State) : Prop := chansOk params s.chans = true ∧ keysOk s.keys = true ∧ portOk params s.port = true

theorem blockInv_iff (s : State) : BlockInv s ↔ StoresOk s ∧ s.turn = 0 := by
  delta BlockInv State.ok StoresOk
  simp only [Bool.and_eq_true, decide_eq_true_iff, and_assoc]

/-- Every instruction keeps the three stores in order. -/
theorem exec_storesOk {i : Instr} {s t : State} (h : StoresOk s) (hexec : exec i s = .next t) : StoresOk t := by
  obtain ⟨hchans, hkeys, hport⟩ := h
  rcases exec_cases hexec with ⟨-, ⟨r, op, rfl⟩ | ⟨u, hstep, rfl⟩⟩ | ⟨-, ⟨r, ch, op, rfl⟩ | ⟨-, rfl⟩ |
    ⟨algId, keyId, key, hne, hlen, -, rfl⟩ | ⟨ch, x, hwrite, rfl⟩ | ⟨ch, w, hok, hwork, rfl⟩⟩
  · exact ⟨hchans, hkeys, hport⟩
  · rcases hstep with rfl | ⟨r, streamId, rfl⟩ | ⟨w, hwork, rfl⟩
    · exact ⟨hchans, hkeys, hport⟩
    · exact ⟨hchans, hkeys, hport⟩
    · exact ⟨chansOk_commit hchans (valid_of_inboundWork hwork) (.inl (inboundWork_received hwork)), hkeys, hport⟩
  · exact ⟨hchans, hkeys, hport⟩
  · exact ⟨rfl, rfl, hport⟩
  · exact ⟨hchans, keysOk_mapPut hkeys (List.length_pos_of_ne_nil hne) hlen, hport⟩
  · exact ⟨chansOk_slotWrite hchans hwrite, hkeys, hport⟩
  · exact ⟨chansOk_commit hchans hok.2 (.inr (commandWork_transmitted hwork)), hkeys, hport⟩

/-! ## Steps -/

theorem portOk_iff (m : List PortEntry) : portOk params m = true ↔ ∀ e ∈ m, e.next < params.nch := by
  delta portOk
  simp only [List.all_eq_true, decide_eq_true_iff]

/-- Taking a command off the port. -/
theorem fetch_storesOk {s s1 : State} {k : Nat} {e : PortEntry} (h : StoresOk s)
    (hfetch : fetch params s = some (k, e, s1)) : StoresOk s1 := by
  obtain ⟨hchans, hkeys, hport⟩ := h
  rcases fetch_cases params s with ⟨-, hnone⟩ | ⟨j, a, -, -, hsome⟩
  · rw [hnone] at hfetch
    cases hfetch
  · obtain ⟨-, -, rfl⟩ : j = k ∧ a = e ∧ _ = s1 := by simpa using hsome.symm.trans hfetch
    exact ⟨hchans, hkeys, (portOk_iff _).mpr fun b hb => (portOk_iff _).mp hport b (List.mem_of_mem_eraseIdx hb)⟩

/-- A command that stands on the port again has its next step on a channel below NCH. -/
theorem settle_blockInv (k : Nat) (e : PortEntry) (i : Instr) {t : State} (h : StoresOk t) :
    BlockInv (settle params k e i t) := by
  obtain ⟨hchans, hkeys, hport⟩ := h
  rcases settle_cases params k e i t with ⟨-, -, hlt, hsettle⟩ | ⟨-, hsettle⟩ <;> rw [hsettle, blockInv_iff]
  · refine ⟨⟨hchans, hkeys, (portOk_iff _).mpr fun b hb => ?_⟩, rfl⟩
    rcases List.eq_or_mem_of_mem_insertIdx hb with rfl | hb
    · exact hlt
    · exact (portOk_iff _).mp hport b hb
  · exact ⟨⟨hchans, hkeys, hport⟩, rfl⟩

/-- Settles O51: the stores stay in order while a command is taken, carried out and settled, and settling sets `turn`
back. -/
theorem stepKeepsInvariant : Obligations.StepKeepsInvariant := by
  intro s t hinv hstep
  obtain ⟨hstores, -⟩ := (blockInv_iff s).mp hinv
  rcases step_cases s with ⟨-, hwait⟩ | ⟨k, e, s1, hfetch, ⟨r, -, hrefuse⟩ | ⟨i, -, hsettle⟩⟩
  · obtain rfl : s = t := Host.Outcome.next.inj (hwait.symm.trans hstep)
    exact hinv
  · obtain rfl : refuseUndecoded r e s1 = t := Host.Outcome.next.inj (hrefuse.symm.trans hstep)
    have hs1 : StoresOk s1 := fetch_storesOk hstores hfetch
    exact (blockInv_iff _).mpr ⟨hs1, rfl⟩
  · obtain ⟨u, hexec⟩ := nothingStopsTheBlock.1 i s1
    obtain rfl : settle params k e i u = t := Host.Outcome.next.inj ((hsettle u hexec).symm.trans hstep)
    exact settle_blockInv k e i (exec_storesOk (fetch_storesOk hstores hfetch) hexec)

end Sys2Proof.Proofs
end

