-- ==== Sys2Proof/Proofs/Recovery.lean ====
section
/-! PROOFS. A codeword processed twice (41_crypto.md R148). An engine that is clear or has a keystream moves in the same
way whatever it processes, and what it adds to a codeword depends on its seed, its position and the role alone; so two
turns of equal length meet the codeword with the same window, and exclusive-or undoes itself. -/

namespace Sys2Proof.Proofs

open Sys2Proof Sys2Proof.Machine Sys2Proof.Claims

/-! ## Engines that need no draw -/

/-- The engine is clear or has a keystream. -/
def Keyed (e : Engine) : Prop := isClear params e.algoId e.keyId = true ∨ ∃ ks, e.ks = .bytes ks

/-- The engine after one codeword. -/
def stepped (e : Engine) : Engine :=
  if isClear params e.algoId e.keyId then e else { e with ksPos := nextKsPos e.ksPos }

theorem stepped_keyed {e : Engine} (h : Keyed e) : Keyed (stepped e) := by
  delta stepped
  split
  · exact h
  · exact h

theorem iterate_stepped_keyed {e : Engine} (n : Nat) (h : Keyed e) : Keyed (stepped^[n] e) := by
  induction n generalizing e with
  | zero => exact h
  | succ n ih => exact ih (stepped_keyed h)

/-- The engine moves in the same way whatever the codeword, its role and the draws. -/
theorem applied_eng (e : Engine) (role : Role) (draws : Nat) (cw : Bytes) :
    (applied e role draws cw).eng = stepped e := by
  cases hclear : isClear params e.algoId e.keyId with
  | true =>
    rw [applied_of_clear role draws cw hclear]
    exact (if_pos hclear).symm
  | false =>
    have hstep : stepped e = { e with ksPos := nextKsPos e.ksPos } := if_neg (ne_true_of_eq_false hclear)
    cases hks : e.ks with
    | undef => exact (congrArg Applied.eng (applied_of_undef role draws cw hclear hks)).trans hstep.symm
    | bytes ks => exact (congrArg Applied.eng (applied_of_bytes role draws cw hclear hks)).trans hstep.symm

/-- The answer to an answer is the codeword, at whatever counts of draws; and it has the codeword's length. -/
theorem applied_twice {e : Engine} (role : Role) (d d' : Nat) {cw : Bytes} (h : Keyed e)
    (hlen : cw.length = params.imbeLen) :
    (applied e role d cw).out.length = params.imbeLen ∧
      (applied e role d' (applied e role d cw).out).out = cw := by
  cases hclear : isClear params e.algoId e.keyId with
  | true =>
    rw [applied_of_clear role d cw hclear, applied_of_clear role d' cw hclear]
    exact ⟨hlen, rfl⟩
  | false =>
    rcases h with h | ⟨ks, hks⟩
    · exact absurd h (ne_true_of_eq_false hclear)
    · rw [applied_of_bytes role d cw hclear hks, applied_of_bytes role d' _ hclear hks]
      refine ⟨?_, xorBytes_twice _ _ ?_⟩
      · rw [xorBytes_length, readAt_length, hlen, min_self]
      · rw [readAt_length, hlen]

/-- In the clear or with a key loaded, a prepare leaves an engine that the key store alone determines. -/
theorem exists_seed {s : State} {algId : BitVec 8} {keyId : BitVec 16} (mi : Bytes)
    (h : clear algId keyId = true ∨ algId ∈ params.supportedAlgs ∧ keyOf s.keys algId keyId ≠ none) :
    ∃ e, Keyed e ∧ ∀ (u : State), u.keys = s.keys → ∀ c e' noKey, (seedOf u c algId keyId mi e' noKey).eng = e := by
  cases hclear : isClear params algId keyId with
  | true =>
    refine ⟨seedWith algId keyId mi (.bytes []), .inl hclear, fun u _ c e' noKey => ?_⟩
    rw [seedOf_of_clear u c mi e' noKey hclear]
  | false =>
    rcases h with h | ⟨hsup, hkey⟩
    · exact absurd h (ne_true_of_eq_false hclear)
    · obtain ⟨key, hkey⟩ := Option.ne_none_iff_exists'.mp hkey
      refine ⟨seedWith algId keyId mi (.bytes (params.keystream algId key mi)), .inr ⟨_, rfl⟩,
        fun u hkeys c e' noKey => ?_⟩
      rw [seedOf_of_key u c mi e' noKey hclear ((supported_iff_mem algId).mpr hsup) (hkeys ▸ hkey)]

/-! ## Turns of codewords -/

/-- No channel was made valid or freed, and no key was loaded. -/
def SameStores (s t : State) : Prop :=
  t.keys = s.keys ∧ ∀ d, (t.chan params d).valid = (s.chan params d).valid

theorem sameStores_trans {s t u : State} (h : SameStores s t) (h' : SameStores t u) : SameStores s u :=
  ⟨h'.1.trans h.1, fun d => (h'.2 d).trans (h.2 d)⟩

theorem channelOk_of_sameStores {s t : State} {ch : BitVec 16} (h : SameStores s t) (hok : ChannelOk s ch) :
    ChannelOk t ch := ⟨hok.1, (h.2 _).trans hok.2⟩

/-- The step's own slot stays valid, and no other is written. -/
theorem sameStores_stepEnds {s : State} {c : Nat} {w : Work} (h : w.ch.valid = (s.chan params c).valid)
    (hvalid : (s.chan params c).valid = true) : SameStores s (stepEnds s c w) := by
  rw [← commit_eq_stepEnds (K := params) s c (h.trans hvalid)]
  refine ⟨rfl, fun d => ?_⟩
  rw [State.chan_commit]
  split
  case isTrue hd => exact hd ▸ h
  case isFalse => rfl

/-- The role operand of a role. -/
def roleByteOf (r : Role) : BitVec 8 := if r = .ldu1 then 0 else 1

theorem roleByteOf_legal (r : Role) : roleByteOf r = 0 ∨ roleByteOf r = 1 := by
  cases r
  · exact .inl rfl
  · exact .inr rfl

theorem roleOf_roleByteOf (r : Role) : roleOf (roleByteOf r) = r := by cases r <;> rfl

/-- One codeword: the engine moves, and the answer is the last on RSP. -/
theorem exec_cproc_step {s : State} {ch : BitVec 16} (role : Role) {cw : Bytes} (hlen : cw.length = params.imbeLen)
    (h : ChannelOk s ch) :
    ∃ t, exec (Instr.cproc ch (roleByteOf role) cw) s = .next t ∧ SameStores s t ∧
      (t.chan params ch.toNat).eng = stepped (s.chan params ch.toNat).eng ∧
      t.rsp.getLast? = some { ch := ch, op := 0x11,
                              bytes := (applied (s.chan params ch.toNat).eng role s.draws cw).out } := by
  refine ⟨stepEnds s ch.toNat (cprocEnds s ch.toNat role cw), ?_, sameStores_stepEnds rfl h.2, ?_, ?_⟩
  · rw [exec_cproc, cproc_of_ChannelOk hlen (roleByteOf_legal role) h, roleOf_roleByteOf]
  · rw [chan_stepEnds_same]
    exact applied_eng ..
  · exact (List.getLast?_concat ..).trans (by rw [chId_toNat])

/-- A list of codewords moves the engine once for each. -/
theorem runAll_cproc {s : State} {ch : BitVec 16} {fed : List (Role × Bytes)}
    (hlen : ∀ f ∈ fed, f.2.length = params.imbeLen) (h : ChannelOk s ch) :
    ∃ t, runAll (fed.map fun f => Instr.cproc ch (roleByteOf f.1) f.2) s = .next t ∧ SameStores s t ∧
      (t.chan params ch.toNat).eng = stepped^[fed.length] (s.chan params ch.toNat).eng := by
  induction fed generalizing s with
  | nil => exact ⟨s, rfl, ⟨rfl, fun _ => rfl⟩, rfl⟩
  | cons f fed ih =>
    obtain ⟨t, hexec, hsame, heng, -⟩ := exec_cproc_step f.1 (hlen f List.mem_cons_self) h
    obtain ⟨u, hrun, hsame', heng'⟩ := ih (fun g hg => hlen g (List.mem_cons_of_mem f hg))
      (channelOk_of_sameStores hsame h)
    refine ⟨u, (runAll_cons _ hexec).trans hrun, sameStores_trans hsame hsame', ?_⟩
    rw [heng', heng]
    rfl

/-- A prepare leaves its seed's engine. -/
theorem exec_cprep_step {s : State} {ch : BitVec 16} (algId : BitVec 8) (keyId : BitVec 16) {mi : Bytes}
    (hmi : mi.length = 9) (h : ChannelOk s ch) :
    ∃ t, exec (Instr.cprep ch algId keyId mi) s = .next t ∧ SameStores s t ∧ (t.chan params ch.toNat).eng =
      (seedOf s ch.toNat algId keyId mi (s.chan params ch.toNat).eng (s.chan params ch.toNat).cs.noKey).eng := by
  refine ⟨_, (cprepSeedsEngine s ch algId keyId mi hmi).2 h, sameStores_stepEnds rfl h.2, ?_⟩
  rw [chan_stepEnds_same]

/-- A whole turn: a prepare, a list of codewords, and one more, whose answer is the last on RSP. -/
theorem runAll_turn {s : State} {ch : BitVec 16} (algId : BitVec 8) (keyId : BitVec 16) {mi : Bytes}
    {fed : List (Role × Bytes)} (role : Role) {cw : Bytes} (hmi : mi.length = 9)
    (hfed : ∀ f ∈ fed, f.2.length = params.imbeLen) (hlen : cw.length = params.imbeLen) (h : ChannelOk s ch) :
    ∃ t draws, runAll (Instr.cprep ch algId keyId mi :: ((fed.map fun f => Instr.cproc ch (roleByteOf f.1) f.2) ++
        [Instr.cproc ch (roleByteOf role) cw])) s = .next t ∧ SameStores s t ∧
      t.rsp.getLast? = some { ch := ch, op := 0x11, bytes := (applied (stepped^[fed.length]
        (seedOf s ch.toNat algId keyId mi (s.chan params ch.toNat).eng (s.chan params ch.toNat).cs.noKey).eng)
          role draws cw).out } := by
  obtain ⟨u, hprep, hsame, heng⟩ := exec_cprep_step algId keyId hmi h
  obtain ⟨v, hrun, hsame', heng'⟩ := runAll_cproc hfed (channelOk_of_sameStores hsame h)
  have hsame'' := sameStores_trans hsame hsame'
  obtain ⟨t, hlast, hsame3, -, hrsp⟩ := exec_cproc_step role hlen (channelOk_of_sameStores hsame'' h)
  refine ⟨t, v.draws, ?_, sameStores_trans hsame'' hsame3, ?_⟩
  · rw [runAll_cons _ hprep, runAll_append _ hrun, runAll_cons _ hlast, runAll_nil]
  · rw [hrsp, heng', heng]

/-- Settles O19: both turns meet their last codeword with the engine of the same seed moved equally often. -/
theorem processingTwiceRecovers : Obligations.ProcessingTwiceRecovers := by
  intro s a b algId keyId mi fedA fedB role cw roleByte turnIn ha hb hmi hcount hfed hlen hkeys
  obtain ⟨e, hkeyed, hseed⟩ := exists_seed (s := s) mi hkeys
  have hafter : Keyed (stepped^[fedB.length] e) := iterate_stepped_keyed fedB.length hkeyed
  obtain ⟨t, d, hrunA, hsame, hrspA⟩ := runAll_turn (fed := fedA) algId keyId role hmi
    (fun f hf => hfed f (List.mem_append_left _ hf)) hlen ha
  rw [hseed s rfl, hcount] at hrspA
  obtain ⟨hout, -⟩ := applied_twice role d d hafter hlen
  obtain ⟨u, d', hrunB, -, hrspB⟩ := runAll_turn (fed := fedB) algId keyId role hmi
    (fun f hf => hfed f (List.mem_append_right _ hf)) hout (channelOk_of_sameStores hsame hb)
  rw [hseed t hsame.1, (applied_twice role d d' hafter hlen).2] at hrspB
  exact ⟨t, u, _, hrunA, hrspA, hrunB, hrspB⟩

end Sys2Proof.Proofs
end

