-- ==== Sys2Proof/Proofs/Counting.lean ====
section
/-! PROOFS. The numbering of a call's messages (44_sequencer.md R216, R221). What one command sends on the channel is
numbered from `pktSeq` on and leaves `pktSeq` behind the last one; numbered pieces join up over a run. -/

namespace Sys2Proof.Proofs

open Sys2Proof Sys2Proof.Machine Sys2Proof.Claims

/-! ## Numbered messages -/

/-- The messages carry the stream id and the sequences p, p + 1, ... modulo SEQ_MOD; the next one is q. -/
def Numbered (id : BitVec 32) (p : Nat) (sent : List NetRec) (q : Nat) : Prop :=
  (∀ (k : Nat) (r : NetRec), sent[k]? = some r → r.sequence.toNat = (p + k) % params.seqMod ∧ r.streamId = id) ∧
    q = (p + sent.length) % params.seqMod

section Numbered

variable {id : BitVec 32} {p q : Nat}

theorem numbered_nil (hp : p < params.seqMod) : Numbered id p [] p :=
  ⟨fun _ _ h => (by cases h), (Nat.mod_eq_of_lt hp).symm⟩

theorem numbered_singleton {v : BitVec 16} {r : NetRec} (hp : v.toNat < params.seqMod) (hseq : r.sequence = v)
    (hid : r.streamId = id) : Numbered id v.toNat [r] (seqAfter v).toNat := by
  refine ⟨fun k r' h => ?_, seqAfter_toNat v⟩
  obtain ⟨rfl, rfl⟩ : k = 0 ∧ r = r' := by simpa [List.getElem?_singleton] using h
  exact ⟨by rw [hseq, Nat.add_zero, Nat.mod_eq_of_lt hp], hid⟩

theorem numbered_append {a b : List NetRec} {t : Nat} (ha : Numbered id p a q) (hb : Numbered id q b t) :
    Numbered id p (a ++ b) t := by
  obtain ⟨hfirst, rfl⟩ := ha
  obtain ⟨hsecond, rfl⟩ := hb
  constructor
  · intro k r hr
    by_cases hk : k < a.length
    · rw [List.getElem?_append_left hk] at hr
      exact hfirst k r hr
    · rw [List.getElem?_append_right (Nat.le_of_not_lt hk)] at hr
      obtain ⟨hseq, hid⟩ := hsecond _ r hr
      refine ⟨?_, hid⟩
      rw [hseq, Nat.mod_add_mod]
      congr 1
      omega
  · rw [Nat.mod_add_mod, List.length_append, Nat.add_assoc]

theorem numbered_lt {a : List NetRec} (h : Numbered id p a q) : q < params.seqMod := by
  obtain ⟨-, rfl⟩ := h
  exact Nat.mod_lt _ (lt_of_lt_of_le two_pos seqMod_ge)

/-- Fewer than SEQ_MOD apart, numbers differ. -/
theorem sequence_ne_of_numbered {a : List NetRec} {j k : Nat} {r r' : NetRec} (h : Numbered id 0 a q)
    (hr : a[j]? = some r) (hr' : a[k]? = some r') (hjk : j < k) (hnear : k < j + params.seqMod) :
    r.sequence ≠ r'.sequence := by
  intro heq
  have hmod : j % params.seqMod = k % params.seqMod := by
    have hj := (h.1 j r hr).1
    have hk := (h.1 k r' hr').1
    rw [Nat.zero_add] at hj hk
    rw [← hj, ← hk, heq]
  have hzero : (k - j) % params.seqMod = 0 := Nat.sub_mod_eq_zero_of_mod_eq hmod.symm
  rw [Nat.mod_eq_of_lt (by omega)] at hzero
  omega

end Numbered

/-- The messages of a channel. -/
def ownMessages (c : Nat) (l : List NetRec) : List NetRec := l.filter fun r => r.ch == BitVec.ofNat 16 c

/-- Every message is the channel's. -/
def Stamped (c : Nat) (l : List NetRec) : Prop := ∀ r ∈ l, r.ch = BitVec.ofNat 16 c

theorem stamped_nil (c : Nat) : Stamped c [] := fun _ h => absurd h List.not_mem_nil

theorem stamped_singleton {c : Nat} {r : NetRec} (h : r.ch = BitVec.ofNat 16 c) : Stamped c [r] := by
  intro r' hr'
  rw [List.mem_singleton.mp hr']
  exact h

theorem stamped_append {c : Nat} {a b : List NetRec} (ha : Stamped c a) (hb : Stamped c b) : Stamped c (a ++ b) :=
  fun r hr => (List.mem_append.mp hr).elim (ha r) (hb r)

theorem ownMessages_of_stamped {c : Nat} {l : List NetRec} (h : Stamped c l) : ownMessages c l = l :=
  List.filter_eq_self.mpr fun r hr => beq_iff_eq.mpr (h r hr)

theorem ownMessages_of_other {ch ch' : BitVec 16} {l : List NetRec} (h : Stamped ch'.toNat l) (hne : ch' ≠ ch) :
    ownMessages ch.toNat l = [] := by
  refine List.filter_eq_nil_iff.mpr fun r hr => ?_
  have hr' := h r hr
  rw [BitVec.ofNat_toNat, BitVec.setWidth_eq] at hr'
  rw [BitVec.ofNat_toNat, BitVec.setWidth_eq, hr', beq_iff_eq]
  exact hne

/-! ## What one command sends -/

/-- What a step's work sends from slot x: messages of channel c with the slot's stream id, numbered from its `pktSeq`. -/
def Sends (c : Nat) (x : Chan) (w : Work) : Prop :=
  Stamped c w.net ∧ w.ch.cs.txStreamId = x.cs.txStreamId ∧
    (x.cs.pktSeq.toNat < params.seqMod → Numbered x.cs.txStreamId x.cs.pktSeq.toNat w.net w.ch.cs.pktSeq.toNat)

/-- A work that sends nothing and keeps the two registers. -/
theorem sends_nothing {c : Nat} {x : Chan} {w : Work} (hnet : w.net = [])
    (hid : w.ch.cs.txStreamId = x.cs.txStreamId) (hseq : w.ch.cs.pktSeq = x.cs.pktSeq) : Sends c x w := by
  refine ⟨hnet ▸ stamped_nil c, hid, fun hp => ?_⟩
  rw [hnet, hseq]
  exact numbered_nil hp

/-- A work that sends one message. -/
theorem sends_one {c : Nat} {x : Chan} {w : Work} {r : NetRec} (hnet : w.net = [r]) (hch : r.ch = BitVec.ofNat 16 c)
    (hrseq : r.sequence = x.cs.pktSeq) (hrid : r.streamId = x.cs.txStreamId)
    (hid : w.ch.cs.txStreamId = x.cs.txStreamId) (hseq : w.ch.cs.pktSeq = seqAfter x.cs.pktSeq) : Sends c x w := by
  refine ⟨hnet ▸ stamped_singleton hch, hid, fun hp => ?_⟩
  rw [hnet, hseq]
  exact numbered_singleton hp hrseq hrid

theorem txp25Ends_sends (s : State) (c : Nat) (cw : Bytes) : Sends c (s.chan params c) (txp25Ends s c cw) := by
  by_cases h8 : (s.chan params c).cs.p25FrameIndex.toNat = 8
  · exact sends_one (if_pos h8) rfl rfl rfl rfl (if_pos (Or.inl h8))
  · by_cases h17 : (s.chan params c).cs.p25FrameIndex.toNat = 17
    · exact sends_one ((if_neg h8).trans (if_pos h17)) rfl rfl rfl rfl (if_pos (Or.inr h17))
    · exact sends_nothing ((if_neg h8).trans (if_neg h17)) rfl (if_neg (not_or_intro h8 h17))

theorem txdmrEnds_sends (s : State) (c : Nat) (cw : Bytes) : Sends c (s.chan params c) (txdmrEnds s c cw) := by
  rw [← txdmrWork_eq]
  by_cases hfill : (s.work params c).ch.cs.ambeCount.toNat < 2
  · rw [txdmrWork_of_filling c cw hfill]
    exact sends_nothing rfl rfl rfl
  · rw [txdmrWork_of_full c cw hfill]
    by_cases hfirst : (dmrStore params cw (s.work params c)).ch.cs.dmrSeqNo = 0
    · rw [dmrHeader_of_first c hfirst, dmrVoice_eq]
      refine ⟨stamped_append (stamped_singleton rfl) (stamped_singleton rfl), rfl, fun hp => ?_⟩
      exact numbered_append (numbered_singleton hp rfl rfl) (numbered_singleton (seqAfter_lt _) rfl rfl)
    · rw [dmrHeader_of_later c hfirst, dmrVoice_eq]
      exact sends_one rfl rfl rfl rfl rfl rfl

/-- Whatever a command's work sends is stamped with its channel. -/
theorem stamped_of_commandWork {s : State} {ch : BitVec 16} {i : Instr} {w : Work} (h : CommandWork s ch i w) :
    Stamped ch.toNat w.net := by
  rcases h with ⟨algId, keyId, mi, -, -, rfl⟩ | ⟨role, cw, -, rfl⟩ | ⟨-, rfl⟩ | ⟨-, -, -, rfl⟩ | ⟨cw, -, -, rfl⟩ |
    ⟨cw, -, -, rfl⟩ | ⟨cause, -, -, rfl⟩ | ⟨cause, -, -, rfl⟩
  · rw [cprepWork_eq]
    exact stamped_nil _
  · rw [cprocWork_eq]
    exact stamped_nil _
  · rw [ccycleWork_eq]
    exact stamped_nil _
  · exact stamped_nil _
  · rw [txp25Work_eq]
    exact (txp25Ends_sends s _ cw).1
  · rw [txdmrWork_eq]
    exact (txdmrEnds_sends s _ cw).1
  · exact stamped_singleton rfl
  · exact stamped_singleton rfl

/-- On a channel in a call, a command that does not interrupt it numbers what it sends. -/
theorem commandWork_sends {s : State} {ch : BitVec 16} {i : Instr} {w : Work} (h : CommandWork s ch i w)
    (hcall : (s.chan params ch.toNat).cs.txStreamId ≠ 0) (hi : ¬Interrupts ch.toNat i) :
    Sends ch.toNat (s.chan params ch.toNat) w := by
  rcases h with ⟨algId, keyId, mi, -, -, rfl⟩ | ⟨role, cw, -, rfl⟩ | ⟨-, rfl⟩ | ⟨-, hidle, -, -⟩ | ⟨cw, -, -, rfl⟩ |
    ⟨cw, -, -, rfl⟩ | ⟨cause, -, rfl, -⟩ | ⟨cause, -, rfl, -⟩
  · rw [cprepWork_eq]
    exact sends_nothing rfl rfl rfl
  · rw [cprocWork_eq]
    exact sends_nothing rfl rfl rfl
  · rw [ccycleWork_eq]
    exact sends_nothing rfl rfl rfl
  · exact absurd hidle hcall
  · rw [txp25Work_eq]
    exact txp25Ends_sends s _ cw
  · rw [txdmrWork_eq]
    exact txdmrEnds_sends s _ cw
  · exact (hi (.inr (.inr ⟨ch, cause, rfl, .inl rfl⟩))).elim
  · exact (hi (.inr (.inr ⟨ch, cause, rfl, .inr rfl⟩))).elim

/-! ## Runs -/

/-- From s to t the call on channel ch goes on, and its messages are numbered from s's `pktSeq` to t's. -/
def GoesOn (ch : BitVec 16) (s t : State) : Prop :=
  InCall t ch ∧ (t.chan params ch.toNat).cs.txStreamId = (s.chan params ch.toNat).cs.txStreamId ∧
    ∃ new, t.netout = s.netout ++ new ∧ Numbered (s.chan params ch.toNat).cs.txStreamId
      (s.chan params ch.toNat).cs.pktSeq.toNat (ownMessages ch.toNat new) (t.chan params ch.toNat).cs.pktSeq.toNat

section Steps

variable {ch : BitVec 16} {s t : State} (hcall : InCall s ch)
  (hseq : (s.chan params ch.toNat).cs.pktSeq.toNat < params.seqMod)
include hcall hseq

/-- Nothing of the call or of NETOUT is written. -/
theorem goesOn_of_unwritten (hnet : t.netout = s.netout)
    (htx : SameTransmit (s.chan params ch.toNat) (t.chan params ch.toNat))
    (hcfg : (t.chan params ch.toNat).cfg = (s.chan params ch.toNat).cfg)
    (hvalid : (t.chan params ch.toNat).valid = (s.chan params ch.toNat).valid) : GoesOn ch s t := by
  obtain ⟨⟨⟨hch, hok⟩, hset⟩, hopen⟩ := hcall
  obtain ⟨hid, hpkt, -⟩ := htx
  refine ⟨⟨⟨⟨hch, hvalid.trans hok⟩, hcfg ▸ hset⟩, hid ▸ hopen⟩, hid, [], by rw [hnet, List.append_nil], ?_⟩
  rw [hpkt]
  exact numbered_nil hseq

/-- The slot is not written, and no message of the channel is put out. -/
theorem goesOn_of_elsewhere {new : List NetRec} (hnet : t.netout = s.netout ++ new)
    (hother : ownMessages ch.toNat new = []) (hchan : t.chan params ch.toNat = s.chan params ch.toNat) :
    GoesOn ch s t := by
  delta GoesOn InCall Configured ChannelOk
  rw [hchan]
  refine ⟨hcall, rfl, new, hnet, ?_⟩
  rw [hother]
  exact numbered_nil hseq

theorem goesOn_of_same (hnet : t.netout = s.netout) (hchan : t.chan params ch.toNat = s.chan params ch.toNat) :
    GoesOn ch s t :=
  goesOn_of_elsewhere hcall hseq (hnet.trans (List.append_nil _).symm) rfl hchan

/-- A command that does not interrupt the call lets it go on. -/
theorem goesOn_of_exec {i : Instr} (hi : ¬Interrupts ch.toNat i) (hexec : exec i s = .next t) : GoesOn ch s t := by
  rcases exec_cases hexec with ⟨hin, -⟩ | ⟨-, ⟨r, ch', op, rfl⟩ | ⟨rfl, -⟩ | ⟨algId, keyId, key, -, -, -, rfl⟩ |
    ⟨ch', x, hwrite, rfl⟩ | ⟨ch', w, hok, hwork, rfl⟩⟩
  · obtain ⟨hnet, -, -, hchans⟩ := receiveLeavesTransmitSide i s t hin hexec
    obtain ⟨htx, hcfg, hvalid⟩ := hchans ch.toNat
    exact goesOn_of_unwritten hcall hseq hnet htx hcfg hvalid
  · exact goesOn_of_same hcall hseq rfl rfl
  · exact (hi (.inl rfl)).elim
  · exact goesOn_of_same hcall hseq rfl rfl
  · by_cases hsame : ch.toNat = ch'.toNat
    · rcases hwrite with ⟨-, rfl, -⟩ | ⟨-, rfl, -⟩ | ⟨_, _, _, _, _, _, -, -, hidle, -, -⟩
      · exact (hi (.inr (.inl ⟨ch', hsame.symm, .inl rfl⟩))).elim
      · exact (hi (.inr (.inl ⟨ch', hsame.symm, .inr rfl⟩))).elim
      · have hbusy : (s.chan params ch.toNat).inCall = true := (inCall_iff _).mpr (.inl hcall.2)
        rw [← hsame, hbusy] at hidle
        cases hidle
    · exact goesOn_of_same hcall hseq rfl ((State.chan_setChan ..).trans (if_neg hsame))
  · by_cases hsame : ch' = ch
    · subst hsame
      obtain ⟨hstamped, hid, hnumbered⟩ := commandWork_sends hwork hcall.2 hi
      obtain ⟨-, hcfg, hvalid, -, -, -⟩ := commandWork_transmitted hwork
      obtain ⟨⟨⟨hch, hvalid'⟩, hset⟩, hopen⟩ := hcall
      have hchan : (s.commit params ch'.toNat w).chan params ch'.toNat = w.ch :=
        (State.chan_commit ..).trans (if_pos rfl)
      delta GoesOn InCall Configured ChannelOk
      rw [hchan]
      refine ⟨⟨⟨⟨hch, hvalid.trans hvalid'⟩, hcfg ▸ hset⟩, hid ▸ hopen⟩, hid, w.net, rfl, ?_⟩
      rw [ownMessages_of_stamped hstamped]
      exact hnumbered hseq
    · have hne : ch.toNat ≠ ch'.toNat := fun h => hsame (BitVec.eq_of_toNat_eq h.symm)
      exact goesOn_of_elsewhere hcall hseq rfl (ownMessages_of_other (stamped_of_commandWork hwork) hsame)
        ((State.chan_commit ..).trans (if_neg hne))

end Steps

/-- So does a run of such commands. -/
theorem goesOn_of_run {ch : BitVec 16} {s : State} {is : List Instr} (hcall : InCall s ch)
    (hseq : (s.chan params ch.toNat).cs.pktSeq.toNat < params.seqMod) (his : ∀ i ∈ is, ¬Interrupts ch.toNat i) :
    ∃ t, runAll is s = .next t ∧ GoesOn ch s t := by
  induction is generalizing s with
  | nil => exact ⟨s, rfl, goesOn_of_same hcall hseq rfl rfl⟩
  | cons i is ih =>
    obtain ⟨u, hexec⟩ := nothingStopsTheBlock.1 i s
    obtain ⟨hcall', hid, new, hnet, hnumbered⟩ := goesOn_of_exec hcall hseq (his i List.mem_cons_self) hexec
    obtain ⟨t, hrun, hcall'', hid', new', hnet', hnumbered'⟩ :=
      ih hcall' (numbered_lt hnumbered) fun j hj => his j (List.mem_cons_of_mem i hj)
    refine ⟨t, (runAll_cons is hexec).trans hrun, hcall'', hid'.trans hid, new ++ new', ?_, ?_⟩
    · rw [hnet', hnet, List.append_assoc]
    · rw [hid] at hnumbered'
      have hsplit : ownMessages ch.toNat (new ++ new') = ownMessages ch.toNat new ++ ownMessages ch.toNat new' :=
        List.filter_append ..
      rw [hsplit]
      exact numbered_append hnumbered hnumbered'

/-- Settles O23: the call's messages are numbered from 0 over the whole run. -/
theorem sequenceCountsMessagesOfCall : Obligations.SequenceCountsMessagesOfCall := by
  intro s ch is hcall hzero his
  have hseq : (s.chan params ch.toNat).cs.pktSeq.toNat = 0 := congrArg BitVec.toNat hzero
  obtain ⟨t, hrun, -, -, new, hnet, hnumbered⟩ :=
    goesOn_of_run hcall (hseq.trans_lt (lt_of_lt_of_le two_pos seqMod_ge)) his
  have hsent : sentBy ch.toNat s t = ownMessages ch.toNat new := by
    delta sentBy
    rw [hnet, List.drop_left]
    rfl
  rw [hseq] at hnumbered
  refine ⟨t, hrun, ?_⟩
  rw [hsent]
  refine ⟨fun k r hr => ?_, fun j k r q hr hq hjk hnear => sequence_ne_of_numbered hnumbered hr hq hjk hnear, ?_⟩
  · obtain ⟨hnumber, hid⟩ := hnumbered.1 k r hr
    exact ⟨by rw [hnumber, Nat.zero_add], hid⟩
  · rw [hnumbered.2, Nat.zero_add]

end Sys2Proof.Proofs
end

