-- ==== Sys2Proof/Proofs/DmrBody.lean ====
section
/-! PROOFS. The body of a DMR voice frame (30_encoding.md R103): two voice halves of 13 bytes and a nibble each, and 48
bits between them. -/

namespace Sys2Proof.Proofs

open Sys2Proof Sys2Proof.Machine Sys2Proof.Claims

/-! ## The two shared bytes -/

/-- The upper nibble of a voice byte with the first four middle bits under it. -/
def firstShared (x : Byte) (v : BitVec 48) : Byte := (x &&& 0xF0 &&& 0xF0) ||| (v.extractLsb' 44 4).setWidth 8

/-- The last four middle bits above the lower nibble of a voice byte. -/
def lastShared (x : Byte) (v : BitVec 48) : Byte := (x &&& 0x0F &&& 0x0F) ||| ((v.extractLsb' 0 4).setWidth 8 <<< 4)

theorem voice_of_shared (x : Byte) (v : BitVec 48) : (firstShared x v &&& 0xF0) ||| (lastShared x v &&& 0x0F) = x := by
  delta firstShared lastShared
  ext i hi
  interval_cases i <;> simp

theorem low_firstShared (x : Byte) (v : BitVec 48) : (firstShared x v).extractLsb' 0 4 = v.extractLsb' 44 4 := by
  delta firstShared
  ext i hi
  interval_cases i <;> simp

theorem high_lastShared (x : Byte) (v : BitVec 48) : (lastShared x v).extractLsb' 4 4 = v.extractLsb' 0 4 := by
  delta lastShared
  ext i hi
  interval_cases i <;> simp

/-! ## The body, part by part -/

section Body

variable (a : Bytes) (v : BitVec 48)

/-- The five whole bytes of the middle. -/
def middleBytes : Bytes := (List.range 5).map fun i => v.extractLsb' (36 - 8 * i) 8

theorem middleBytes_length : (middleBytes v).length = 5 := rfl

theorem bodyLen_eq : dmrBodyLen = 33 := rfl

theorem dmrVoicePlace_length : (dmrVoicePlace a).length = 33 := by
  delta dmrVoicePlace
  simp only [writeAt_length, zeros_length]
  rfl

theorem byteAt_dmrVoicePlace_first : byteAt (dmrVoicePlace a) 13 = byteAt a 13 &&& 0xF0 := by
  delta dmrVoicePlace
  rw [byteAt_writeAt_other _ _ _ _ (by simp), byteAt_writeAt_other _ _ _ _ (by simp),
    byteAt_writeAt_same _ _ _ _ (by simp) (by simp) (by simp [bodyLen_eq])]
  rfl

theorem byteAt_dmrVoicePlace_last : byteAt (dmrVoicePlace a) 19 = byteAt a 13 &&& 0x0F := by
  delta dmrVoicePlace
  rw [byteAt_writeAt_other _ _ _ _ (by simp),
    byteAt_writeAt_same _ _ _ _ (by simp) (by simp) (by simp [bodyLen_eq])]
  rfl

theorem dmrMidInsert_eq : dmrMidInsert (dmrVoicePlace a) v =
    writeAt (writeAt (writeAt (dmrVoicePlace a) 13 [firstShared (byteAt a 13) v]) 14 (middleBytes v)) 19
      [lastShared (byteAt a 13) v] := by
  have hlast : byteAt (writeAt (writeAt (dmrVoicePlace a) 13 [firstShared (byteAt a 13) v]) 14 (middleBytes v)) 19 =
      byteAt a 13 &&& 0x0F := by
    rw [byteAt_writeAt_other _ _ _ _ (by simp [middleBytes_length]), byteAt_writeAt_other _ _ _ _ (by simp),
      byteAt_dmrVoicePlace_last]
  delta dmrMidInsert
  dsimp only
  rw [byteAt_dmrVoicePlace_first]
  change writeAt _ 19 [(byteAt (writeAt (writeAt (dmrVoicePlace a) 13 [firstShared (byteAt a 13) v]) 14
    (middleBytes v)) 19 &&& 0x0F) ||| _] = _
  rw [hlast]
  rfl

theorem dmrMidInsert_length : (dmrMidInsert (dmrVoicePlace a) v).length = 33 := by
  rw [dmrMidInsert_eq, writeAt_length, writeAt_length, writeAt_length, dmrVoicePlace_length]

theorem byteAt_body_first : byteAt (dmrMidInsert (dmrVoicePlace a) v) 13 = firstShared (byteAt a 13) v := by
  rw [dmrMidInsert_eq, byteAt_writeAt_other _ _ _ _ (by simp), byteAt_writeAt_other _ _ _ _ (by simp),
    byteAt_writeAt_same _ _ _ _ (by simp) (by simp) (by simp [dmrVoicePlace_length])]
  rfl

theorem byteAt_body_last : byteAt (dmrMidInsert (dmrVoicePlace a) v) 19 = lastShared (byteAt a 13) v := by
  rw [dmrMidInsert_eq, byteAt_writeAt_same _ _ _ _ (by simp) (by simp) (by simp [dmrVoicePlace_length])]
  rfl

theorem byteAt_body_middle {i : Nat} (h : i < 5) :
    byteAt (dmrMidInsert (dmrVoicePlace a) v) (14 + i) = byteAt (middleBytes v) i := by
  have hlen := middleBytes_length v
  rw [dmrMidInsert_eq, byteAt_writeAt_other _ _ _ _ (by simp; omega),
    byteAt_writeAt_same _ _ _ _ (by omega) (by omega) (by simp [dmrVoicePlace_length]; omega)]
  congr 1
  omega

theorem readAt_body_before : readAt (dmrMidInsert (dmrVoicePlace a) v) 0 13 = readAt a 0 13 := by
  have hwritten := readAt_writeAt_same (zeros dmrBodyLen) 0 (readAt a 0 13) (by simp [bodyLen_eq])
  rw [readAt_length] at hwritten
  rw [dmrMidInsert_eq, readAt_writeAt_other _ _ _ _ _ (by simp), readAt_writeAt_other _ _ _ _ _ (by simp),
    readAt_writeAt_other _ _ _ _ _ (by simp)]
  delta dmrVoicePlace
  rw [readAt_writeAt_other _ _ _ _ _ (by simp), readAt_writeAt_other _ _ _ _ _ (by simp),
    readAt_writeAt_other _ _ _ _ _ (by simp), hwritten]

theorem readAt_body_behind : readAt (dmrMidInsert (dmrVoicePlace a) v) 20 13 = readAt a 14 13 := by
  rw [dmrMidInsert_eq, readAt_writeAt_other _ _ _ _ _ (by simp), readAt_writeAt_other _ _ _ _ _ (by simp [middleBytes_length]),
    readAt_writeAt_other _ _ _ _ _ (by simp)]
  delta dmrVoicePlace
  have hwritten := readAt_writeAt_same (writeAt (writeAt (writeAt (zeros dmrBodyLen) 0 (readAt a 0 13)) 13
    [byteAt a 13 &&& 0xF0]) 19 [byteAt a 13 &&& 0x0F]) 20 (readAt a 14 13) (by simp [bodyLen_eq])
  rw [readAt_length] at hwritten
  exact hwritten

/-- The voice halves come out as they went in. -/
theorem dmrVoiceExtract_dmrMidInsert (h : a.length = 27) :
    dmrVoiceExtract (dmrMidInsert (dmrVoicePlace a) v) = a := by
  delta dmrVoiceExtract
  rw [readAt_body_before, readAt_body_behind, byteAt_body_first, byteAt_body_last, voice_of_shared]
  calc readAt a 0 13 ++ byteAt a 13 :: readAt a 14 13
      = readAt a 0 (13 + 14) := by rw [readAt_add, Nat.zero_add]; rfl
    _ = a := by rw [show 13 + 14 = a.length by omega, readAt_self]

end Body

/-- The seven pieces of the middle put together. -/
theorem extracts_append (v : BitVec 48) :
    v.extractLsb' 44 4 ++ v.extractLsb' 36 8 ++ v.extractLsb' 28 8 ++ v.extractLsb' 20 8 ++ v.extractLsb' 12 8 ++
      v.extractLsb' 4 8 ++ v.extractLsb' 0 4 = v := by
  have join {start len len' : Nat} : v.extractLsb' (start + len) len' ++ v.extractLsb' start len =
      v.extractLsb' start (len' + len) := BitVec.extractLsb'_append_extractLsb'_eq_extractLsb' rfl
  rw [join (start := 36) (len := 8), join (start := 28) (len := 8), join (start := 20) (len := 8),
    join (start := 12) (len := 8), join (start := 4) (len := 8), join (start := 0) (len := 4)]
  exact BitVec.extractLsb'_eq_self

/-- Settles O31: each part of the body is what was written there last, and the shared bytes hold both. -/
theorem middleLeavesVoiceAlone : Obligations.MiddleLeavesVoiceAlone := by
  intro a v hlen b
  refine ⟨dmrMidInsert_length a v, dmrVoiceExtract_dmrMidInsert a v hlen, ?_⟩
  have hmiddle := fun i (hi : i < 5) => byteAt_body_middle a v hi
  rw [show byteAt b 13 = _ from byteAt_body_first a v, show byteAt b 19 = _ from byteAt_body_last a v,
    low_firstShared, high_lastShared, show byteAt b 14 = _ from hmiddle 0 (by decide),
    show byteAt b 15 = _ from hmiddle 1 (by decide), show byteAt b 16 = _ from hmiddle 2 (by decide),
    show byteAt b 17 = _ from hmiddle 3 (by decide), show byteAt b 18 = _ from hmiddle 4 (by decide)]
  exact extracts_append v

end Sys2Proof.Proofs
end

