-- ==== Sys2Proof/Proofs/DmrCall.lean ====
section
/-! PROOFS. A DMR call (43_dmr_framer.md R192): three codewords fill the accumulator and send one voice frame, the first
frame behind the voice header; groups of three follow one another. -/

namespace Sys2Proof.Proofs

open Sys2Proof Sys2Proof.Machine Sys2Proof.Claims

/-! ## The accumulator -/

/-- Three writes of nine bytes make up 27. -/
theorem writeAt_three {buf a b c : Bytes} (hbuf : buf.length = 27) (ha : a.length = 9) (hb : b.length = 9)
    (hc : c.length = 9) : writeAt (writeAt (writeAt buf 0 a) 9 b) 18 c = a ++ (b ++ c) := by
  have hfirst : readAt (writeAt (writeAt (writeAt buf 0 a) 9 b) 18 c) 0 9 = a := by
    rw [readAt_writeAt_other _ _ _ _ _ (by omega), readAt_writeAt_other _ _ _ _ _ (by omega), ← ha]
    exact readAt_writeAt_same _ _ _ (by omega)
  have hsecond : readAt (writeAt (writeAt (writeAt buf 0 a) 9 b) 18 c) 9 9 = b := by
    rw [readAt_writeAt_other _ _ _ _ _ (by omega)]
    have hwritten := readAt_writeAt_same (writeAt buf 0 a) 9 b (by rw [writeAt_length]; omega)
    rwa [hb] at hwritten
  have hthird : readAt (writeAt (writeAt (writeAt buf 0 a) 9 b) 18 c) 18 9 = c := by
    have hwritten := readAt_writeAt_same (writeAt (writeAt buf 0 a) 9 b) 18 c (by simp only [writeAt_length]; omega)
    rwa [hc] at hwritten
  have hself := readAt_self (writeAt (writeAt (writeAt buf 0 a) 9 b) 18 c)
  rw [writeAt_length, writeAt_length, writeAt_length, hbuf] at hself
  rw [← hself, readAt_add _ 0 9 18, readAt_add _ 9 9 9, hfirst, hsecond, hthird]

/-- The accumulator with one more codeword. -/
def filledWith (cs : ChannelState) (cw : Bytes) : ChannelState :=
  { cs with
    ambeBuffer := writeAt cs.ambeBuffer (params.ambeLen * cs.ambeCount.toNat) cw
    ambeCount := cs.ambeCount + 1 }

/-! ## One command -/

section Commands

variable {s : State} {ch : BitVec 16} {cw : Bytes} (hcall : InCall s ch) (hlen : cw.length = params.ambeLen)
include hcall

/-- What the command leaves is read off its work. -/
theorem exec_txdmr_of_ends (hlen : cw.length = params.ambeLen) {w : Work} (hends : txdmrEnds s ch.toNat cw = w)
    (hcfg : w.ch.cfg = (s.chan params ch.toNat).cfg)
    (hid : w.ch.cs.txStreamId = (s.chan params ch.toNat).cs.txStreamId) :
    ∃ t, exec (.txdmr ch cw) s = .next t ∧ InCall t ch ∧ t.netout = s.netout ++ w.net ∧
      t.chan params ch.toNat = w.ch := by
  have hexec := (txdmrTakesCodeword s ch cw hlen).2.2.2 hcall
  have hvalid := txdmrEnds_valid s ch.toNat cw
  have hchan := chan_stepEnds_same s ch.toNat w
  rw [hends] at hexec hvalid
  refine ⟨_, hexec, ?_, rfl, hchan⟩
  obtain ⟨⟨⟨hch, hok⟩, hset⟩, hopen⟩ := hcall
  delta InCall Configured ChannelOk
  rw [hchan, hvalid, hcfg, hid]
  exact ⟨⟨⟨hch, hok⟩, hset⟩, hopen⟩

include hlen

/-- Before the accumulator is full a codeword only goes into it. -/
theorem exec_txdmr_filling (hcount : (s.chan params ch.toNat).cs.ambeCount.toNat < 2) :
    ∃ t, exec (.txdmr ch cw) s = .next t ∧ InCall t ch ∧ t.netout = s.netout ∧
      t.chan params ch.toNat =
        { s.chan params ch.toNat with cs := filledWith (s.chan params ch.toNat).cs cw } := by
  obtain ⟨t, hexec, hcall', hnet, hchan⟩ := exec_txdmr_of_ends hcall hlen (w :=
    { ch := { s.chan params ch.toNat with cs := filledWith (s.chan params ch.toNat).cs cw }
      draws := s.draws, net := [], voc := [], evt := [], rsp := [] }) (if_pos hcount) rfl rfl
  exact ⟨t, hexec, hcall', hnet.trans (List.append_nil _), hchan⟩

/-- The message before the first frame of a call. -/
def headerBefore (c : Nat) (x : Chan) : List NetRec :=
  if x.cs.dmrSeqNo == 0 then [dmrRecord c x .dmrVhdr x.cs.pktSeq 0 none false (params.dmrLcBurst .vhdr (lcOf x))]
  else []

/-- The sequence and the frame number of the next voice frame: the header takes the first of both. -/
def voiceSeq (x : Chan) : BitVec 16 := if x.cs.dmrSeqNo == 0 then seqAfter x.cs.pktSeq else x.cs.pktSeq

def voiceNo (x : Chan) : BitVec 32 := if x.cs.dmrSeqNo == 0 then 1 else x.cs.dmrSeqNo

/-- The codeword that fills the accumulator sends the frame. -/
theorem exec_txdmr_full (hcount : ¬(s.chan params ch.toNat).cs.ambeCount.toNat < 2) :
    ∃ t emb mid, exec (.txdmr ch cw) s = .next t ∧ InCall t ch ∧
      t.netout = s.netout ++ (headerBefore ch.toNat (s.chan params ch.toNat) ++
        [dmrRecord ch.toNat (s.chan params ch.toNat) .dmrVoice (voiceSeq (s.chan params ch.toNat))
          (voiceNo (s.chan params ch.toNat)) (some (s.chan params ch.toNat).cs.dmrFrameIndex)
          ((s.chan params ch.toNat).cs.dmrFrameIndex == 0)
          (dmrMidInsert (dmrVoicePlace (filledWith (s.chan params ch.toNat).cs cw).ambeBuffer) mid)]) ∧
      (t.chan params ch.toNat).cs =
        { (s.chan params ch.toNat).cs with
          embeddedData := emb
          pktSeq := seqAfter (voiceSeq (s.chan params ch.toNat))
          dmrSeqNo := voiceNo (s.chan params ch.toNat) + 1
          dmrFrameIndex := BitVec.ofNat 3 (((s.chan params ch.toNat).cs.dmrFrameIndex.toNat + 1) % 6)
          ambeBuffer := zeros 27
          ambeCount := 0 } := by
  obtain ⟨t, hexec, hcall', hnet, hchan⟩ := exec_txdmr_of_ends hcall hlen (if_neg hcount) rfl rfl
  exact ⟨t, _, _, hexec, hcall', hnet, congrArg Chan.cs hchan⟩

end Commands

/-! ## A group of three -/

/-- The accumulator is empty, and the next voice frame of the call is number k. -/
def AwaitsFrame (id : BitVec 32) (k : Nat) (x : Chan) : Prop :=
  x.cs.txStreamId = id ∧ x.cs.ambeCount = 0 ∧ x.cs.ambeBuffer.length = 27 ∧
    x.cs.dmrFrameIndex.toNat = (k - 1) % 6 ∧ voiceNo x = BitVec.ofNat 32 k ∧ (voiceSeq x).toNat = k % params.seqMod

/-- Voice frame k of a call. -/
def VoiceFrame (id : BitVec 32) (k : Nat) (voice : Bytes) (r : NetRec) : Prop :=
  r.dmrSeq = some (BitVec.ofNat 32 k) ∧ r.sequence.toNat = k % params.seqMod ∧ r.streamId = id ∧ r.kind = .dmrVoice ∧
    r.dmrN = some (BitVec.ofNat 3 ((k - 1) % 6)) ∧ (r.syncFrame = true ↔ (k - 1) % 6 = 0) ∧
    dmrVoiceExtract r.body = voice

/-- From s to t one group went out: what comes before it, and voice frame k; k + 1 is next. -/
def GroupSent (ch : BitVec 16) (id : BitVec 32) (k : Nat) (voice : Bytes) (s t : State) : Prop :=
  InCall t ch ∧ AwaitsFrame id (k + 1) (t.chan params ch.toNat) ∧
    (t.chan params ch.toNat).cs.dmrSeqNo = BitVec.ofNat 32 (k + 1) ∧
    ∃ r, VoiceFrame id k voice r ∧ t.netout = s.netout ++ (headerBefore ch.toNat (s.chan params ch.toNat) ++ [r])

theorem ofNat32_ne_zero {k : Nat} (h0 : 0 < k) (h : k < 2 ^ 32) : BitVec.ofNat 32 k ≠ 0 := by
  intro heq
  have := congrArg BitVec.toNat heq
  rw [BitVec.toNat_ofNat, Nat.mod_eq_of_lt h] at this
  exact absurd this (by simpa using Nat.pos_iff_ne_zero.mp h0)

theorem voiceNo_of_ne {x : Chan} (h : x.cs.dmrSeqNo ≠ 0) : voiceNo x = x.cs.dmrSeqNo :=
  if_neg fun hzero => h (beq_iff_eq.mp hzero)

theorem voiceSeq_of_ne {x : Chan} (h : x.cs.dmrSeqNo ≠ 0) : voiceSeq x = x.cs.pktSeq :=
  if_neg fun hzero => h (beq_iff_eq.mp hzero)

theorem headerBefore_of_ne (c : Nat) {x : Chan} (h : x.cs.dmrSeqNo ≠ 0) : headerBefore c x = [] :=
  if_neg fun hzero => h (beq_iff_eq.mp hzero)

/-- The frame that a full accumulator gives is the next one. -/
theorem voiceFrame_of_awaits {id : BitVec 32} {k c : Nat} {x : Chan} (h : AwaitsFrame id k x) (mid : BitVec 48)
    {voice : Bytes} (hvoice : voice.length = 27) :
    VoiceFrame id k voice (dmrRecord c x .dmrVoice (voiceSeq x) (voiceNo x) (some x.cs.dmrFrameIndex)
      (x.cs.dmrFrameIndex == 0) (dmrMidInsert (dmrVoicePlace voice) mid)) := by
  obtain ⟨hid, -, -, hindex, hno, hseq⟩ := h
  have hframe : x.cs.dmrFrameIndex = BitVec.ofNat 3 ((k - 1) % 6) :=
    BitVec.eq_of_toNat_eq (hindex.trans (ofNat_mod_toNat 3 (by decide) (by decide)).symm)
  refine ⟨congrArg some hno, hseq, hid, rfl, congrArg some hframe, ?_, dmrVoiceExtract_dmrMidInsert _ _ hvoice⟩
  change (x.cs.dmrFrameIndex == 0) = true ↔ _
  rw [beq_iff_eq, ← hindex]
  exact ⟨fun h => congrArg BitVec.toNat h, fun h => BitVec.eq_of_toNat_eq h⟩

/-- Behind frame k the channel awaits frame k + 1. -/
theorem awaitsFrame_succ {id : BitVec 32} {k : Nat} {x y : Chan} {emb : Embedded} (hk : 0 < k) (hlast : k + 1 < 2 ^ 32)
    (h : AwaitsFrame id k x)
    (hy : y.cs = { x.cs with
      embeddedData := emb
      pktSeq := seqAfter (voiceSeq x)
      dmrSeqNo := voiceNo x + 1
      dmrFrameIndex := BitVec.ofNat 3 ((x.cs.dmrFrameIndex.toNat + 1) % 6)
      ambeBuffer := zeros 27
      ambeCount := 0 }) :
    AwaitsFrame id (k + 1) y ∧ y.cs.dmrSeqNo = BitVec.ofNat 32 (k + 1) := by
  obtain ⟨hid, -, -, hindex, hno, hseq⟩ := h
  have hsucc : y.cs.dmrSeqNo = BitVec.ofNat 32 (k + 1) := by
    rw [hy, BitVec.ofNat_add, ← hno]
    rfl
  have hne : y.cs.dmrSeqNo ≠ 0 := hsucc ▸ ofNat32_ne_zero (Nat.succ_pos k) hlast
  refine ⟨⟨?_, ?_, ?_, ?_, (voiceNo_of_ne hne).trans hsucc, ?_⟩, hsucc⟩
  · rw [hy]
    exact hid
  · rw [hy]
  · rw [hy]
    exact zeros_length 27
  · rw [hy]
    change (BitVec.ofNat 3 ((x.cs.dmrFrameIndex.toNat + 1) % 6)).toNat = _
    rw [ofNat_mod_toNat 3 (by decide) (by decide), hindex]
    omega
  · rw [voiceSeq_of_ne hne, hy]
    change (seqAfter (voiceSeq x)).toNat = _
    rw [seqAfter_toNat, hseq, Nat.mod_add_mod]

/-- Two codewords go into the empty accumulator. -/
theorem runAll_two_filling {s : State} {ch : BitVec 16} {a b : Bytes} (hcall : InCall s ch)
    (hcount : (s.chan params ch.toNat).cs.ambeCount = 0) (ha : a.length = params.ambeLen)
    (hb : b.length = params.ambeLen) :
    ∃ t, runAll [.txdmr ch a, .txdmr ch b] s = .next t ∧ InCall t ch ∧ t.netout = s.netout ∧
      t.chan params ch.toNat =
        { s.chan params ch.toNat with
          cs := { (s.chan params ch.toNat).cs with
            ambeBuffer := writeAt (writeAt (s.chan params ch.toNat).cs.ambeBuffer 0 a) 9 b
            ambeCount := 2 } } := by
  have hfirst : filledWith (s.chan params ch.toNat).cs a = { (s.chan params ch.toNat).cs with
      ambeBuffer := writeAt (s.chan params ch.toNat).cs.ambeBuffer 0 a
      ambeCount := 1 } := by
    delta filledWith
    rw [hcount]
    rfl
  obtain ⟨u, hexec, hcall', hnet, hchan⟩ := exec_txdmr_filling hcall ha (by rw [hcount]; decide)
  rw [hfirst] at hchan
  obtain ⟨t, hexec', hcall'', hnet', hchan'⟩ := exec_txdmr_filling hcall' hb (by rw [hchan]; exact one_lt_two)
  refine ⟨t, ?_, hcall'', hnet'.trans hnet, ?_⟩
  · rw [runAll_cons _ hexec, runAll_cons _ hexec', runAll_nil]
  · rw [hchan', hchan]
    rfl

/-- Three codewords into the empty accumulator send the next frame. -/
theorem groupSent_of_three {s : State} {ch : BitVec 16} {id : BitVec 32} {k : Nat} {a b c : Bytes} (hcall : InCall s ch)
    (hk : 0 < k) (hlast : k + 1 < 2 ^ 32) (h : AwaitsFrame id k (s.chan params ch.toNat))
    (ha : a.length = params.ambeLen) (hb : b.length = params.ambeLen) (hc : c.length = params.ambeLen) :
    ∃ t, runAll [.txdmr ch a, .txdmr ch b, .txdmr ch c] s = .next t ∧ GroupSent ch id k (a ++ (b ++ c)) s t := by
  have hbuffer : writeAt (writeAt (writeAt (s.chan params ch.toNat).cs.ambeBuffer 0 a) 9 b) 18 c = a ++ (b ++ c) :=
    writeAt_three h.2.2.1 ha hb hc
  have hvoice : (a ++ (b ++ c)).length = 27 := by
    rw [List.length_append, List.length_append, ha, hb, hc]
    rfl
  obtain ⟨u, hrun, hcall', hnet, hchan⟩ := runAll_two_filling hcall h.2.1 ha hb
  obtain ⟨t, emb, mid, hexec, hcall'', hnet', hcs⟩ := exec_txdmr_full hcall' hc (by rw [hchan]; exact lt_irrefl 2)
  rw [hchan] at hnet' hcs
  obtain ⟨hwait, hno⟩ := awaitsFrame_succ hk hlast h hcs
  refine ⟨t, ?_, hcall'', hwait, hno, _, voiceFrame_of_awaits (c := ch.toNat) h mid hvoice, ?_⟩
  · rw [show [Instr.txdmr ch a, Instr.txdmr ch b, Instr.txdmr ch c] = [Instr.txdmr ch a, Instr.txdmr ch b] ++
      [Instr.txdmr ch c] from rfl, runAll_append _ hrun, runAll_cons _ hexec, runAll_nil]
  · rw [hnet', hnet, ← hbuffer]
    rfl

/-! ## A call -/

/-- The three codewords of group j. -/
def voiceOf (cws : List Bytes) (j : Nat) : Bytes :=
  cws.getD (3 * j) [] ++ (cws.getD (3 * j + 1) [] ++ cws.getD (3 * j + 2) [])

/-- Frame after frame from number k on, with the codewords in order. -/
def VoiceFrames (id : BitVec 32) (k : Nat) (cws : List Bytes) (sent : List NetRec) : Prop :=
  ∀ j r, sent[j]? = some r → VoiceFrame id (k + j) (voiceOf cws j) r

theorem voiceFrames_cons {id : BitVec 32} {k : Nat} {a b c : Bytes} {cws : List Bytes} {r : NetRec} {sent : List NetRec}
    (hr : VoiceFrame id k (a ++ (b ++ c)) r) (hsent : VoiceFrames id (k + 1) cws sent) :
    VoiceFrames id k (a :: b :: c :: cws) (r :: sent) := by
  intro j r' hr'
  cases j with
  | zero =>
    obtain rfl : r = r' := by simpa using hr'
    exact hr
  | succ j =>
    have hframe := hsent j r' hr'
    rwa [Nat.add_right_comm, Nat.add_assoc] at hframe

/-- A list of 3 (m + 1) codewords begins with a group. -/
theorem exists_group {cws : List Bytes} {m : Nat} (h : cws.length = 3 * (m + 1)) :
    ∃ a b c rest, cws = a :: b :: c :: rest ∧ rest.length = 3 * m := by
  match cws, h with
  | a :: b :: c :: rest, h =>
    refine ⟨a, b, c, rest, rfl, ?_⟩
    simp only [List.length_cons] at h
    omega

/-- Behind the first frame, every group of three sends one frame. -/
theorem voiceFrames_of_run {ch : BitVec 16} {id : BitVec 32} {m k : Nat} {s : State} {cws : List Bytes}
    (hcall : InCall s ch) (hk : 0 < k) (hlast : k + m < 2 ^ 32) (hwait : AwaitsFrame id k (s.chan params ch.toNat))
    (hno : (s.chan params ch.toNat).cs.dmrSeqNo = BitVec.ofNat 32 k) (hcws : cws.length = 3 * m)
    (hlen : ∀ cw ∈ cws, cw.length = params.ambeLen) :
    ∃ t sent, runAll (cws.map (Instr.txdmr ch)) s = .next t ∧ t.netout = s.netout ++ sent ∧ sent.length = m ∧
      VoiceFrames id k cws sent ∧ (t.chan params ch.toNat).cs.dmrSeqNo = BitVec.ofNat 32 (k + m) := by
  induction m generalizing s k cws with
  | zero =>
    obtain rfl : cws = [] := List.eq_nil_of_length_eq_zero hcws
    exact ⟨s, [], rfl, (List.append_nil _).symm, rfl, fun j r h => (by simp at h), hno⟩
  | succ m ih =>
    obtain ⟨a, b, c, rest, rfl, hrest⟩ := exists_group hcws
    obtain ⟨ha, hb, hc, hrestLen⟩ : a.length = params.ambeLen ∧ b.length = params.ambeLen ∧ c.length = params.ambeLen ∧
        ∀ cw ∈ rest, cw.length = params.ambeLen := by simpa only [List.forall_mem_cons] using hlen
    obtain ⟨u, hrun, hcall', hwait', hno', r, hr, hnet⟩ :=
      groupSent_of_three hcall hk (by omega) hwait ha hb hc
    obtain ⟨t, sent, hrunRest, hnetRest, hsentLen, hframes, hnoRest⟩ :=
      ih hcall' (Nat.succ_pos k) (by omega) hwait' hno' hrest hrestLen
    rw [headerBefore_of_ne ch.toNat (hno ▸ ofNat32_ne_zero hk (by omega)), List.nil_append] at hnet
    refine ⟨t, r :: sent, (runAll_append (rest.map (Instr.txdmr ch)) hrun).trans hrunRest, ?_, ?_,
      voiceFrames_cons hr hframes, ?_⟩
    · rw [hnetRest, hnet, List.append_assoc]
      rfl
    · rw [List.length_cons, hsentLen]
    · rw [hnoRest, Nat.succ_add_eq_add_succ]

/-- Settles O32: the first group sends the header besides, at number 0; the others one frame each. -/
theorem dmrCallSendsHeaderThenFrames : Obligations.DmrCallSendsHeaderThenFrames := by
  intro s ch cws m hcall hm hlast hcws hlen x hseq hno hindex hcount hbuffer
  obtain ⟨m, rfl⟩ : ∃ n, m = n + 1 := ⟨m - 1, by omega⟩
  obtain ⟨a, b, c, rest, rfl, hrest⟩ := exists_group hcws
  obtain ⟨ha, hb, hc, hrestLen⟩ : a.length = params.ambeLen ∧ b.length = params.ambeLen ∧ c.length = params.ambeLen ∧
      ∀ cw ∈ rest, cw.length = params.ambeLen := by simpa only [List.forall_mem_cons] using hlen
  have hfirst : (x.cs.dmrSeqNo == 0) = true := beq_iff_eq.mpr hno
  have hwait : AwaitsFrame x.cs.txStreamId 1 x := by
    refine ⟨rfl, hcount, hbuffer, congrArg BitVec.toNat hindex, if_pos hfirst, ?_⟩
    rw [show voiceSeq x = _ from if_pos hfirst, seqAfter_toNat, hseq]
    rfl
  obtain ⟨u, hrun, hcall', hwait', hno', r, hr, hnet⟩ := groupSent_of_three hcall one_pos (by decide) hwait ha hb hc
  obtain ⟨t, sent, hrunRest, hnetRest, hsentLen, hframes, hnoRest⟩ :=
    voiceFrames_of_run hcall' two_pos (by omega) hwait' hno' hrest hrestLen
  rw [show headerBefore ch.toNat x = _ from if_pos hfirst] at hnet
  have hall := voiceFrames_cons hr hframes
  refine ⟨t, dmrRecord ch.toNat x .dmrVhdr x.cs.pktSeq 0 none false (params.dmrLcBurst .vhdr (lcOf x)) :: r :: sent,
    (runAll_append (rest.map (Instr.txdmr ch)) hrun).trans hrunRest, ?_, ?_, ?_, ?_⟩
  · rw [hnetRest, hnet, List.append_assoc]
    rfl
  · rw [List.length_cons, List.length_cons, hsentLen]
  · intro k r' hr'
    cases k with
    | zero =>
      obtain rfl : _ = r' := Option.some.inj hr'
      refine ⟨rfl, ?_, rfl, fun _ => ⟨rfl, rfl⟩, fun h => absurd h (lt_irrefl 0)⟩
      change x.cs.pktSeq.toNat = 0 % params.seqMod
      rw [hseq, Nat.zero_mod]
      rfl
    | succ j =>
      obtain ⟨hdmr, hsequence, hstream, hkind, hn, hsync, hvoice⟩ := hall j r' hr'
      rw [Nat.add_comm 1 j] at hdmr hsequence hn hsync
      exact ⟨hdmr, hsequence, hstream, fun h => absurd h (Nat.succ_ne_zero j), fun _ => ⟨hkind, hn, hsync, hvoice⟩⟩
  · rw [hnoRest]
    congr 1
    omega

end Sys2Proof.Proofs
end

