-- ==== Sys2Proof/Proofs/HalfSuperframe.lean ====
section
/-! PROOFS. Half a superframe (42_p25_framer.md R160, R162): nine codewords laid one after another into the buffer of
their half. -/

namespace Sys2Proof.Proofs

open Sys2Proof Sys2Proof.Machine Sys2Proof.Claims

/-! ## The codewords laid out -/

/-- The places of the codewords: one behind the other, with room for each, within the buffer. -/
theorem cwPos_add_le {i k : Nat} (hik : i < k) (hk : k < 9) : cwPos i + 11 ≤ cwPos k := by
  have hall : ∀ k < 9, ∀ i < k, cwPos i + 11 ≤ cwPos k := by decide
  exact hall k hk i hik

theorem cwPos_le {k : Nat} (hk : k < 9) : cwPos k + 11 ≤ 225 := by
  have hall : ∀ k < 9, cwPos k + 11 ≤ 225 := by decide
  exact hall k hk

/-- The first k codewords stand at their places, every other byte of the buffer is zero. -/
def Laid (cws : List Bytes) (k : Nat) (buf : Bytes) : Prop :=
  buf.length = 225 ∧ (∀ i < k, readAt buf (cwPos i) 11 = cws.getD i []) ∧
    ∀ j < 225, (∀ i < k, j < cwPos i ∨ cwPos i + 11 ≤ j) → byteAt buf j = 0

theorem laid_zero (cws : List Bytes) : Laid cws 0 (zeros 225) :=
  ⟨zeros_length 225, fun _ h => absurd h (Nat.not_lt_zero _), fun j _ _ => byteAt_zeros 225 j⟩

/-- One more codeword is written. -/
theorem laid_succ {cws : List Bytes} {k : Nat} {buf : Bytes} (h : Laid cws k buf) (hk : k < 9)
    (hlen : (cws.getD k []).length = 11) : Laid cws (k + 1) (writeAt buf (cwPos k) (cws.getD k [])) := by
  obtain ⟨hbuf, hlaid, hzero⟩ := h
  refine ⟨(writeAt_length ..).trans hbuf, fun i hi => ?_, fun j hj hout => ?_⟩
  · rcases Nat.lt_succ_iff_lt_or_eq.mp hi with hbefore | rfl
    · have := cwPos_add_le hbefore hk
      rw [readAt_writeAt_other _ _ _ _ _ (by omega), hlaid i hbefore]
    · have hwritten := readAt_writeAt_same buf (cwPos i) (cws.getD i []) (by rw [hlen, hbuf]; exact cwPos_le hk)
      rwa [hlen] at hwritten
  · rw [byteAt_writeAt_other _ _ _ _ (by rw [hlen]; exact hout k (Nat.lt_succ_self k))]
    exact hzero j hj fun i hi => hout i (Nat.lt_succ_of_lt hi)

/-- All nine of them are the buffer's codewords. -/
theorem codewordsOf_of_laid {cws : List Bytes} {buf : Bytes} (h : Laid cws 9 buf) (hcws : cws.length = 9) :
    codewordsOf buf = cws := by
  have hread : codewordsOf buf = (List.range 9).map fun i => readAt buf (cwPos i) 11 := rfl
  rw [hread]
  refine List.ext_getElem (by rw [List.length_map, List.length_range, hcws]) fun i hi hi' => ?_
  rw [List.getElem_map, List.getElem_range, h.2.1 i (hcws ▸ hi'), List.getD_eq_getElem _ _ hi']

/-! ## The nine commands -/

/-- The buffer of a half, and the position of its first codeword. -/
def bufferOf (half : Role) (cs : ChannelState) : Bytes := if half = .ldu1 then cs.netLdu1 else cs.netLdu2

def startOf (half : Role) : Nat := if half = .ldu1 then 0 else 9

/-- TXP25 at position k of a half, on a clear channel. -/
theorem exec_txp25_clear {s : State} {ch : BitVec 16} {cw : Bytes} {half : Role} {k : Nat} (hcall : InCall s ch)
    (hclear : clear (s.chan params ch.toNat).cfg.algoId (s.chan params ch.toNat).cfg.keyId = true)
    (hlen : cw.length = params.imbeLen) (hk : k < 9)
    (hpos : (s.chan params ch.toNat).cs.p25FrameIndex.toNat = startOf half + k) :
    ∃ t, exec (.txp25 ch cw) s = .next t ∧ InCall t ch ∧
      (t.chan params ch.toNat).cfg = (s.chan params ch.toNat).cfg ∧
      (t.chan params ch.toNat).cs.p25FrameIndex = BitVec.ofNat 5 ((startOf half + k + 1) % 18) ∧
      bufferOf half (t.chan params ch.toNat).cs =
        writeAt (if k = 0 then zeros 225 else bufferOf half (s.chan params ch.toNat).cs) (cwPos k) cw ∧
      t.netout.length = s.netout.length + if k = 8 then 1 else 0 := by
  have hstart : startOf half = 0 ∧ half = .ldu1 ∨ startOf half = 9 ∧ half = .ldu2 := by
    cases half
    · exact Or.inl ⟨rfl, rfl⟩
    · exact Or.inr ⟨rfl, rfl⟩
  have hexec := (txp25TakesCodeword s ch cw hlen).2.2.2 hcall (by omega)
  have hchan := chan_stepEnds_same s ch.toNat (txp25Ends s ch.toNat cw)
  refine ⟨_, hexec, ?_, ?_, ?_, ?_, ?_⟩
  · obtain ⟨⟨⟨hch, hok⟩, hset⟩, hopen⟩ := hcall
    delta InCall Configured ChannelOk
    rw [hchan]
    exact ⟨⟨⟨hch, hok⟩, hset⟩, hopen⟩
  · rw [hchan]
    rfl
  · rw [hchan, ← hpos]
    rfl
  · rw [hchan]
    delta txp25Ends
    dsimp only
    rw [hclear, hpos]
    rcases hstart with ⟨h0, rfl⟩ | ⟨h9, rfl⟩
    · rw [h0, Nat.zero_add]
      exact if_pos hk
    · rw [h9, show (9 + k) % 9 = k by omega]
      refine (if_neg (by omega : ¬9 + k < 9)).trans ?_
      simp only [Nat.add_eq_left]
      rfl
  · have hsent : (txp25Ends s ch.toNat cw).net.length = if k = 8 then 1 else 0 := by
      delta txp25Ends
      dsimp only
      rw [hpos]
      by_cases hlast : k = 8
      · rw [if_pos hlast]
        rcases hstart with ⟨h0, -⟩ | ⟨h9, -⟩
        · rw [if_pos (by omega)]
          rfl
        · rw [if_neg (by omega), if_pos (by omega)]
          rfl
      · rw [if_neg hlast, if_neg (by omega), if_neg (by omega)]
        rfl
    exact List.length_append.trans (congrArg (s.netout.length + ·) hsent)

/-- After k of the nine commands: the position is k further, k codewords are laid, the last one sent the message. -/
def HalfTaken (ch : BitVec 16) (cws : List Bytes) (half : Role) (s : State) (k : Nat) (t : State) : Prop :=
  InCall t ch ∧ (t.chan params ch.toNat).cfg = (s.chan params ch.toNat).cfg ∧
    (t.chan params ch.toNat).cs.p25FrameIndex = BitVec.ofNat 5 ((startOf half + k) % 18) ∧
    (0 < k → Laid cws k (bufferOf half (t.chan params ch.toNat).cs)) ∧
    t.netout.length = s.netout.length + if k = 9 then 1 else 0

theorem startOf_le (half : Role) : startOf half ≤ 9 := by
  cases half
  · exact Nat.zero_le 9
  · exact le_refl 9

theorem halfTaken_of_run {s : State} {ch : BitVec 16} {cws : List Bytes} {half : Role} (hcall : InCall s ch)
    (hclear : clear (s.chan params ch.toNat).cfg.algoId (s.chan params ch.toNat).cfg.keyId = true)
    (hpos : (s.chan params ch.toNat).cs.p25FrameIndex = BitVec.ofNat 5 (startOf half)) (hcws : cws.length = 9)
    (hlen : ∀ cw ∈ cws, cw.length = params.imbeLen) {k : Nat} (hk : k ≤ 9) :
    ∃ t, runAll ((cws.take k).map (Instr.txp25 ch)) s = .next t ∧ HalfTaken ch cws half s k t := by
  have hstart := startOf_le half
  induction k with
  | zero =>
    refine ⟨s, rfl, hcall, rfl, ?_, fun h => absurd h (lt_irrefl 0), rfl⟩
    rw [hpos, Nat.add_zero, Nat.mod_eq_of_lt (by omega)]
  | succ k ih =>
    obtain ⟨u, hrun, hcall', hcfg, hindex, hlaid, hnet⟩ := ih (by omega)
    have hget : cws[k]? = some (cws.getD k []) := by
      rw [List.getD_eq_getElem _ _ (by omega), List.getElem?_eq_getElem]
    have hcw : (cws.getD k []).length = params.imbeLen := hlen _ (List.mem_of_getElem? hget)
    have hat : (u.chan params ch.toNat).cs.p25FrameIndex.toNat = startOf half + k := by
      rw [hindex, Nat.mod_eq_of_lt (by omega), BitVec.toNat_ofNat, Nat.mod_eq_of_lt (by omega)]
    obtain ⟨t, hexec, hcall'', hcfg', hindex', hbuffer, hnet'⟩ :=
      exec_txp25_clear hcall' (by rw [hcfg]; exact hclear) hcw (by omega) hat
    refine ⟨t, ?_, hcall'', hcfg'.trans hcfg, hindex', fun _ => ?_, ?_⟩
    · rw [List.take_add_one, List.map_append, runAll_append _ hrun, hget]
      exact (runAll_cons [] hexec).trans (runAll_nil t)
    · rw [hbuffer]
      refine laid_succ ?_ (by omega) hcw
      by_cases hfirst : k = 0
      · rw [if_pos hfirst, hfirst]
        exact laid_zero cws
      · rw [if_neg hfirst]
        exact hlaid (Nat.pos_of_ne_zero hfirst)
    · rw [hnet', hnet, if_neg (by omega : k ≠ 9)]
      by_cases hlast : k = 8
      · rw [if_pos hlast, if_pos (by omega)]
      · rw [if_neg hlast, if_neg (by omega)]

/-- Settles O25, by induction on the number of commands carried out. -/
theorem nineCodewordsStandAtTheirOffsets : Obligations.NineCodewordsStandAtTheirOffsets := by
  intro s ch cws half hcall hclear hpos hcws hlen
  have hstart : (s.chan params ch.toNat).cs.p25FrameIndex = BitVec.ofNat 5 (startOf half) :=
    hpos.trans (apply_ite (BitVec.ofNat 5) (half = .ldu1) 0 9).symm
  obtain ⟨t, hrun, -, -, hindex, hlaid, hnet⟩ := halfTaken_of_run hcall hclear hstart hcws hlen (le_refl 9)
  rw [List.take_of_length_le hcws.le] at hrun
  obtain ⟨hbuffer, hread, hzero⟩ := hlaid (by decide)
  refine ⟨t, hrun, ⟨hbuffer, codewordsOf_of_laid ⟨hbuffer, hread, hzero⟩ hcws, hzero⟩, ?_, hnet⟩
  rw [hindex]
  cases half
  · rfl
  · rfl

end Sys2Proof.Proofs
end

