-- ==== Sys2Proof/Proofs/LduImage.lean ====
section
/-! PROOFS. The LDU image and its packed payload (30_encoding.md R100, R101). Both are made of pieces: the image of
pieces written at places apart from one another, the payload of pieces put end to end. What a piece is, is read back at
its place; between the places nothing changes. -/

namespace Sys2Proof.Proofs

open Sys2Proof Sys2Proof.Machine Sys2Proof.Claims

/-! ## Pieces at places -/

section Placed

variable (off : Nat → Nat) (v : Nat → Bytes) (buf : Bytes)

/-- The first n pieces written into a buffer, each at its place. -/
def placed (n : Nat) : Bytes := (List.range n).foldl (fun b k => writeAt b (off k) (v k)) buf

theorem placed_succ (n : Nat) : placed off v buf (n + 1) = writeAt (placed off v buf n) (off n) (v n) := by
  delta placed
  rw [List.range_succ, List.foldl_append, List.foldl_cons, List.foldl_nil]

theorem placed_length (n : Nat) : (placed off v buf n).length = buf.length := by
  induction n with
  | zero => rfl
  | succ n ih => rw [placed_succ, writeAt_length, ih]

/-- Outside the places the buffer is as before. -/
theorem byteAt_placed_outside {n i : Nat} (h : ∀ k < n, i < off k ∨ off k + (v k).length ≤ i) :
    byteAt (placed off v buf n) i = byteAt buf i := by
  induction n with
  | zero => rfl
  | succ n ih =>
    rw [placed_succ, byteAt_writeAt_other _ _ _ _ (h n (Nat.lt_succ_self n))]
    exact ih fun k hk => h k (Nat.lt_succ_of_lt hk)

/-- A piece is read back at its place, if no later one overlaps it. -/
theorem readAt_placed {n k : Nat} (hk : k < n) (hroom : off k + (v k).length ≤ buf.length)
    (hlater : ∀ m, k < m → m < n → off k + (v k).length ≤ off m) :
    readAt (placed off v buf n) (off k) (v k).length = v k := by
  induction n with
  | zero => exact absurd hk (Nat.not_lt_zero k)
  | succ n ih =>
    rw [placed_succ]
    rcases Nat.lt_succ_iff_lt_or_eq.mp hk with hbefore | rfl
    · rw [readAt_writeAt_other _ _ _ _ _ (Or.inl (hlater n hbefore (Nat.lt_succ_self n)))]
      exact ih hbefore fun m hm hmn => hlater m hm (Nat.lt_succ_of_lt hmn)
    · exact readAt_writeAt_same _ _ _ (by rw [placed_length]; exact hroom)

end Placed

/-! ## Pieces end to end -/

section Joined

variable (v : Nat → Bytes)

/-- The first n pieces, one behind the other. -/
def joined (n : Nat) : Bytes := (List.range n).flatMap v

theorem joined_succ (n : Nat) : joined v (n + 1) = joined v n ++ v n := by
  delta joined
  rw [List.range_succ, List.flatMap_append, List.flatMap_singleton]

variable {off : Nat → Nat} {n : Nat} (hzero : off 0 = 0) (hsucc : ∀ k < n, off (k + 1) = off k + (v k).length)
include hzero hsucc

theorem joined_length {k : Nat} (hk : k ≤ n) : (joined v k).length = off k := by
  induction k with
  | zero => exact hzero.symm
  | succ k ih => rw [joined_succ, List.length_append, ih (by omega), hsucc k hk]

omit hzero in
/-- A piece ends before the ones behind it. -/
theorem joined_room {k m : Nat} (hk : k < m) (hm : m ≤ n) : off k + (v k).length ≤ off m := by
  induction m with
  | zero => exact absurd hk (Nat.not_lt_zero k)
  | succ m ih =>
    rcases Nat.lt_succ_iff_lt_or_eq.mp hk with hbefore | rfl
    · rw [hsucc m hm]
      exact (ih hbefore (Nat.le_of_succ_le hm)).trans (Nat.le_add_right _ _)
    · exact (hsucc k hm).ge

/-- Each piece is read back behind the ones before it. -/
theorem readAt_joined {k m : Nat} (hk : k < m) (hm : m ≤ n) : readAt (joined v m) (off k) (v k).length = v k := by
  induction m with
  | zero => exact absurd hk (Nat.not_lt_zero k)
  | succ m ih =>
    have hlen := joined_length v hzero hsucc (Nat.le_of_succ_le hm)
    rw [joined_succ]
    rcases Nat.lt_succ_iff_lt_or_eq.mp hk with hbefore | rfl
    · rw [readAt_append_left _ _ _ _ (hlen ▸ joined_room v hsucc hbefore (Nat.le_of_succ_le hm))]
      exact ih hbefore (Nat.le_of_succ_le hm)
    · rw [← hlen]
      exact readAt_append_exact _ _ _ rfl

/-- Pieces cut one behind the other make up what they are cut from. -/
theorem joined_of_cut {b : Bytes} {k : Nat} (hk : k ≤ n) (hcut : ∀ k < n, v k = readAt b (off k) (v k).length) :
    joined v k = readAt b 0 (off k) := by
  induction k with
  | zero => rw [hzero]; rfl
  | succ k ih => rw [joined_succ, ih (by omega), hcut k hk, hsucc k hk, readAt_add, Nat.zero_add]

end Joined

/-! ## The record table (00_scope.md R8) -/

theorem recOff_eq {k : Nat} (hk : k < 9) : recOff params k = 25 * k := by
  revert k
  decide

theorem recLenAt_le {k : Nat} (hk : k < 9) : 0 < recLenAt params k ∧ recLenAt params k ≤ 25 := by
  revert k
  decide

/-- Where record k begins in the payload; record 9 would begin at its end. -/
def packOff (k : Nat) : Nat := if k = 9 then 154 else recNetOffAt params k

theorem packOff_of_lt {k : Nat} (hk : k < 9) : packOff k = recNetOffAt params k := if_neg (by omega)

theorem packOff_succ {k : Nat} (hk : k < 9) : packOff (k + 1) = packOff k + recLenAt params k := by
  revert k
  decide

/-! ## Packing and unpacking (R101) -/

theorem p25Pack_eq (image : Bytes) :
    p25Pack params image = joined (fun k => readAt image (recOff params k) (recLenAt params k)) 9 := rfl

theorem p25Unpack_eq (p : Bytes) :
    p25Unpack params p =
      placed (recOff params) (fun k => readAt p (recNetOffAt params k) (recLenAt params k)) (zeros 225) 9 := rfl

/-- The pieces of an image are as long as the payload has room for. -/
theorem packOff_succ_of_read (image : Bytes) (k : Nat) (hk : k < 9) :
    packOff (k + 1) = packOff k + (readAt image (recOff params k) (recLenAt params k)).length := by
  rw [readAt_length]
  exact packOff_succ hk

theorem p25Pack_length (image : Bytes) : (p25Pack params image).length = 154 :=
  joined_length _ rfl (packOff_succ_of_read image) (le_refl 9)

/-- Record k of the payload is record k of the image. -/
theorem readAt_p25Pack (image : Bytes) {k : Nat} (hk : k < 9) :
    readAt (p25Pack params image) (recNetOffAt params k) (recLenAt params k) =
      readAt image (25 * k) (recLenAt params k) := by
  have hread := readAt_joined _ rfl (packOff_succ_of_read image) hk (le_refl 9)
  rw [readAt_length, packOff_of_lt hk] at hread
  rw [p25Pack_eq, hread, recOff_eq hk]

/-- Record k of an unpacked payload is record k of the payload. -/
theorem readAt_p25Unpack (p : Bytes) {k : Nat} (hk : k < 9) :
    readAt (p25Unpack params p) (25 * k) (recLenAt params k) =
      readAt p (recNetOffAt params k) (recLenAt params k) := by
  have hlen := (recLenAt_le hk).2
  have hread := readAt_placed (recOff params) (fun k => readAt p (recNetOffAt params k) (recLenAt params k)) (zeros 225)
    (n := 9) hk (by rw [readAt_length, zeros_length, recOff_eq hk]; omega) fun m hkm hm => by
      rw [readAt_length, recOff_eq hk, recOff_eq hm]
      omega
  rw [readAt_length, recOff_eq hk] at hread
  rw [p25Unpack_eq, hread]

/-- Behind its record, a record's slot stays zero. -/
theorem byteAt_p25Unpack_tail (p : Bytes) {i : Nat} (h : recLenAt params (i / 25) ≤ i % 25) :
    byteAt (p25Unpack params p) i = 0 := by
  rw [p25Unpack_eq, byteAt_placed_outside, byteAt_zeros]
  intro k hk
  have hlen := (recLenAt_le hk).2
  rw [readAt_length, recOff_eq hk]
  by_cases hrec : k = i / 25
  · subst hrec
    omega
  · omega

/-- A byte within a record comes back. -/
theorem byteAt_p25Unpack_p25Pack (image : Bytes) {i : Nat} (hi : i < 225) (h : i % 25 < recLenAt params (i / 25)) :
    byteAt (p25Unpack params (p25Pack params image)) i = byteAt image i := by
  have hk : i / 25 < 9 := by omega
  have hsplit : i = 25 * (i / 25) + i % 25 := by omega
  rw [hsplit, ← byteAt_readAt _ _ _ _ h, readAt_p25Unpack _ hk, readAt_p25Pack _ hk, byteAt_readAt _ _ _ _ h]

theorem p25Pack_p25Unpack {p : Bytes} (h : p.length = 154) : p25Pack params (p25Unpack params p) = p := by
  have hcut := joined_of_cut (fun k => readAt (p25Unpack params p) (recOff params k) (recLenAt params k)) rfl
    (packOff_succ_of_read _) (b := p) (le_refl 9) fun k hk => by
      rw [readAt_length, recOff_eq hk, readAt_p25Unpack p hk, packOff_of_lt hk]
  rw [p25Pack_eq, hcut]
  exact readAt_first h

/-- Settles O26: record by record, payload and image hold the same bytes. -/
theorem packAndUnpackAgree : Obligations.PackAndUnpackAgree := by
  refine ⟨fun p h => p25Pack_p25Unpack h, fun image _ => ⟨p25Pack_length image, p25Unpack_length _, fun i hi => ?_⟩⟩
  change _ = if i % 25 < recLenAt params (i / 25) then _ else _
  split_ifs with h
  · exact byteAt_p25Unpack_p25Pack image hi h
  · exact byteAt_p25Unpack_tail _ (Nat.le_of_not_lt h)

/-! ## The image (R100) -/

theorem putMarks_eq (half : Role) (buf : Bytes) :
    putMarks params half buf = placed (recOff params) (fun k => [byteAt (marks half) k]) buf 9 := rfl

/-- Record j + 2 carries fragment j of the MI, record 5 the algorithm and the key id. -/
theorem essOff_miRec {j : Nat} (hj : j < 3) : essOff params (essMiRecAt params j) = 51 + 25 * j := by
  revert j
  decide

theorem essOff_algRec : essOff params params.essAlgRec = 126 := by decide

/-- The MI fragments put into a buffer. -/
def withMi (mi buf : Bytes) : Bytes :=
  placed (fun j => essOff params (essMiRecAt params j)) (fun j => readAt mi (3 * j) 3) buf 3

theorem putEss_eq (crypto : CryptoParams) (buf : Bytes) :
    putEss params crypto buf = writeAt (withMi crypto.mi buf) 126 (crypto.algoId :: be 2 crypto.keyId) := by
  rw [← essOff_algRec]
  rfl

section Image

variable (half : Role) (buf : Bytes) (crypto : CryptoParams)

theorem putMarks_length : (putMarks params half buf).length = buf.length := placed_length ..

theorem withMi_length (mi : Bytes) : (withMi mi buf).length = buf.length := placed_length ..

theorem putEss_length : (putEss params crypto buf).length = buf.length := by
  rw [putEss_eq, writeAt_length, withMi_length]

theorem byteAt_putMarks_mark {k : Nat} (hk : k < 9) (hbuf : buf.length = 225) :
    byteAt (putMarks params half buf) (25 * k) = byteAt (marks half) k := by
  have hread := readAt_placed (recOff params) (fun k => [byteAt (marks half) k]) buf (n := 9) hk
    (by rw [recOff_eq hk, hbuf, List.length_singleton]; omega) fun m hkm hm => by
      rw [recOff_eq hk, recOff_eq hm, List.length_singleton]
      omega
  rw [List.length_singleton, recOff_eq hk] at hread
  exact (List.cons.inj hread).1

theorem byteAt_putMarks_outside {i : Nat} (h : i % 25 ≠ 0) :
    byteAt (putMarks params half buf) i = byteAt buf i := by
  refine byteAt_placed_outside _ _ _ fun k hk => ?_
  rw [recOff_eq hk, List.length_singleton]
  omega

theorem byteAt_putEss_outside {i : Nat} (h51 : ¬(50 < i ∧ i < 54)) (h76 : ¬(75 < i ∧ i < 79))
    (h101 : ¬(100 < i ∧ i < 104)) (h126 : ¬(125 < i ∧ i < 129)) :
    byteAt (putEss params crypto buf) i = byteAt buf i := by
  rw [putEss_eq, byteAt_writeAt_other _ _ _ _ (by rw [List.length_cons, be_length]; omega)]
  refine byteAt_placed_outside _ _ _ fun j hj => ?_
  rw [essOff_miRec hj, readAt_length]
  omega

theorem readAt_putEss_mi {j : Nat} (hj : j < 3) (hbuf : buf.length = 225) :
    readAt (putEss params crypto buf) (51 + 25 * j) 3 = readAt crypto.mi (3 * j) 3 := by
  have hread := readAt_placed (fun j => essOff params (essMiRecAt params j)) (fun j => readAt crypto.mi (3 * j) 3) buf
    (n := 3) hj (by rw [essOff_miRec hj, hbuf, readAt_length]; omega) fun m hjm hm => by
      rw [essOff_miRec hj, essOff_miRec hm, readAt_length]
      omega
  rw [readAt_length, essOff_miRec hj] at hread
  rw [putEss_eq, readAt_writeAt_other _ _ _ _ _ (by omega)]
  exact hread

theorem readAt_putEss_alg (hbuf : buf.length = 225) :
    readAt (putEss params crypto buf) 126 3 = crypto.algoId :: be 2 crypto.keyId := by
  have hlen : (crypto.algoId :: be 2 crypto.keyId).length = 3 := by rw [List.length_cons, be_length]
  have hread := readAt_writeAt_same (withMi crypto.mi buf) 126 (crypto.algoId :: be 2 crypto.keyId)
    (by rw [hlen, withMi_length, hbuf]; decide)
  rwa [hlen, ← putEss_eq] at hread

/-- What the image of either half is. -/
theorem p25Image_ldu1 : p25Image params .ldu1 buf crypto = putMarks params .ldu1 buf := rfl

theorem p25Image_ldu2 : p25Image params .ldu2 buf crypto = putEss params crypto (putMarks params .ldu2 buf) := rfl

end Image

/-- The byte is in no field that the image of this half adds. -/
def Kept (half : Role) (i : Nat) : Prop :=
  i % 25 ≠ 0 ∧ (half = .ldu2 → ¬(50 < i ∧ i < 54) ∧ ¬(75 < i ∧ i < 79) ∧ ¬(100 < i ∧ i < 104) ∧
    ¬(125 < i ∧ i < 129))

theorem p25Image_length (half : Role) (buf : Bytes) (crypto : CryptoParams) :
    (p25Image params half buf crypto).length = buf.length := by
  cases half with
  | ldu1 => exact putMarks_length .ldu1 buf
  | ldu2 => exact (putEss_length _ crypto).trans (putMarks_length .ldu2 buf)

theorem byteAt_p25Image_mark (half : Role) {buf : Bytes} (crypto : CryptoParams) (hbuf : buf.length = 225) {k : Nat}
    (hk : k < 9) : byteAt (p25Image params half buf crypto) (25 * k) = byteAt (marks half) k := by
  cases half with
  | ldu1 => exact byteAt_putMarks_mark .ldu1 buf hk hbuf
  | ldu2 =>
    rw [p25Image_ldu2, byteAt_putEss_outside _ _ (by omega) (by omega) (by omega) (by omega)]
    exact byteAt_putMarks_mark .ldu2 buf hk hbuf

theorem byteAt_p25Image_kept {half : Role} (buf : Bytes) (crypto : CryptoParams) {i : Nat} (h : Kept half i) :
    byteAt (p25Image params half buf crypto) i = byteAt buf i := by
  obtain ⟨hmark, hsync⟩ := h
  cases half with
  | ldu1 => exact byteAt_putMarks_outside .ldu1 buf hmark
  | ldu2 =>
    obtain ⟨h51, h76, h101, h126⟩ := hsync rfl
    rw [p25Image_ldu2, byteAt_putEss_outside _ _ h51 h76 h101 h126]
    exact byteAt_putMarks_outside .ldu2 buf hmark

/-- Settles O27: markers and encryption sync are read back where they were put, the other bytes are kept. -/
theorem imageAddsMarksAndSync : Obligations.ImageAddsMarksAndSync := by
  intro half buf crypto hbuf hmi image
  refine ⟨(p25Image_length half buf crypto).trans hbuf, fun k hk => ?_, ?_, fun i hi hmark hsync =>
    byteAt_p25Image_kept buf crypto ⟨hmark, hsync⟩⟩
  · rw [byteAt_p25Image_mark half crypto hbuf hk]
    cases half with
    | ldu1 => exact byteAt_marks_ldu1 hk
    | ldu2 => exact byteAt_marks_ldu2 hk
  · rintro rfl
    have hlen := (putMarks_length .ldu2 buf).trans hbuf
    exact ⟨readAt_putEss_mi _ crypto (j := 0) (by decide) hlen, readAt_putEss_mi _ crypto (j := 1) (by decide) hlen,
      readAt_putEss_mi _ crypto (j := 2) (by decide) hlen, readAt_putEss_alg _ crypto hlen⟩

/-! ## One end to the other -/

/-- A codeword lies within one record, clear of what the image adds. -/
theorem kept_codeword (half : Role) {k j : Nat} (hk : k < 9) (hj : j < 11) :
    Kept half (cwPos k + j) ∧ cwPos k + j < 225 ∧
      (cwPos k + j) % 25 < recLenAt params ((cwPos k + j) / 25) := by
  have hall : ∀ k < 9, ∀ j < 11, ((cwPos k + j) % 25 ≠ 0 ∧ ¬(50 < cwPos k + j ∧ cwPos k + j < 54) ∧
      ¬(75 < cwPos k + j ∧ cwPos k + j < 79) ∧ ¬(100 < cwPos k + j ∧ cwPos k + j < 104) ∧
      ¬(125 < cwPos k + j ∧ cwPos k + j < 129)) ∧ cwPos k + j < 225 ∧
      (cwPos k + j) % 25 < recLenAt params ((cwPos k + j) / 25) := by decide
  obtain ⟨⟨hmark, hsync⟩, hrest⟩ := hall k hk j hj
  exact ⟨⟨hmark, fun _ => hsync⟩, hrest⟩

/-- The codewords survive the image and the packing. -/
theorem codewordsOf_p25Unpack_p25Pack (half : Role) (buf : Bytes) (crypto : CryptoParams) :
    codewordsOf (p25Unpack params (p25Pack params (p25Image params half buf crypto))) = codewordsOf buf := by
  have hread : ∀ b, codewordsOf b = (List.range 9).map fun k => readAt b (cwPos k) 11 := fun _ => rfl
  rw [hread, hread]
  refine List.map_congr_left fun k hk => readAt_congr fun j hj => ?_
  obtain ⟨hkept, hi, hrec⟩ := kept_codeword half (List.mem_range.mp hk) hj
  rw [byteAt_p25Unpack_p25Pack _ hi hrec, byteAt_p25Image_kept buf crypto hkept]

/-- The sync fields lie within their records. -/
theorem readAt_sync_p25Unpack_p25Pack (image : Bytes) {r : Nat} (hr : r < 6) (hr0 : 1 < r) :
    readAt (p25Unpack params (p25Pack params image)) (25 * r + 1) 3 = readAt image (25 * r + 1) 3 := by
  have hlen : 4 ≤ recLenAt params r := by
    have hall : ∀ r < 6, 4 ≤ recLenAt params r := by decide
    exact hall r hr
  refine readAt_congr fun j hj => byteAt_p25Unpack_p25Pack image (by omega) ?_
  rw [show (25 * r + 1 + j) / 25 = r by omega]
  omega

/-- Settles O28: the test reads the markers of the image, the codewords and the sync fields come through the packing. -/
theorem sentLduIsReadBack : Obligations.SentLduIsReadBack := by
  intro half buf crypto data hbuf hmi hdata hhdu hpayload
  have hmarks : ∀ k, k < 9 →
      byteAt data (params.p25PayloadOff + params.recNetOff.getD k 0) = byteAt (marks half) k := by
    intro k hk
    have hpos := (recLenAt_le hk).1
    have hroom : recNetOffAt params k < 154 := by
      have hall : ∀ k < 9, recNetOffAt params k < 154 := by decide
      exact hall k hk
    have hread := congrArg (byteAt · 0) (readAt_p25Pack (p25Image params half buf crypto) hk)
    simp only [byteAt_readAt _ _ _ _ hpos, Nat.add_zero, byteAt_p25Image_mark half crypto hbuf hk] at hread
    rw [← hread, ← hpayload, byteAt_readAt _ _ _ _ hroom]
    rfl
  refine ⟨?_, ?_, ?_⟩
  · cases half with
    | ldu1 =>
      refine (p25Valid_ldu1_iff data).mpr ⟨hdata, (marksMatch_iff byteAt_marks_ldu1 data).mpr fun k hk => ?_, hhdu rfl⟩
      rw [hmarks k hk, byteAt_marks_ldu1 hk]
    | ldu2 =>
      refine (p25Valid_ldu2_iff data).mpr ⟨hdata, (marksMatch_iff byteAt_marks_ldu2 data).mpr fun k hk => ?_⟩
      rw [hmarks k hk, byteAt_marks_ldu2 hk]
  · rw [hpayload]
    exact codewordsOf_p25Unpack_p25Pack half buf crypto
  · rintro rfl image
    have hlen := (putMarks_length .ldu2 buf).trans hbuf
    have hsync := fun r (hr : r < 6) (hr0 : 1 < r) =>
      readAt_sync_p25Unpack_p25Pack (p25Image params .ldu2 buf crypto) hr hr0
    rw [← hpayload] at hsync
    have hmiAt := fun j (hj : j < 3) => readAt_putEss_mi (putMarks params .ldu2 buf) crypto hj hlen
    have halg : readAt image 126 3 = crypto.algoId :: be 2 crypto.keyId :=
      (hsync 5 (by decide) (by decide)).trans (readAt_putEss_alg _ crypto hlen)
    obtain ⟨halgo, hkey⟩ := List.cons.inj halg
    refine ⟨halgo, field_of_readAt (by decide) hkey, ?_⟩
    have h0 : readAt image 51 3 = _ := (hsync 2 (by decide) (by decide)).trans (hmiAt 0 (by decide))
    have h1 : readAt image 76 3 = _ := (hsync 3 (by decide) (by decide)).trans (hmiAt 1 (by decide))
    have h2 : readAt image 101 3 = _ := (hsync 4 (by decide) (by decide)).trans (hmiAt 2 (by decide))
    calc readAt image 51 3 ++ (readAt image 76 3 ++ readAt image 101 3)
        = readAt crypto.mi 0 (3 + (3 + 3)) := by rw [h0, h1, h2, readAt_add, readAt_add]
      _ = crypto.mi := readAt_first hmi

end Sys2Proof.Proofs
end

