-- ==== Sys2Proof/Proofs/Reception.lean ====
section
/-! PROOFS. A frame of either protocol as one thing: its step on a channel, case by case, and what its work keeps of the
receive call (45_call_tracker.md R233, R234): a channel that receives the frame's stream, or starts to, goes on
receiving it from the same peer. -/

namespace Sys2Proof.Proofs

open Sys2Proof Sys2Proof.Machine Sys2Proof.Claims

/-! ## Records of one channel -/

/-- Every EVT record is the channel's. -/
def EvtOf (c : Nat) (evt : List EvtRec) : Prop := ∀ e ∈ evt, e.ch = BitVec.ofNat 16 c

theorem evtOf_nil (c : Nat) : EvtOf c [] := fun _ he => absurd he List.not_mem_nil

theorem evtOf_singleton (c : Nat) (info : EvtInfo) : EvtOf c [{ ch := BitVec.ofNat 16 c, info := info }] := by
  intro e he
  rw [List.mem_singleton.mp he]

theorem evtOf_append {c : Nat} {a b : List EvtRec} (ha : EvtOf c a) (hb : EvtOf c b) : EvtOf c (a ++ b) :=
  fun e he => (List.mem_append.mp he).elim (ha e) (hb e)

/-- A prepare's records are its channel's. -/
theorem seedOf_evtOf (s : State) (c : Nat) (algId : BitVec 8) (keyId : BitVec 16) (mi : Bytes) (e : Engine)
    (noKey : Bool) : EvtOf c (seedOf s c algId keyId mi e noKey).evt := by
  cases hclear : isClear params algId keyId with
  | true =>
    rw [seedOf_of_clear s c mi e noKey hclear]
    exact evtOf_nil c
  | false =>
    cases hsup : supported params algId with
    | false =>
      rw [seedOf_of_unsupported s c mi e noKey hclear hsup]
      exact evtOf_singleton c _
    | true =>
      cases hkey : keyOf s.keys algId keyId with
      | none =>
        rw [seedOf_of_noKey s c mi e noKey hclear hsup hkey]
        exact evtOf_singleton c _
      | some key =>
        rw [seedOf_of_key s c mi e noKey hclear hsup hkey]
        exact evtOf_nil c

/-! ## The receive call -/

/-- The channel receives the stream from the peer. -/
def Receives (id peer : BitVec 32) (x : Chan) : Prop :=
  x.cs.isReceiving = true ∧ x.cs.rxStreamId = id ∧ x.cs.peerId = peer

/-- After a step's work the channel does, and the work's records are the channel's. -/
def LeavesReceiving (c : Nat) (id peer : BitVec 32) (w : Work) : Prop := Receives id peer w.ch ∧ EvtOf c w.evt

theorem leavesReceiving_setStatus {c : Nat} {id peer : BitVec 32} {w : Work} (r : SlotRef) (v : SlotStatus)
    (h : LeavesReceiving c id peer w) : LeavesReceiving c id peer (w.setStatus r v) := by
  cases r <;> exact h

/-- Part 4 on a channel that receives the stream already, or finds it new. -/
theorem tracked_leavesReceiving {s : State} {c : Nat} {x : Chan} {ev : RxEvent} {r : SlotRef} (proto : Proto)
    (h : Receives ev.streamId ev.peerId x ∨ (x.status r).streamId ≠ ev.streamId) :
    LeavesReceiving c ev.streamId ev.peerId
      (quiet s (tracked s c x ev r proto).ch (tracked s c x ev r proto).evt) := by
  by_cases hknown : ev.streamId = (x.status r).streamId
  · rw [tracked_of_known hknown]
    exact leavesReceiving_setStatus (w := quiet s _ _) r _ ⟨h.resolve_right (not_not_intro hknown.symm), evtOf_nil c⟩
  · rw [tracked_of_new hknown]
    exact leavesReceiving_setStatus (w := quiet s _ _) r _
      ⟨⟨rfl, rfl, rfl⟩, evtOf_append (seedOf_evtOf _ _ _ _ _ _ _) (evtOf_singleton c _)⟩

section Payload

variable {s : State} {c : Nat} {id peer : BitVec 32} {y : Chan} {evt : List EvtRec} (ev : RxEvent)
  (h : LeavesReceiving c id peer (quiet s y evt))
include h

theorem rxLdu1_leavesReceiving : LeavesReceiving c id peer (rxLdu1 params s.keys c ev (quiet s y evt)) := by
  obtain ⟨hrx, hevt⟩ := h
  cases hhdu : hasHdu params ev.data with
  | true =>
    rw [rxLdu1_of_hdu s c y evt ev hhdu]
    exact ⟨hrx, evtOf_append hevt (seedOf_evtOf _ _ _ _ _ _ _)⟩
  | false =>
    rw [rxLdu1_of_plain s c y evt ev hhdu]
    exact ⟨hrx, hevt⟩

theorem rxLdu2_leavesReceiving : LeavesReceiving c id peer (rxLdu2 params s.keys c ev (quiet s y evt)) := by
  obtain ⟨hrx, hevt⟩ := h
  generalize himage : p25Unpack params (p25Payload params ev.data) = image
  rw [rxLdu2_quiet s c y evt ev himage, prep_eq_seeded]
  exact ⟨hrx, evtOf_append hevt (seedOf_evtOf _ _ _ _ _ _ _)⟩

/-- Part 5 of the P25 step. -/
theorem p25Payload_leavesReceiving (cls : P25Class) :
    LeavesReceiving c id peer (p25PayloadPart params s.keys c cls ev (quiet s y evt)) := by
  obtain ⟨hldu1, hldu2⟩ := p25PayloadPart_of_receiving s.keys c ev (w := quiet s y evt) h.1.1
  cases cls with
  | ldu1 =>
    rw [hldu1]
    exact rxLdu1_leavesReceiving ev h
  | ldu2 =>
    rw [hldu2]
    exact rxLdu2_leavesReceiving ev h
  | term =>
    rw [p25PayloadPart_term]
    exact h
  | other =>
    rw [p25PayloadPart_other]
    exact h

/-- Part 5 of the DMR step. -/
theorem dmrPayload_leavesReceiving (r : SlotRef) (cls : DmrClass) :
    LeavesReceiving c id peer (dmrPayloadPart params c r cls ev (quiet s y evt)) := by
  cases cls with
  | voice =>
    rw [dmrPayloadPart_voice, rxDmrVoice_eq]
    cases (quiet s y evt).ch.cs.isReceiving <;> exact h
  | vhdr =>
    rw [show dmrPayloadPart params c r .vhdr ev (quiet s y evt) = _ from rxDmrVhdr_eq s y evt r _]
    exact leavesReceiving_setStatus (w := quiet s y evt) r _ h
  | pihdr =>
    rw [show dmrPayloadPart params c r .pihdr ev (quiet s y evt) = _ from rxDmrPihdr_eq s y evt r _]
    exact leavesReceiving_setStatus (w := quiet s y evt) r _ h
  | term => exact h
  | other => exact h

end Payload

/-! ## The step of a frame -/

/-- The step of a frame's command on a channel. -/
def frameStep : Frame → Nat → State → State
  | .p25 cls _ ev => rxP25Step params cls ev
  | .dmr cls _ slot ev => rxDmrStep params cls slot ev

/-- Parts 4 to 6 of it. -/
def frameWork : Frame → Nat → State → Work
  | .p25 cls _ ev, c, s => p25Accepted params s.keys cls ev c (s.work params c)
  | .dmr cls _ slot ev, c, s => dmrAccepted params s.keys cls slot ev c (s.work params c)

theorem hits_p25 (cls : P25Class) (kind : BitVec 8) (ev : RxEvent) (x : Chan) : (Frame.p25 cls kind ev).hits x =
    (x.valid && (x.cfg.set && (x.cfg.sys == ev.sys && x.cfg.dstId == ev.dstId))) := rfl

theorem hits_dmr (cls : DmrClass) (kind slot : BitVec 8) (ev : RxEvent) (x : Chan) :
    (Frame.dmr cls kind slot ev).hits x = (x.valid && (x.cfg.set && (x.cfg.sys == ev.sys &&
      (x.cfg.dstId == ev.dstId && x.cfg.slot.toNat == slot.toNat)))) := rfl

/-- Whether a frame reaches a slot is a matter of `valid` and the configuration. -/
theorem hits_congr (f : Frame) {x y : Chan} (hvalid : x.valid = y.valid) (hcfg : x.cfg = y.cfg) :
    f.hits x = f.hits y := by
  cases f with
  | p25 cls kind ev => rw [hits_p25, hits_p25, hvalid, hcfg]
  | dmr cls kind slot ev => rw [hits_dmr, hits_dmr, hvalid, hcfg]

theorem hits_p25_iff (cls : P25Class) (kind : BitVec 8) (ev : RxEvent) (x : Chan) :
    (Frame.p25 cls kind ev).hits x = true ↔ ReachesP25 x ev := by
  rw [hits_p25]
  delta ReachesP25
  simp only [Bool.and_eq_true, beq_iff_eq]

theorem hits_dmr_iff (cls : DmrClass) (kind slot : BitVec 8) (ev : RxEvent) (x : Chan) :
    (Frame.dmr cls kind slot ev).hits x = true ↔ ReachesDmr x slot ev := by
  rw [hits_dmr]
  delta ReachesDmr ReachesP25
  simp only [Bool.and_eq_true, beq_iff_eq, and_assoc]

/-- A frame reaches valid and configured slots only. -/
theorem valid_of_hits {f : Frame} {x : Chan} (h : f.hits x = true) : x.valid = true ∧ x.cfg.set = true := by
  cases f with
  | p25 cls kind ev =>
    obtain ⟨hvalid, hset, -⟩ := (hits_p25_iff cls kind ev x).mp h
    exact ⟨hvalid, hset⟩
  | dmr cls kind slot ev =>
    obtain ⟨⟨hvalid, hset, -⟩, -⟩ := (hits_dmr_iff cls kind slot ev x).mp h
    exact ⟨hvalid, hset⟩

section FrameStep

variable {f : Frame} {c : Nat} {s : State}

theorem stepsBy_frame (hsound : f.Sound) : StepsBy f.instr (frameStep f) := by
  cases f with
  | p25 cls kind ev =>
    obtain ⟨-, hfits, -⟩ := hsound
    exact stepsBy_rxp25 cls kind hfits
  | dmr cls kind slot ev =>
    obtain ⟨-, hfits, hslot, -⟩ := hsound
    exact stepsBy_rxdmr cls kind hfits hslot

theorem frameStep_of_unreached (h : f.hits (s.chan params c) = false) : frameStep f c s = s := by
  have hnot := ne_true_of_eq_false h
  cases f with
  | p25 cls kind ev => exact rxP25Step_of_unreached (mt (hits_p25_iff cls kind ev _).mpr hnot)
  | dmr cls kind slot ev => exact rxDmrStep_of_unreached (mt (hits_dmr_iff cls kind slot ev _).mpr hnot)

theorem frameStep_of_filtered {r : DropReason} (hsound : f.Sound) (h : f.hits (s.chan params c) = true)
    (hdup : dupCheck s.chans f.event c (s.chan params c) = some r) :
    frameStep f c s = s.dropFrame c r f.event.streamId := by
  cases f with
  | p25 cls kind ev =>
    obtain ⟨-, -, hform⟩ := hsound
    exact rxP25Step_of_filtered ((hits_p25_iff cls kind ev _).mp h) hform hdup
  | dmr cls kind slot ev =>
    obtain ⟨-, -, -, hform⟩ := hsound
    exact rxDmrStep_of_filtered ((hits_dmr_iff cls kind slot ev _).mp h) hform hdup

theorem frameStep_of_accepted (hsound : f.Sound) (h : f.hits (s.chan params c) = true)
    (hdup : dupCheck s.chans f.event c (s.chan params c) = none) :
    frameStep f c s = s.commit params c (frameWork f c s) := by
  cases f with
  | p25 cls kind ev =>
    obtain ⟨-, -, hform⟩ := hsound
    exact rxP25Step_of_accepted ((hits_p25_iff cls kind ev _).mp h) hform hdup
  | dmr cls kind slot ev =>
    obtain ⟨-, -, -, hform⟩ := hsound
    exact rxDmrStep_of_accepted ((hits_dmr_iff cls kind slot ev _).mp h) hform hdup

/-- An accepted frame's work keeps the transmit side, the configuration and `valid`. -/
theorem frameWork_received (h : f.hits (s.chan params c) = true) : Received (s.chan params c) (frameWork f c s) := by
  cases f with
  | p25 cls kind ev =>
    exact inboundWork_received (i := rxp25 cls kind ev) (Or.inl ⟨cls, kind, ev, (hits_p25_iff cls kind ev _).mp h, rfl, rfl⟩)
  | dmr cls kind slot ev =>
    exact inboundWork_received (i := rxdmr cls kind slot ev)
      (Or.inr (Or.inl ⟨cls, kind, slot, ev, (hits_dmr_iff cls kind slot ev _).mp h, rfl, rfl⟩))

/-- An accepted frame that is no terminator leaves the channel receiving its stream, if the channel received that stream
before or the stream is new to it. -/
theorem frameWork_leavesReceiving (hsound : f.Sound)
    (h : Receives f.event.streamId f.event.peerId (s.chan params c) ∨
      f.lastStream (s.chan params c) ≠ f.event.streamId) :
    LeavesReceiving c f.event.streamId f.event.peerId (frameWork f c s) := by
  cases f with
  | p25 cls kind ev =>
    obtain ⟨hcls, -, -⟩ := hsound
    have hterm : (FrameType.p25 cls).isTerm = false := by
      cases cls with
      | term => exact absurd rfl hcls
      | ldu1 | ldu2 | other => rfl
    change LeavesReceiving c ev.streamId ev.peerId (observe ev .p25 (.p25 cls)
      (p25PayloadPart params s.keys c cls ev (track params s.keys c ev .p25 (.p25 cls) (s.work params c))))
    rw [track_eq_tracked s c ev .p25 hterm]
    exact leavesReceiving_setStatus .p25 _ (p25Payload_leavesReceiving ev (tracked_leavesReceiving .p25 h) cls)
  | dmr cls kind slot ev =>
    obtain ⟨hcls, -, -, -⟩ := hsound
    have hterm : (FrameType.dmr cls).isTerm = false := by
      cases cls with
      | term => exact absurd rfl hcls
      | voice | vhdr | pihdr | other => rfl
    have hlast : (Frame.dmr cls kind slot ev).lastStream (s.chan params c) =
        ((s.chan params c).status (dmrSlot slot)).streamId := by
      delta dmrSlot
      by_cases hslot : slot = 2
      · rw [if_pos hslot]
        exact if_pos hslot
      · rw [if_neg hslot]
        exact if_neg hslot
    rw [hlast] at h
    change LeavesReceiving c ev.streamId ev.peerId (dmrAccepted params s.keys cls slot ev c (s.work params c))
    rw [dmrAccepted_eq, track_eq_tracked s c ev _ hterm]
    exact leavesReceiving_setStatus (dmrSlot slot) _
      (dmrPayload_leavesReceiving ev (tracked_leavesReceiving _ h) (dmrSlot slot) cls)

end FrameStep

end Sys2Proof.Proofs
end

