-- ==== Sys2Proof/Proofs/OneTaker.lean ====
section
/-! PROOFS. One stream on one talkgroup is taken by one channel (45_call_tracker.md R232, R239 (1)). The lowest channel a
frame reaches receives the stream; from then on the filter finds it there, and turns the frame away from every channel
behind. -/

namespace Sys2Proof.Proofs

open Sys2Proof Sys2Proof.Machine Sys2Proof.Claims

/-! ## The records of a channel -/

/-- The DROP record of a channel for a stream that another one receives. -/
def dropOf (id : BitVec 32) (d : Nat) : EvtRec := { ch := BitVec.ofNat 16 d, info := .drop .dupCross id }

/-- The records of channel d. -/
def recordsOf (d : Nat) (evt : List EvtRec) : List EvtRec := evt.filter fun r => r.ch == BitVec.ofNat 16 d

theorem recordsOf_append (d : Nat) (a b : List EvtRec) : recordsOf d (a ++ b) = recordsOf d a ++ recordsOf d b :=
  List.filter_append ..

theorem nch_le : params.nch ≤ 65536 := params.nchLess1.isLt

/-- Channels below NCH have different indices in a record. -/
theorem chanIndex_ne {c d : Nat} (hc : c < params.nch) (hd : d < params.nch) (hne : c ≠ d) :
    BitVec.ofNat 16 c ≠ BitVec.ofNat 16 d := by
  intro heq
  have hnat := congrArg BitVec.toNat heq
  have hle := nch_le
  rw [BitVec.toNat_ofNat, BitVec.toNat_ofNat, Nat.mod_eq_of_lt (by omega), Nat.mod_eq_of_lt (by omega)] at hnat
  exact hne hnat

theorem recordsOf_of_evtOf {c d : Nat} {evt : List EvtRec} (hc : c < params.nch) (hd : d < params.nch) (hne : c ≠ d)
    (h : EvtOf c evt) : recordsOf d evt = [] :=
  List.filter_eq_nil_iff.mpr fun e he => by
    rw [h e he, beq_iff_eq]
    exact chanIndex_ne hc hd hne

theorem recordsOf_dropOf (id : BitVec 32) {c d : Nat} (hc : c < params.nch) (hd : d < params.nch) :
    recordsOf d [dropOf id c] = if c = d then [dropOf id d] else [] := by
  by_cases hsame : c = d
  · subst hsame
    rw [if_pos rfl]
    exact List.filter_eq_self.mpr fun e he => by rw [List.mem_singleton.mp he]; exact beq_self_eq_true _
  · rw [if_neg hsame]
    exact recordsOf_of_evtOf hc hd hsame (evtOf_singleton c _)

/-! ## The block before and after the stream is taken -/

/-- From s to t, only the state of channel a has moved, its configuration aside. -/
def OthersKept (a : Nat) (s t : State) : Prop :=
  (∀ d, d ≠ a → t.chan params d = s.chan params d) ∧ (t.chan params a).valid = (s.chan params a).valid ∧
    (t.chan params a).cfg = (s.chan params a).cfg

/-- No channel but a receives the stream, and none sends it. -/
def NoOther (a : Nat) (id : BitVec 32) (t : State) : Prop :=
  ∀ p ∈ t.chans, p.2.cs.txStreamId ≠ id ∧ (p.1 ≠ a → p.2.cs.rxStreamId ≠ id)

/-- The stream is channel a's alone. -/
def Taken (s : State) (a : Nat) (id peer : BitVec 32) (t : State) : Prop :=
  OthersKept a s t ∧ NoOther a id t ∧ Receives id peer (t.chan params a)

/-- The frame is one of the stream, from the peer, and channel a is the lowest one it reaches. -/
def Comes (s : State) (a : Nat) (id peer : BitVec 32) (f : Frame) : Prop :=
  f.Sound ∧ f.event.streamId = id ∧ f.event.peerId = peer ∧ f.hits (s.chan params a) = true ∧
    ∀ d, d < a → f.hits (s.chan params d) = false

/-- A valid slot is an entry of the array. -/
theorem mem_chans_of_valid {t : State} {c : Nat} (h : (t.chan params c).valid = true) :
    (c, t.chan params c) ∈ t.chans := mapGet_mem (State.listed_of_valid h)

section OneFrame

variable {s t : State} {a : Nat} {id peer : BitVec 32} {f : Frame} (hid : id ≠ 0) (hcomes : Comes s a id peer f)
include hcomes

theorem hits_taker (hkept : OthersKept a s t) : f.hits (t.chan params a) = true := by
  obtain ⟨-, -, -, hhits, -⟩ := hcomes
  obtain ⟨-, hvalid, hcfg⟩ := hkept
  rw [hits_congr f hvalid hcfg]
  exact hhits

/-- The filter lets the frame pass on channel a: no other channel holds the stream, and a has it from the same peer, if
at all. -/
theorem dupCheck_taker (hother : NoOther a id t)
    (hpeer : (t.chan params a).cs.rxStreamId = id → (t.chan params a).cs.peerId = peer) :
    dupCheck t.chans f.event a (t.chan params a) = none := by
  obtain ⟨-, hstream, hfrom, -, -⟩ := hcomes
  refine (filterReportsFirstReason t f.event a (t.chan params a)).2.2.2.mpr (Or.inr ⟨?_, ?_, ?_⟩)
  · rintro ⟨p, hp, hne, -, -, hrx⟩
    exact (hother p hp).2 hne (hrx.trans hstream)
  · rintro ⟨hrx, hne⟩
    exact hne (hfrom.trans (hpeer (hrx.trans hstream)).symm)
  · rintro ⟨p, hp, -, -, htx⟩
    exact (hother p hp).1 (htx.trans hstream)

/-- On channel a the frame is accepted, and the channel receives the stream. -/
theorem taken_of_taker (hkept : OthersKept a s t) (hother : NoOther a id t)
    (hrx : Receives id peer (t.chan params a) ∨
      (t.chan params a).cs.rxStreamId ≠ id ∧ f.lastStream (t.chan params a) ≠ id) :
    ∃ evt, EvtOf a evt ∧ (frameStep f a t).evt = t.evt ++ evt ∧ Taken s a id peer (frameStep f a t) := by
  have hhits := hits_taker hcomes hkept
  have hvalid := (valid_of_hits hhits).1
  have hdup := dupCheck_taker hcomes hother fun hsame =>
    hrx.elim (fun h => h.2.2) fun h => absurd hsame h.1
  obtain ⟨hsound, hstream, hfrom, -, -⟩ := hcomes
  obtain ⟨htx, hcfgW, hvalidW, -⟩ := frameWork_received hhits
  have hleaves : LeavesReceiving a id peer (frameWork f a t) := by
    rw [← hstream, ← hfrom]
    refine frameWork_leavesReceiving hsound ?_
    rw [hstream, hfrom]
    exact hrx.imp_right And.right
  obtain ⟨hreceives, hevt⟩ := hleaves
  have hsame : ∀ d, (frameStep f a t).chan params d = if d = a then (frameWork f a t).ch else t.chan params d := by
    intro d
    rw [frameStep_of_accepted hsound hhits hdup, State.chan_commit]
  refine ⟨(frameWork f a t).evt, hevt, ?_, ⟨fun d hd => ?_, ?_, ?_⟩, ?_, ?_⟩
  · rw [frameStep_of_accepted hsound hhits hdup]
    rfl
  · rw [hsame, if_neg hd]
    exact hkept.1 d hd
  · rw [hsame, if_pos rfl, hvalidW]
    exact hkept.2.1
  · rw [hsame, if_pos rfl, hcfgW]
    exact hkept.2.2
  · intro p hp
    rw [frameStep_of_accepted hsound hhits hdup, State.commit_valid (hvalidW.trans hvalid)] at hp
    rcases mem_mapPut hp with rfl | hbefore
    · refine ⟨?_, fun hne => absurd rfl hne⟩
      rw [htx.1]
      exact (hother _ (mem_chans_of_valid hvalid)).1
    · exact hother p hbefore
  · rw [hsame, if_pos rfl]
    exact hreceives

include hid

/-- On any other channel it is dropped, where it reaches the channel at all. -/
theorem frameStep_elsewhere (htaken : Taken s a id peer t) {d : Nat} (hd : d ≠ a) :
    frameStep f d t = { t with evt := t.evt ++ if f.hits (s.chan params d) then [dropOf id d] else [] } := by
  obtain ⟨hkept, -, hreceives⟩ := htaken
  obtain ⟨hvalid, hset⟩ := valid_of_hits (hits_taker hcomes hkept)
  obtain ⟨hsound, hstream, -, -, -⟩ := hcomes
  have hchan := hkept.1 d hd
  cases hhits : f.hits (s.chan params d) with
  | false =>
    rw [frameStep_of_unreached (by rw [hchan]; exact hhits), if_neg Bool.false_ne_true, List.append_nil]
  | true =>
    have hcross : dupCheck t.chans f.event d (t.chan params d) = some .dupCross :=
      (filterReportsFirstReason t f.event d (t.chan params d)).1.mpr
        ⟨hstream ▸ hid, (a, t.chan params a), mem_chans_of_valid hvalid, hd.symm, hvalid, hset,
          hreceives.2.1.trans hstream.symm⟩
    rw [frameStep_of_filtered hsound (by rw [hchan]; exact hhits) hcross, hstream, if_pos rfl]
    rfl

end OneFrame

/-! ## A frame on every channel -/

/-- Below channel a nothing happens. -/
theorem stepsBelow_before {s t : State} {a : Nat} {id peer : BitVec 32} {f : Frame} (hcomes : Comes s a id peer f)
    (hkept : OthersKept a s t) {m : Nat} (hm : m ≤ a) : stepsBelow (frameStep f) m t = t := by
  obtain ⟨-, -, -, -, hbelow⟩ := hcomes
  induction m with
  | zero => rfl
  | succ m ih =>
    rw [stepsBelow_succ, ih (Nat.le_of_succ_le hm)]
    exact frameStep_of_unreached (by rw [hkept.1 m (Nat.ne_of_lt hm)]; exact hbelow m hm)

/-- Behind channel a each channel the frame reaches gets its one DROP record. -/
theorem stepsBelow_behind {s t u : State} {a : Nat} {id peer : BitVec 32} {f : Frame} (hid : id ≠ 0)
    (hcomes : Comes s a id peer f) (htaken : Taken s a id peer u) (hu : stepsBelow (frameStep f) (a + 1) t = u) {m : Nat}
    (hm : a + 1 ≤ m) (hnch : m ≤ params.nch) :
    ∃ new, stepsBelow (frameStep f) m t = { u with evt := u.evt ++ new } ∧
      ∀ d, d < params.nch →
        recordsOf d new = if a < d ∧ d < m ∧ f.hits (s.chan params d) = true then [dropOf id d] else [] := by
  induction m, hm using Nat.le_induction with
  | base =>
    refine ⟨[], by rw [hu, List.append_nil], fun d _ => ?_⟩
    rw [if_neg (by omega)]
    rfl
  | succ m hm ih =>
    obtain ⟨new, hsteps, hnew⟩ := ih (Nat.le_of_succ_le hnch)
    have hhere : Taken s a id peer { u with evt := u.evt ++ new } := htaken
    refine ⟨new ++ if f.hits (s.chan params m) then [dropOf id m] else [], ?_, fun d hd => ?_⟩
    · rw [stepsBelow_succ, hsteps, frameStep_elsewhere hid hcomes hhere (by omega), ← List.append_assoc]
    · rw [recordsOf_append, hnew d hd]
      by_cases hlast : d = m
      · subst hlast
        rw [if_neg (by omega), List.nil_append]
        cases hhits : f.hits (s.chan params d) with
        | false =>
          rw [if_neg Bool.false_ne_true, if_neg (fun h => Bool.false_ne_true h.2.2)]
          rfl
        | true => rw [if_pos rfl, recordsOf_dropOf id hnch hd, if_pos rfl, if_pos ⟨hm, Nat.lt_succ_self d, rfl⟩]
      · have hnone : recordsOf d (if f.hits (s.chan params m) then [dropOf id m] else []) = [] := by
          split
          · rw [recordsOf_dropOf id hnch hd, if_neg (Ne.symm hlast)]
          · rfl
        rw [hnone, List.append_nil]
        exact if_congr ⟨fun ⟨habove, hbefore, hhits⟩ => ⟨habove, by omega, hhits⟩,
          fun ⟨habove, hbefore, hhits⟩ => ⟨habove, by omega, hhits⟩⟩ rfl rfl

/-- A frame carried out on every channel: the stream is channel a's, every other channel that it reaches has one more
DROP record. -/
theorem deliver_frame {s t : State} {a : Nat} {id peer : BitVec 32} {f : Frame} (ha : a < params.nch) (hid : id ≠ 0)
    (hcomes : Comes s a id peer f) (hkept : OthersKept a s t) (hother : NoOther a id t)
    (hrx : Receives id peer (t.chan params a) ∨
      (t.chan params a).cs.rxStreamId ≠ id ∧ f.lastStream (t.chan params a) ≠ id) :
    ∃ u, deliver f.instr t = .next u ∧ Taken s a id peer u ∧ ∃ new, u.evt = t.evt ++ new ∧
      ∀ d, d < params.nch → d ≠ a →
        recordsOf d new = if f.hits (s.chan params d) then [dropOf id d] else [] := by
  obtain ⟨own, hown, hevt, htaken⟩ := taken_of_taker hcomes hkept hother hrx
  have hfirst : stepsBelow (frameStep f) (a + 1) t = frameStep f a t := by
    rw [stepsBelow_succ, stepsBelow_before hcomes hkept (le_refl a)]
  obtain ⟨new, hsteps, hnew⟩ := stepsBelow_behind hid hcomes htaken hfirst ha (le_refl params.nch)
  refine ⟨_, deliver_eq (stepsBy_frame hcomes.1) t, ?_, own ++ new, ?_, fun d hd hne => ?_⟩
  · rw [hsteps]
    exact htaken
  · rw [hsteps]
    exact (congrArg (· ++ new) hevt).trans (List.append_assoc ..)
  · rw [recordsOf_append, recordsOf_of_evtOf ha hd (Ne.symm hne) hown, List.nil_append, hnew d hd]
    refine if_congr ⟨fun h => h.2.2, fun hhits => ⟨?_, hd, hhits⟩⟩ rfl rfl
    obtain ⟨-, -, -, -, hbelow⟩ := hcomes
    refine Nat.lt_of_le_of_ne (Nat.le_of_not_lt fun hlt => ?_) (Ne.symm hne)
    rw [hbelow d hlt] at hhits
    cases hhits

/-! ## Frame after frame -/

theorem deliverAll_cons {i : Instr} (is : List Instr) {t u : State} (h : deliver i t = .next u) :
    deliverAll (i :: is) t = deliverAll is u := by
  simp only [deliverAll, h]

/-- One record more, if the first of the frames counts. -/
theorem replicate_countP_cons (p : Frame → Bool) (f : Frame) (frames : List Frame) (r : EvtRec) :
    (if p f then [r] else []) ++ List.replicate (frames.countP p) r = List.replicate ((f :: frames).countP p) r := by
  cases h : p f with
  | true => rw [if_pos rfl, List.countP_cons_of_pos h, List.replicate_succ, List.singleton_append]
  | false => rw [if_neg Bool.false_ne_true, List.countP_cons_of_neg (ne_true_of_eq_false h), List.nil_append]

/-- Once the stream is taken, it stays so. -/
theorem taken_of_frames {s t : State} {a : Nat} {id peer : BitVec 32} {frames : List Frame} (ha : a < params.nch)
    (hid : id ≠ 0) (hcome : ∀ f ∈ frames, Comes s a id peer f) (htaken : Taken s a id peer t) :
    ∃ u, deliverAll (frames.map Frame.instr) t = .next u ∧ Taken s a id peer u ∧ ∃ new, u.evt = t.evt ++ new ∧
      ∀ d, d < params.nch → d ≠ a →
        recordsOf d new = List.replicate (frames.countP fun f => f.hits (s.chan params d)) (dropOf id d) := by
  induction frames generalizing t with
  | nil => exact ⟨t, rfl, htaken, [], (List.append_nil _).symm, fun _ _ _ => rfl⟩
  | cons f frames ih =>
    obtain ⟨hkept, hother, hreceives⟩ := htaken
    obtain ⟨u, hdeliver, htaken', new, hevt, hnew⟩ :=
      deliver_frame ha hid (hcome f List.mem_cons_self) hkept hother (Or.inl hreceives)
    obtain ⟨v, hdeliverAll, htaken'', rest, hevt', hrest⟩ :=
      ih (fun g hg => hcome g (List.mem_cons_of_mem f hg)) htaken'
    refine ⟨v, (deliverAll_cons _ hdeliver).trans hdeliverAll, htaken'', new ++ rest, ?_, fun d hd hne => ?_⟩
    · rw [hevt', hevt, List.append_assoc]
    · rw [recordsOf_append, hnew d hd hne, hrest d hd hne, replicate_countP_cons]

/-- Settles O48: the first frame makes the stream channel a's, and the others find it there. -/
theorem duplicateStreamTakenOnce : Obligations.DuplicateStreamTakenOnce := by
  intro s a id peer frames ha hid hne hfree hframes
  have hcome : ∀ f ∈ frames, Comes s a id peer f := fun f hf => by
    obtain ⟨hsound, hstream, hfrom, hhits, -, hbelow⟩ := hframes f hf
    exact ⟨hsound, hstream, hfrom, hhits, hbelow⟩
  have hother : NoOther a id s := fun p hp => ⟨(hfree p hp).2, fun _ => (hfree p hp).1⟩
  obtain ⟨f, frames, rfl⟩ := List.exists_cons_of_ne_nil hne
  have hfirst := hcome f List.mem_cons_self
  obtain ⟨-, -, -, hhits, hnew, -⟩ := hframes f List.mem_cons_self
  have hrx : (s.chan params a).cs.rxStreamId ≠ id := (hfree _ (mem_chans_of_valid (valid_of_hits hhits).1)).1
  obtain ⟨u, hdeliver, htaken, drops, hevt, hdrops⟩ :=
    deliver_frame ha hid hfirst ⟨fun _ _ => rfl, rfl, rfl⟩ hother (Or.inr ⟨hrx, hnew⟩)
  obtain ⟨t, hdeliverAll, ⟨hkept, -, hreceives⟩, rest, hevt', hrest⟩ :=
    taken_of_frames ha hid (fun g hg => hcome g (List.mem_cons_of_mem f hg)) htaken
  obtain ⟨hreceiving, hstream, hpeer⟩ := hreceives
  refine ⟨t, (deliverAll_cons _ hdeliver).trans hdeliverAll, hreceiving, hstream, hpeer, fun d hd hda =>
    ⟨hkept.1 d hda, ?_⟩⟩
  have hall : t.evt.drop s.evt.length = drops ++ rest := by
    rw [hevt', hevt, List.append_assoc, List.drop_left]
  rw [hall]
  change recordsOf d (drops ++ rest) = List.replicate _ (dropOf id d)
  rw [recordsOf_append, hdrops d hd hda, hrest d hd hda, replicate_countP_cons]

end Sys2Proof.Proofs
end
